-- ==== Sys2Proof/Config.lean ====
section
/-! DEFINITION. The implementation parameters of the block (00_scope R8). The widths are the spec's decision D6 and
are constants. `POOL_BYTES` and `PRECLEAR_ON_WRITE` are fields of `Params`, which State carries and no command
writes, so that every claim ranges over all their values; `NQ` is the number of contexts State holds (log 4). -/

namespace Sys2Proof

/-- Width of an address of `M` (R8, D6). -/
abbrev AW : Nat := 32

/-- Width of a byte-count field and of `BUF_SIZE` (R8, D6). -/
abbrev SW : Nat := 32

/-- Width of the `COUNT` field (R8, D6). -/
abbrev CW : Nat := 32

/-- Width of `VALID_BITS` (R8, D6). -/
abbrev VW : Nat := 36

/-- Width of the `DBIT` and `SBIT` fields (R8, D6). -/
abbrev OFFW : Nat := 4

/-- Width of a queue handle (R8, D6). -/
abbrev HW : Nat := 8

/-- The largest number of queue contexts a block may have (R8: `1 <= NQ <= 255`). -/
abbrev maxNQ : Nat := 255

/-- The parameters of a block that the spec leaves to the implementation (R8), less `NQ`. -/
structure Params where
  /-- `POOL_BYTES`: size in bytes of each context's private RAM (R8, R34). -/
  poolBytes : Nat
  /-- `PRECLEAR_ON_WRITE`: whether `WRITE_BITS` clears the bits it is about to write (R8, R154). -/
  preclearOnWrite : Bool
  deriving DecidableEq, Repr

/-- `NQ` of the machine of `State.reset`: the default of R8 (D9). -/
def Config.defaultNQ : Nat := 1

/-- The parameters of the machine of `State.reset`. `PRECLEAR_ON_WRITE = 1` is R8's value (D14). `POOL_BYTES` has no
default in the spec; 16 is the value 95_test_vectors.md assumes. DESIGN CHOICE, unsafe for a claim about the one
machine of `State.reset` (log 4). -/
def Config.defaultParams : Params := { poolBytes := 16, preclearOnWrite := true }

end Sys2Proof
end

