-- ==== Sys2Proof/Word.lean ====
section
/-! DEFINITION. The two word types of the block: the byte of a buffer (00_scope R10) and the 32-bit word of a
descriptor (30_encoding R80). Sizes, counts, offsets and addresses are natural numbers, as the rules write them
(00_scope R9, D7); their widths are checked in WellFormed and kept by the invariant of Safety. -/

namespace Sys2Proof

/-- A byte of `M` or of a private RAM: 8 bits, bit 0 the least significant (R10). -/
abbrev Byte := BitVec 8

/-- A word of a command or response descriptor: 32 bits (R80, R91). -/
abbrev Word := BitVec 32

end Sys2Proof
end

