-- ==== Sys2Proof/Syntax.lean ====
section
/-! DEFINITION. The commands of the block as syntax: one constructor per row of spec/opcode_table.json, its operands
the descriptor fields the row's format uses (30_encoding R84), as natural numbers (R86). -/

namespace Sys2Proof

/-- The eight commands (30_encoding R84, R85). -/
inductive Instr where
  /-- `COPY_BITS dst=daddr, dpos=(dbyte,dbit), dcap, src=saddr, spos=(sbyte,sbit), scap, n=count` (R127). -/
  | copyBits (daddr dbyte dbit dcap saddr sbyte sbit scap count : Nat)
  /-- `CREATE_OWNED bytes=dcap` (R141). -/
  | createOwned (dcap : Nat)
  /-- `WRAP_BUFFER buf=daddr, bytes=dcap, own` (R142). -/
  | wrapBuffer (daddr dcap : Nat) (own : Bool)
  /-- `WRITE_BITS q=qh, src=saddr, size=scap, n=count` (R150). -/
  | writeBits (qh saddr scap count : Nat)
  /-- `READ_BITS q=qh, dst=daddr, size=dcap, n=count` (R160). -/
  | readBits (qh daddr dcap count : Nat)
  /-- `HAS_SPACE q=qh, n=count` (R170). -/
  | hasSpace (qh count : Nat)
  /-- `HAS_DATA q=qh, n=count` (R171). -/
  | hasData (qh count : Nat)
  /-- `DESTROY q=qh` (R175). -/
  | destroy (qh : Nat)
  deriving DecidableEq, Repr

/-- A command descriptor: 8 words of 32 bits, passed by value (30_encoding R80). -/
structure Descriptor where
  w0 : Word
  w1 : Word
  w2 : Word
  w3 : Word
  w4 : Word
  w5 : Word
  w6 : Word
  w7 : Word
  deriving DecidableEq, Repr

/-- The fields of a descriptor (30_encoding R81, R82); the reserved bits `W0[31:25]` are no field. -/
inductive Field where
  | op | qh | dbit | sbit | own | count | daddr | dbyte | dcap | saddr | sbyte | scap
  deriving DecidableEq, Repr

end Sys2Proof
end

