-- ==== Sys2Proof/WellFormed.lean ====
section
/-! DEFINITION. A command is well formed when each operand fits the descriptor field that carries it
(30_encoding R81, R82; widths of 00_scope R8). Nothing else is asked: an operand value the engine answers with an
error (a bit offset of 9, a zero count, an absent handle) is a well-formed command with that answer. -/

namespace Sys2Proof

/-- The value fits an unsigned field of `width` bits. -/
def fits (width v : Nat) : Bool := decide (v < 2 ^ width)

/-- Every operand fits its field (R81, R82). -/
def Instr.wellFormed : Instr → Bool
  | .copyBits daddr dbyte dbit dcap saddr sbyte sbit scap count =>
    fits AW daddr && fits SW dbyte && fits OFFW dbit && fits SW dcap && fits AW saddr && fits SW sbyte &&
      fits OFFW sbit && fits SW scap && fits CW count
  | .createOwned dcap => fits SW dcap
  | .wrapBuffer daddr dcap _ => fits AW daddr && fits SW dcap
  | .writeBits qh saddr scap count => fits HW qh && fits AW saddr && fits SW scap && fits CW count
  | .readBits qh daddr dcap count => fits HW qh && fits AW daddr && fits SW dcap && fits CW count
  | .hasSpace qh count => fits HW qh && fits CW count
  | .hasData qh count => fits HW qh && fits CW count
  | .destroy qh => fits HW qh

end Sys2Proof
end

