-- ==== Sys2Proof/Decode.lean ====
section
/-! DEFINITION. From descriptor to command and back: the fields of the eight words (30_encoding R81, R82), the opcode
map (R85), the little-endian byte layout (R83), decoding, which is total and rejects by name (R90), and the encoder. -/

namespace Sys2Proof

/-- `bits[lo+len-1 : lo]` of a word, `(w >> lo) & (2^len - 1)` (00_scope R10). -/
def wordBits (w : Word) (lo len : Nat) : Nat := w.toNat / 2 ^ lo % 2 ^ len

/-- A field's value, unsigned and zero-extended (R81, R82, R86). -/
def Descriptor.get (d : Descriptor) : Field → Nat
  | .op => wordBits d.w0 0 8
  | .qh => wordBits d.w0 8 8
  | .dbit => wordBits d.w0 16 4
  | .sbit => wordBits d.w0 20 4
  | .own => wordBits d.w0 24 1
  | .count => d.w1.toNat
  | .daddr => d.w2.toNat
  | .dbyte => d.w3.toNat
  | .dcap => d.w4.toNat
  | .saddr => d.w5.toNat
  | .sbyte => d.w6.toNat
  | .scap => d.w7.toNat

/-- Why a decoding fails, by name. -/
inductive Reject where
  /-- `OP` is 0x00 or 0x09 to 0xFF and selects no command (R90); the engine answers `IllegalCommand`. -/
  | illegalOp (op : Nat)
  /-- A byte sequence that is not the 32 bytes of a descriptor (R80, R83, R93): no such thing reaches the command
  port, which takes eight words; the engine has no behaviour for it (log 19). -/
  | badLength (bytes : Nat)
  deriving DecidableEq, Repr

/-- Decoding looks at `W0[7:0]` only; the command then takes the fields of its format and ignores the others
(R84, R85, R87). -/
def decode (d : Descriptor) : Except Reject Instr :=
  match d.get .op with
  | 1 => .ok (.copyBits (d.get .daddr) (d.get .dbyte) (d.get .dbit) (d.get .dcap) (d.get .saddr) (d.get .sbyte)
      (d.get .sbit) (d.get .scap) (d.get .count))
  | 2 => .ok (.createOwned (d.get .dcap))
  | 3 => .ok (.wrapBuffer (d.get .daddr) (d.get .dcap) (d.get .own == 1))
  | 4 => .ok (.writeBits (d.get .qh) (d.get .saddr) (d.get .scap) (d.get .count))
  | 5 => .ok (.readBits (d.get .qh) (d.get .daddr) (d.get .dcap) (d.get .count))
  | 6 => .ok (.hasSpace (d.get .qh) (d.get .count))
  | 7 => .ok (.hasData (d.get .qh) (d.get .count))
  | 8 => .ok (.destroy (d.get .qh))
  | op => .error (.illegalOp op)

/-- The word whose little-endian bytes are `b0 b1 b2 b3` (R83). -/
def wordOfBytes (b0 b1 b2 b3 : Byte) : Word :=
  BitVec.ofNat 32 (b0.toNat + b1.toNat * 2 ^ 8 + b2.toNat * 2 ^ 16 + b3.toNat * 2 ^ 24)

/-- The little-endian bytes of a word: byte `k` holds bits `8k+7 : 8k` (R83). -/
def bytesOfWord (w : Word) : List Byte :=
  [BitVec.ofNat 8 (wordBits w 0 8), BitVec.ofNat 8 (wordBits w 8 8), BitVec.ofNat 8 (wordBits w 16 8),
    BitVec.ofNat 8 (wordBits w 24 8)]

/-- The words laid out in a byte sequence, four bytes each; bytes left over are dropped (the length is checked by
`decodeBytes`). -/
def wordsOfBytes : List Byte → List Word
  | b0 :: b1 :: b2 :: b3 :: rest => wordOfBytes b0 b1 b2 b3 :: wordsOfBytes rest
  | _ => []

/-- The 32 bytes of a descriptor: word `Wk` at bytes `4k` to `4k+3` (R83). -/
def Descriptor.bytes (d : Descriptor) : List Byte :=
  bytesOfWord d.w0 ++ bytesOfWord d.w1 ++ bytesOfWord d.w2 ++ bytesOfWord d.w3 ++ bytesOfWord d.w4 ++
    bytesOfWord d.w5 ++ bytesOfWord d.w6 ++ bytesOfWord d.w7

/-- Decoding of a byte sequence, total: exactly 32 bytes are a descriptor (R80, R93). -/
def decodeBytes (bs : List Byte) : Except Reject Instr :=
  if bs.length = 32 then
    match wordsOfBytes bs with
    | [w0, w1, w2, w3, w4, w5, w6, w7] => decode ⟨w0, w1, w2, w3, w4, w5, w6, w7⟩
    | _ => .error (.badLength bs.length)
  else .error (.badLength bs.length)

/-! ## The encoder -/

/-- `OP` of a command (R85). -/
def Instr.opcode : Instr → Nat
  | .copyBits .. => 1
  | .createOwned .. => 2
  | .wrapBuffer .. => 3
  | .writeBits .. => 4
  | .readBits .. => 5
  | .hasSpace .. => 6
  | .hasData .. => 7
  | .destroy .. => 8

/-- `W0` from its fields, the reserved bits 0 (R81, R87). -/
def packHeader (op qh dbit sbit own : Nat) : Word :=
  BitVec.ofNat 32 (op + qh * 2 ^ 8 + dbit * 2 ^ 16 + sbit * 2 ^ 20 + own * 2 ^ 24)

/-- `W1` to `W7` carry one field each (R82); the arguments follow `W0`, `COUNT`, `DADDR`, `DBYTE`, `DCAP`, `SADDR`,
`SBYTE`, `SCAP`. -/
def packWords (w0 : Word) (count daddr dbyte dcap saddr sbyte scap : Nat) : Descriptor :=
  ⟨w0, BitVec.ofNat 32 count, BitVec.ofNat 32 daddr, BitVec.ofNat 32 dbyte, BitVec.ofNat 32 dcap,
    BitVec.ofNat 32 saddr, BitVec.ofNat 32 sbyte, BitVec.ofNat 32 scap⟩

/-- The descriptor an assembler writes for a command: a field the command does not use is 0 (R84, R87, R94). -/
def encode : Instr → Descriptor
  | .copyBits daddr dbyte dbit dcap saddr sbyte sbit scap count =>
    packWords (packHeader 1 0 dbit sbit 0) count daddr dbyte dcap saddr sbyte scap
  | .createOwned dcap => packWords (packHeader 2 0 0 0 0) 0 0 0 dcap 0 0 0
  | .wrapBuffer daddr dcap own => packWords (packHeader 3 0 0 0 own.toNat) 0 daddr 0 dcap 0 0 0
  | .writeBits qh saddr scap count => packWords (packHeader 4 qh 0 0 0) count 0 0 0 saddr 0 scap
  | .readBits qh daddr dcap count => packWords (packHeader 5 qh 0 0 0) count daddr 0 dcap 0 0 0
  | .hasSpace qh count => packWords (packHeader 6 qh 0 0 0) count 0 0 0 0 0 0
  | .hasData qh count => packWords (packHeader 7 qh 0 0 0) count 0 0 0 0 0 0
  | .destroy qh => packWords (packHeader 8 qh 0 0 0) 0 0 0 0 0 0 0

/-- The fields each command uses besides `OP`, by opcode: the table of R84. A number that is no opcode uses none. -/
def fieldsUsed : Nat → List Field
  | 1 => [.daddr, .dbyte, .dbit, .dcap, .saddr, .sbyte, .sbit, .scap, .count]
  | 2 => [.dcap]
  | 3 => [.daddr, .dcap, .own]
  | 4 => [.qh, .saddr, .scap, .count]
  | 5 => [.qh, .daddr, .dcap, .count]
  | 6 => [.qh, .count]
  | 7 => [.qh, .count]
  | 8 => [.qh]
  | _ => []

/-! ## Words numbered as the opcode table numbers them -/

/-- The descriptor whose 256 bits are `w`, bit 0 the least significant bit of `W0` and `Wk` at bits `32k+31 : 32k`. -/
def Descriptor.ofNat (w : Nat) : Descriptor :=
  ⟨BitVec.ofNat 32 w, BitVec.ofNat 32 (w / 2 ^ 32), BitVec.ofNat 32 (w / 2 ^ 64), BitVec.ofNat 32 (w / 2 ^ 96),
    BitVec.ofNat 32 (w / 2 ^ 128), BitVec.ofNat 32 (w / 2 ^ 160), BitVec.ofNat 32 (w / 2 ^ 192),
    BitVec.ofNat 32 (w / 2 ^ 224)⟩

/-- What the decoder reads from a table row's word: bits at and above `nbits` are 0, the words are laid out as bytes
(R83) and given to the byte decoder. -/
def decodeTableWord (nbits w : Nat) : Option Instr :=
  (decodeBytes (Descriptor.ofNat (w % 2 ^ nbits)).bytes).toOption

end Sys2Proof
end

