-- ==== Sys2Proof/Machine/State.lean ====
section
/-! DEFINITION. The state of the block and of the memory it reaches (10_state R20 to R36), the response register, the
host's pending actions, the reasons a step can stop, and the state after reset (70_reset R211 to R213). -/

namespace Sys2Proof.Machine

/-! ## Responses -/

/-- The outcome a response reports: `OK` and the six error kinds (30_encoding R92, 60_exceptions R180). -/
inductive Status where
  | ok
  /-- Absent reference, zero-length request, malformed offset, dead context (R181). -/
  | invalidArgument
  /-- The request exceeds the ring's total capacity (R182). -/
  | messageTooLarge
  /-- The fill level does not allow the transfer now; alias `Retry` (R183). -/
  | wouldBlock
  /-- A constructor found no free context or too little private RAM (R184). -/
  | allocationFailure
  /-- The primitive's destination cannot hold the bits asked for (R185). -/
  | insufficientSpace
  /-- `OP` names no command (R186); the spec's own kind. -/
  | illegalCommand
  deriving DecidableEq, Repr

/-- A response descriptor (30_encoding R91); a field its command does not name is 0, and so are the reserved bits. -/
structure Response where
  /-- `STATUS`, `R0[7:0]`. -/
  status : Status := .ok
  /-- `QH`, `R0[15:8]`: the handle of a new queue. -/
  qh : Nat := 0
  /-- `FLAG`, `R0[16]`: the answer of a query. -/
  flag : Bool := false
  /-- `REL`, `R0[17]`: a buffer goes back to the host. -/
  rel : Bool := false
  /-- `COUNT`, `R1`: bits moved. -/
  count : Nat := 0
  deriving DecidableEq, Repr

/-! ## Queue contexts and memories -/

/-- One queue context `ctx[h]` (10_state R21 to R28). -/
structure Ctx where
  /-- `LIVE`, 1 bit: the context has a backing buffer (R22). -/
  live : Bool
  /-- `OWNED`, 1 bit: the queue owns its buffer (R23). -/
  owned : Bool
  /-- `BUF_INT`, 1 bit: the buffer is the private RAM `P[h]`, else it is in `M` (R22). -/
  bufInt : Bool
  /-- `BUF_BASE`, 32 bits: address in `M` of byte 0 of an external buffer (R22). -/
  bufBase : Nat
  /-- `BUF_SIZE`, 32 bits: capacity in bytes (R21). -/
  bufSize : Nat
  /-- `WR_BYTE`, 32 bits: byte offset of the write cursor (R24). -/
  wrByte : Nat
  /-- `WR_BIT`, 3 bits: bit offset of the write cursor (R25). -/
  wrBit : Nat
  /-- `RD_BYTE`, 32 bits: byte offset of the read cursor (R26). -/
  rdByte : Nat
  /-- `RD_BIT`, 3 bits: bit offset of the read cursor (R27). -/
  rdBit : Nat
  /-- `VALID_BITS`, 36 bits: unread bits held (R28). -/
  validBits : Nat
  deriving DecidableEq, Repr

/-- A context after reset and after `DESTROY`: every field 0 (R40, R211). -/
def Ctx.reset : Ctx where
  live := false
  owned := false
  bufInt := false
  bufBase := 0
  bufSize := 0
  wrByte := 0
  wrBit := 0
  rdByte := 0
  rdBit := 0
  validBits := 0

/-- A byte memory as data: address and byte pairs, addresses strictly rising, no byte equal to what an unlisted
address reads as (`Memory.wf` in Ops). -/
abbrev Memory := List Host.Cell

/-- What an address that no pair lists reads as, in `M` and in every private RAM. The spec gives no reset content
(R212, R213). DESIGN CHOICE, unsafe for a claim about a machine just reset (logs 5, 6). -/
def unlistedByte : Byte := 0#8

/-- One of the `NQ` queue contexts with its private RAM `P[h]` (R20, R34). -/
structure Queue where
  ctx : Ctx
  ram : Memory
  deriving DecidableEq, Repr

/-- A queue context and its private RAM after reset (R211, R212; log 6 for the RAM). -/
def Queue.reset : Queue := ⟨Ctx.reset, []⟩

/-! ## The host's side -/

/-- What the host or the platform can do to the block between two commands. -/
inductive HostEvent where
  /-- The host presents a descriptor on the command port (R7, R80). -/
  | command (d : Descriptor)
  /-- The host writes one byte of `M` (R35, R69). -/
  | memWrite (addr : Nat) (v : Byte)
  /-- The reset of the whole block (R210). -/
  | reset
  deriving DecidableEq, Repr

/-- The whole state: the block's parameters, its `NQ` contexts with their RAMs, the memory `M`, the response register
and, as the model's own field, what the host does next (log 1). -/
structure State where
  /-- `POOL_BYTES` and `PRECLEAR_ON_WRITE` (R8, log 4). -/
  params : Params
  /-- `ctx[1] .. ctx[NQ]` with `P[1] .. P[NQ]`; the length of the list is `NQ` (R20, R34). -/
  queues : List Queue
  /-- The external memory `M` (R35). -/
  mem : Memory
  /-- `RESP`, the response of the last command (R36, log 3). -/
  resp : Response
  /-- The host's next actions, oldest first (log 1). -/
  host : List HostEvent
  deriving DecidableEq, Repr

/-! ## Reasons to stop -/

/-- The machine stops with a fault. The spec has no machine stop of its own. -/
inductive Fault where
  /-- A queue command on a context with `BUF_INT = 1` and `BUF_SIZE > POOL_BYTES` would index `P[h]` where it has no
  byte; R52 says no rule does. Raised by `WRITE_BITS` and `READ_BITS` in states no run reaches. Safe (log 7). -/
  | ringOutsideRam
  deriving DecidableEq, Repr

/-- A command has no meaning in the model. -/
inductive Refusal where
  /-- An instruction whose meaning is not written yet; raised by `exec`'s refused arms, of which there is none. Safe. -/
  | notModelled (mnemonic : String)
  deriving DecidableEq, Repr

/-! ## Reset -/

/-- The machine right after reset: the default parameters (log 4), every context as R211 says, private RAMs and `M`
with nothing listed (logs 5, 6), RESP 0 (log 3), and a host that has asked nothing yet (log 1). -/
def State.reset : State where
  params := Config.defaultParams
  queues := List.replicate Config.defaultNQ Queue.reset
  mem := []
  resp := {}
  host := []

end Sys2Proof.Machine
end

