-- ==== Sys2Proof/Machine/Ops.lean ====
section
/-! DEFINITION. The named operations over memory and registers: reading and writing one byte of a memory, the
accessors of contexts and private RAMs (00_scope R12), and the two ways a command ends, `respond` and `raise` (R14),
the second of which is all the exception entry the block has (60_exceptions R194). -/

namespace Sys2Proof.Machine

/-- The outcome of a step or of a meaning. -/
abbrev Result := Host.Outcome State Fault Refusal

/-! ## One memory -/

/-- The byte at an address. -/
def Memory.read : Memory → Nat → Byte
  | [], _ => unlistedByte
  | (b, w) :: rest, a => if b = a then w else Memory.read rest a

/-- The memory without its pair for `a`. -/
def Memory.erase (m : Memory) (a : Nat) : Memory := m.filter fun c => c.1 ≠ a

/-- The memory with the pair `(a, v)` put in its place, before the first larger address. -/
def Memory.insert : Memory → Nat → Byte → Memory
  | [], a, v => [(a, v)]
  | (b, w) :: rest, a, v => if a < b then (a, v) :: (b, w) :: rest else (b, w) :: Memory.insert rest a v

/-- Replace the byte at an address; writing what an unlisted address reads as removes the pair. -/
def Memory.write (m : Memory) (a : Nat) (v : Byte) : Memory :=
  if v = unlistedByte then Memory.erase m a else Memory.insert (Memory.erase m a) a v

/-- Bytes `0 .. n - 1` zeroed, the loop of `CREATE_OWNED` line 4 at once (R141; `Memory.read_zeroBelow` in Laws says
what each byte then reads; log 16). -/
def Memory.zeroBelow (m : Memory) (n : Nat) : Memory := m.filter fun c => n ≤ c.1

/-- The canonical form: addresses strictly rising and no byte equal to what an unlisted address reads as. -/
abbrev Memory.wf (m : Memory) : Prop :=
  m.Pairwise (fun c d => c.1 < d.1) ∧ ∀ c ∈ m, c.2 ≠ unlistedByte

/-- Every listed address is below `n`. -/
abbrev Memory.within (m : Memory) (n : Nat) : Prop := ∀ c ∈ m, c.1 < n

/-! ## Contexts and private RAMs by handle -/

/-- `NQ` (R8, R20). -/
def State.nq (s : State) : Nat := s.queues.length

/-- Context `h` with its RAM. A handle that names none (0, or above `NQ`) gives a context as after reset; no command
uses it (R89; log 17). -/
def State.queue (s : State) : Nat → Queue
  | 0 => Queue.reset
  | k + 1 => s.queues.getD k Queue.reset

/-- `ctx[h]` (R12). -/
def State.ctx (s : State) (h : Nat) : Ctx := (s.queue h).ctx

/-- `P[h]` (R12). -/
def State.ram (s : State) (h : Nat) : Memory := (s.queue h).ram

/-- Change context `h` or its RAM; a handle that names none changes nothing. -/
def State.modifyQueue (s : State) (h : Nat) (f : Queue → Queue) : State :=
  match h with
  | 0 => s
  | k + 1 => { s with queues := s.queues.modify k f }

/-- `ctx[h].F <- v` for the fields `f` changes (R12). -/
def State.modifyCtx (s : State) (h : Nat) (f : Ctx → Ctx) : State :=
  s.modifyQueue h fun q => { q with ctx := f q.ctx }

/-- Change `P[h]` (R12). -/
def State.modifyRam (s : State) (h : Nat) (f : Memory → Memory) : State :=
  s.modifyQueue h fun q => { q with ram := f q.ram }

/-! ## One byte of the state -/

/-- Where a byte lives: in `M` at an address below `2^AW`, or in the private RAM of a context (20_memory R50). -/
inductive Loc where
  | mem (addr : Nat)
  | ram (h i : Nat)
  deriving DecidableEq, Repr

/-- `MemRead` and `P[h][i]` (R12, R51, R52): a plain read. -/
def State.readLoc (s : State) : Loc → Byte
  | .mem a => s.mem.read a
  | .ram h i => (s.ram h).read i

/-- `MemWrite` and `P[h][i] <- v` (R12, R51, R52): a plain write. -/
def State.writeLoc (s : State) (l : Loc) (v : Byte) : State :=
  match l with
  | .mem a => { s with mem := s.mem.write a v }
  | .ram h i => s.modifyRam h fun m => m.write i v

/-- The location of `M` that an address names, taken `mod 2^AW` (R12). -/
def memLoc (addr : Nat) : Loc := .mem (addr % 2 ^ AW)

/-! ## The end of a command -/

/-- The command ends with this response; the engine is ready for the next (R14, R36). -/
def respond (r : Response) (s : State) : Result := .next { s with resp := r }

/-- `raise K`: the error response, every other field zero, and nothing else changed. It is no trap: nothing is saved
and there is nothing to return from (R14, R187, R194, R196). -/
def raise (k : Status) (s : State) : Result := respond { status := k } s

/-- `raise K with COUNT = moved`, a failure inside a transfer loop (R156). -/
def raiseAfter (k : Status) (moved : Nat) (s : State) : Result := respond { status := k, count := moved } s

end Sys2Proof.Machine
end

