-- ==== Sys2Proof/Machine/Operands.lean ====
section
/-! DEFINITION. Every operand form the spec gives: absent references (30_encoding R88, R89), buffer designators and
their bytes (00_scope R13, 20_memory R57), bit positions (R11), the choice of a free context (41_construction R140). -/

namespace Sys2Proof.Machine

/-- A buffer designator (R13): a buffer of `M` from an address, or the private RAM of a context. -/
inductive Buf where
  | ext (a : Nat)
  | int (h : Nat)
  deriving DecidableEq, Repr

/-- Where byte `i` of a buffer is (R13, R57): addresses wrap at the top of `M`. -/
def Buf.loc : Buf → Nat → Loc
  | .ext a, i => memLoc (a + i)
  | .int h, i => .ram h i

/-- `BufRead` (R13). -/
def bufRead (s : State) (B : Buf) (i : Nat) : Byte := s.readLoc (B.loc i)

/-- `BufWrite` (R13). -/
def bufWrite (s : State) (B : Buf) (i : Nat) (v : Byte) : State := s.writeLoc (B.loc i) v

/-- `BitAt`: logical bit `p` of a buffer is bit `p mod 8` of its byte `p div 8` (R11, R55). -/
def bitAt (s : State) (B : Buf) (p : Nat) : Bool := (bufRead s B (p / 8)).getLsbD (p % 8)

/-- The linear form of a bit position (R11). -/
def linear (byte bit : Nat) : Nat := byte * 8 + bit

/-- `QBuf(h)`: the ring of context `h` (R13). -/
def State.qbuf (s : State) (h : Nat) : Buf :=
  if (s.ctx h).bufInt then .int h else .ext (s.ctx h).bufBase

/-- A buffer reference is absent when its address is 0 (R88). -/
abbrev bufAbsent (addr : Nat) : Prop := addr = 0

/-- `QPresent` (R89). -/
abbrev State.qPresent (s : State) (qh : Nat) : Prop := 1 ≤ qh ∧ qh ≤ s.nq

/-- `CAP(h)`: the capacity in bits (R21). -/
def Ctx.cap (c : Ctx) : Nat := c.bufSize * 8

/-- The write cursor as a linear position (R11, R24, R25). -/
def Ctx.wrPos (c : Ctx) : Nat := linear c.wrByte c.wrBit

/-- The read cursor as a linear position (R11, R26, R27). -/
def Ctx.rdPos (c : Ctx) : Nat := linear c.rdByte c.rdBit

/-- `FreeHandle()`: the least handle of a context with `LIVE = 0`, or 0 (R140). -/
def State.freeHandle (s : State) : Nat :=
  match s.queues.findIdx? fun q => !q.ctx.live with
  | some k => k + 1
  | none => 0

/-- The ring of context `h` is said to be in a private RAM too small for it, so that an index of it could fall where
`P[h]` has no byte (R52; log 7). -/
abbrev State.ringOutsideRam (s : State) (h : Nat) : Prop :=
  (s.ctx h).bufInt = true ∧ s.params.poolBytes < (s.ctx h).bufSize

end Sys2Proof.Machine
end

