-- ==== Sys2Proof/Machine/Flags.lean ====
section
/-! DEFINITION. Every flag and code a response carries: the `FLAG` of the two queries, which is also the transfers' own
test (43_capacity R170 to R172), `REL` (44_destruction R176), the `STATUS` numbers (30_encoding R92) and the two
response words (R91). -/

namespace Sys2Proof.Machine

/-- `BUF_SIZE * 8 - VALID_BITS >= COUNT`, an exact difference (R170, R9). -/
def Ctx.hasSpace (c : Ctx) (count : Nat) : Bool := decide ((c.cap : Int) - c.validBits ≥ count)

/-- `VALID_BITS >= COUNT` (R171). -/
def Ctx.hasData (c : Ctx) (count : Nat) : Bool := decide (c.validBits ≥ count)

/-- `REL`: an owned buffer that lies in `M` goes back to the host (R176). -/
def Ctx.release (c : Ctx) : Bool := c.owned && !c.bufInt

/-- The `STATUS` numbers (R92). -/
def Status.code : Status → Nat
  | .ok => 0
  | .invalidArgument => 1
  | .messageTooLarge => 2
  | .wouldBlock => 3
  | .allocationFailure => 4
  | .insufficientSpace => 5
  | .illegalCommand => 6

/-- `R0`: `STATUS`, `QH`, `FLAG`, `REL`, and zeros in `R0[31:18]` (R91). -/
def Response.r0 (r : Response) : Word :=
  BitVec.ofNat 32 (r.status.code + r.qh % 2 ^ 8 * 2 ^ 8 + r.flag.toNat * 2 ^ 16 + r.rel.toNat * 2 ^ 17)

/-- `R1`: `COUNT` (R91). -/
def Response.r1 (r : Response) : Word := BitVec.ofNat 32 r.count

end Sys2Proof.Machine
end

