-- ==== Sys2Proof/Machine/Capacity.lean ====
section
/-! DEFINITION. The capacity queries `HAS_SPACE` and `HAS_DATA` (43_capacity R170, R171). -/

namespace Sys2Proof.Machine

/-- A query: the two checks both queries make, then the answer as `FLAG` (R170, R171). -/
def query (qh : Nat) (answer : Ctx → Bool) (s : State) : Result :=
  if ¬ s.qPresent qh then raise .invalidArgument s
  else if (s.ctx qh).live = false then raise .invalidArgument s
  else respond { flag := answer (s.ctx qh) } s

/-- `HAS_SPACE` (R170). -/
def execHasSpace (qh count : Nat) (s : State) : Result := query qh (fun c => c.hasSpace count) s

/-- `HAS_DATA` (R171). -/
def execHasData (qh count : Nat) (s : State) : Result := query qh (fun c => c.hasData count) s

end Sys2Proof.Machine
end

