-- ==== Sys2Proof/Machine/Construction.lean ====
section
/-! DEFINITION. The constructors `CREATE_OWNED` and `WRAP_BUFFER` (41_construction R140 to R142). -/

namespace Sys2Proof.Machine

/-- The context `CREATE_OWNED` leaves: an empty ring of `n` bytes in the private RAM (R141 lines 5 to 8, R40). -/
def Ctx.created (n : Nat) : Ctx where
  live := true
  owned := true
  bufInt := true
  bufBase := 0
  bufSize := n
  wrByte := 0
  wrBit := 0
  rdByte := 0
  rdBit := 0
  validBits := 0

/-- The context `WRAP_BUFFER` leaves: a full ring of `n` bytes at address `a` of `M` (R142 lines 4 to 7, R40). -/
def Ctx.wrapped (a n : Nat) (own : Bool) : Ctx where
  live := true
  owned := own
  bufInt := false
  bufBase := a
  bufSize := n
  wrByte := 0
  wrBit := 0
  rdByte := 0
  rdBit := 0
  validBits := n * 8

/-- `CREATE_OWNED` (R141). -/
def execCreateOwned (dcap : Nat) (s : State) : Result :=
  if dcap = 0 then raise .invalidArgument s
  else
    let h := s.freeHandle
    if h = 0 ∨ dcap > s.params.poolBytes then raise .allocationFailure s
    else
      let s := s.modifyRam h fun m => m.zeroBelow dcap
      let s := s.modifyCtx h fun _ => Ctx.created dcap
      respond { qh := h } s

/-- `WRAP_BUFFER` (R142). -/
def execWrapBuffer (daddr dcap : Nat) (own : Bool) (s : State) : Result :=
  if bufAbsent daddr ∨ dcap = 0 then raise .invalidArgument s
  else
    let h := s.freeHandle
    if h = 0 then raise .allocationFailure s
    else respond { qh := h } (s.modifyCtx h fun _ => Ctx.wrapped daddr dcap own)

end Sys2Proof.Machine
end

