-- ==== Sys2Proof/Machine/Destruction.lean ====
section
/-! DEFINITION. `DESTROY` (44_destruction R175 to R177). -/

namespace Sys2Proof.Machine

/-- `DESTROY` (R175): the context goes back to its reset value, `P[h]` and `M` stay as they are. -/
def execDestroy (qh : Nat) (s : State) : Result :=
  if ¬ s.qPresent qh then raise .invalidArgument s
  else if (s.ctx qh).live = false then raise .invalidArgument s
  else
    let rel := (s.ctx qh).release
    respond { rel := rel } (s.modifyCtx qh fun _ => Ctx.reset)

end Sys2Proof.Machine
end

