-- ==== Sys2Proof/Machine/Transfer.lean ====
section
/-! DEFINITION. The transfer primitive `CopyBits` (40_transfer R110 to R121), its helpers `Advance` (R122) and
`ClearBits` (R123), and the command `COPY_BITS` (R127).

A position inside the loops is kept in its linear form (R11), so that the roll-over to the next byte of lines 16 and
17 is the carry of the addition; and since neither the tests nor the run lengths depend on data, the loop of lines 10
to 17 is written as the list of its runs, performed in order (log 15). -/

namespace Sys2Proof.Machine

/-- The result of the primitive (00_scope R15). -/
inductive CopyResult where
  | transferred (k : Nat)
  | err (k : Status)
  deriving DecidableEq, Repr

/-- One run of the algorithm: `len` bits from source position `src` to destination position `dst` (R120). -/
structure Run where
  dst : Nat
  src : Nat
  len : Nat
  deriving DecidableEq, Repr

/-- The length of the next run: up to the nearer byte boundary of the two sides, and no more than remains (R120). -/
def runLength (dst src rem : Nat) : Nat := min (8 - dst % 8) (min (8 - src % 8) rem)

/-- The runs of a copy of `rem` bits, in order (R120 lines 9 to 17). `fuel` bounds the number of runs; `rem` is always
enough, since every run moves at least one bit (R125). -/
def copyRuns : (fuel dst src rem : Nat) → List Run
  | 0, _, _, _ => []
  | fuel + 1, dst, src, rem =>
    if rem = 0 then []
    else
      let run := runLength dst src rem
      ⟨dst, src, run⟩ :: copyRuns fuel (dst + run) (src + run) (rem - run)

/-- A byte with its low `len` bits set, `2^len - 1` (R120 line 12). -/
def lowMask (len : Nat) : Byte := BitVec.ofNat 8 (2 ^ len - 1)

/-- One run: read the source byte, read the destination byte, write it with the run OR-ed in (R120 lines 12 to 14). -/
def copyRun (D S : Buf) (s : State) (r : Run) : State :=
  let v := (bufRead s S (r.src / 8) >>> (r.src % 8)) &&& lowMask r.len
  bufWrite s D (r.dst / 8) (bufRead s D (r.dst / 8) ||| (v <<< (r.dst % 8)))

/-- Lines 1 to 8 of the primitive: the preconditions (R113), the room of the destination (R116) and the clipping to
what the source can supply (R117), in this order (R115). The differences are integers. -/
def copyPlan (dbyte dbit dcap sbyte sbit scap n : Nat) : CopyResult :=
  if n = 0 then .err .invalidArgument
  else if dbyte > dcap ∨ sbyte > scap then .err .invalidArgument
  else if dbit ≥ 8 ∨ sbit ≥ 8 then .err .invalidArgument
  else if n > scap * 8 then .err .invalidArgument
  else
    let droom : Int := ((dcap : Int) - dbyte) * 8 - dbit
    if droom < n then .err .insufficientSpace
    else
      let savail : Int := ((scap : Int) - sbyte) * 8 - sbit
      .transferred (min n (max savail 0).toNat)

/-- `CopyBits` (R110 to R121): the result, and the state with the bits moved. On an error nothing is touched. -/
def copyBits (D : Buf) (dbyte dbit dcap : Nat) (S : Buf) (sbyte sbit scap n : Nat) (s : State) :
    CopyResult × State :=
  match copyPlan dbyte dbit dcap sbyte sbit scap n with
  | .err k => (.err k, s)
  | .transferred m =>
    (.transferred m, (copyRuns m (linear dbyte dbit) (linear sbyte sbit) m).foldl (copyRun D S) s)

/-- `Advance`: move a cursor forward in a buffer of `size` bytes and wrap it at the end (R122). -/
def advance (byte bit k size : Nat) : Nat × Nat :=
  let t := linear byte bit + k
  if t / 8 = size then (0, 0) else (t / 8, t % 8)

/-- The runs of a clear of `k` bits from position `p`, as pairs of a position and a length (R123). -/
def clearRuns : (fuel p k : Nat) → List (Nat × Nat)
  | 0, _, _ => []
  | fuel + 1, p, k =>
    if k = 0 then []
    else
      let run := min (8 - p % 8) k
      (p, run) :: clearRuns fuel (p + run) (k - run)

/-- One run of a clear: the byte is written with the run's bits 0 (R123). -/
def clearRun (B : Buf) (s : State) (r : Nat × Nat) : State :=
  bufWrite s B (r.1 / 8) (bufRead s B (r.1 / 8) &&& ~~~(lowMask r.2 <<< (r.1 % 8)))

/-- `ClearBits` (R123). -/
def clearBits (B : Buf) (byte bit k : Nat) (s : State) : State :=
  (clearRuns k (linear byte bit) k).foldl (clearRun B) s

/-- `COPY_BITS` (R127). -/
def execCopyBits (daddr dbyte dbit dcap saddr sbyte sbit scap count : Nat) (s : State) : Result :=
  if bufAbsent daddr ∨ bufAbsent saddr then raise .invalidArgument s
  else
    match copyBits (.ext daddr) dbyte dbit dcap (.ext saddr) sbyte sbit scap count s with
    | (.err k, s') => raise k s'
    | (.transferred k, s') => respond { count := k } s'

end Sys2Proof.Machine
end

