-- ==== Sys2Proof/Machine/WriteRead.lean ====
section
/-! DEFINITION. `WRITE_BITS` and `READ_BITS` (42_write_read R150 to R167): the checks in their order, then the loop of
invocations of the primitive with the cursor and the count updated after each. The branches R156 and R167 that no
reachable state takes are kept (93_implementation_defined U12). -/

namespace Sys2Proof.Machine

/-- The write cursor and the count after an invocation that moved `k` bits (R150 lines 17, 18). -/
def Ctx.advanceWrite (k : Nat) (c : Ctx) : Ctx :=
  let p := advance c.wrByte c.wrBit k c.bufSize
  { c with wrByte := p.1, wrBit := p.2, validBits := c.validBits + k }

/-- The read cursor and the count after an invocation that moved `k` bits (R160 lines 14, 15). -/
def Ctx.advanceRead (k : Nat) (c : Ctx) : Ctx :=
  let p := advance c.rdByte c.rdBit k c.bufSize
  { c with rdByte := p.1, rdBit := p.2, validBits := c.validBits - k }

/-- The count `WRITE_BITS` gives the primitive: no more than the room up to the end of the ring (R150 lines 9 to 11,
R153). The room is an integer, at least 1 in every reachable state; below 0 it counts as 0 (log 18). -/
def Ctx.writeChunk (c : Ctx) (rem : Nat) : Nat :=
  let room : Int := ((c.bufSize : Int) - c.wrByte) * 8 - c.wrBit
  (min (rem : Int) room).toNat

/-- The pre-clear of `WRITE_BITS` line 12 (R154). -/
def preclear (h chunk : Nat) (s : State) : State :=
  if s.params.preclearOnWrite then clearBits (s.qbuf h) (s.ctx h).wrByte (s.ctx h).wrBit chunk s else s

/-- One invocation of `WRITE_BITS`, from the source position `moved` (R150 lines 9 to 13). From a sound context it
transfers its whole chunk (R157 (a)). -/
def writeInvocation (h saddr scap count moved : Nat) (s : State) : CopyResult × State :=
  let c := s.ctx h
  let chunk := c.writeChunk (count - moved)
  copyBits (s.qbuf h) c.wrByte c.wrBit c.bufSize (.ext saddr) (moved / 8) (moved % 8) scap chunk
    (preclear h chunk s)

/-- The loop of `WRITE_BITS` (R150 lines 8 to 20, R152). `fuel` bounds the number of invocations; `count` is always
enough, since every invocation that goes on has moved a bit. From a sound context there are at most two (R157 (b)), and
the branches of a failure and of no progress are dead (R157 (c)). -/
def writeLoop (h saddr scap count : Nat) : (fuel moved : Nat) → State → Result
  | 0, moved, s => respond { count := moved } s
  | fuel + 1, moved, s =>
    if moved < count then
      match writeInvocation h saddr scap count moved s with
      | (.err k, s) => raiseAfter k moved s
      | (.transferred k, s) =>
        if k = 0 then respond { count := moved } s
        else writeLoop h saddr scap count fuel (moved + k) (s.modifyCtx h (Ctx.advanceWrite k))
    else respond { count := moved } s

/-- `WRITE_BITS` (R150, R151). -/
def execWriteBits (qh saddr scap count : Nat) (s : State) : Result :=
  if ¬ s.qPresent qh ∨ bufAbsent saddr then raise .invalidArgument s
  else if count = 0 then raise .invalidArgument s
  else if scap * 8 < count then raise .invalidArgument s
  else if (s.ctx qh).live = false then raise .invalidArgument s
  else if count > (s.ctx qh).cap then raise .messageTooLarge s
  else if (s.ctx qh).hasSpace count = false then raise .wouldBlock s
  else if s.ringOutsideRam qh then .fault .ringOutsideRam
  else writeLoop qh saddr scap count count 0 s

/-- One invocation of `READ_BITS`, to the destination position `moved` (R160 lines 9, 10, R162). From a sound context it
transfers the lesser of the remainder and what the ring holds up to its end (R164 (a)). -/
def readInvocation (h daddr dcap count moved : Nat) (s : State) : CopyResult × State :=
  let c := s.ctx h
  copyBits (.ext daddr) (moved / 8) (moved % 8) dcap (s.qbuf h) c.rdByte c.rdBit c.bufSize (count - moved) s

/-- The loop of `READ_BITS` (R160 lines 8 to 17, R162). From a sound context it makes at most two invocations, and the
branches of a failure and of no progress are dead (R164 (b), (c)). -/
def readLoop (h daddr dcap count : Nat) : (fuel moved : Nat) → State → Result
  | 0, moved, s => respond { count := moved } s
  | fuel + 1, moved, s =>
    if moved < count then
      match readInvocation h daddr dcap count moved s with
      | (.err k, s) => raiseAfter k moved s
      | (.transferred k, s) =>
        if k = 0 then respond { count := moved } s
        else readLoop h daddr dcap count fuel (moved + k) (s.modifyCtx h (Ctx.advanceRead k))
    else respond { count := moved } s

/-- `READ_BITS` (R160, R161). -/
def execReadBits (qh daddr dcap count : Nat) (s : State) : Result :=
  if ¬ s.qPresent qh ∨ bufAbsent daddr then raise .invalidArgument s
  else if count = 0 then raise .invalidArgument s
  else if dcap * 8 < count then raise .invalidArgument s
  else if (s.ctx qh).live = false then raise .invalidArgument s
  else if count > (s.ctx qh).cap then raise .messageTooLarge s
  else if (s.ctx qh).hasData count = false then raise .wouldBlock s
  else if s.ringOutsideRam qh then .fault .ringOutsideRam
  else readLoop qh daddr dcap count count 0 s

end Sys2Proof.Machine
end

