-- ==== Sys2Proof/Machine/Dispatch.lean ====
section
/-! DEFINITION. The dispatch: one arm per command, one direct call of its meaning. -/

namespace Sys2Proof.Machine

-- One step of the engine on one command (00_scope R6): the next state holds the response in RESP.
def exec (i : Instr) (s : State) : Host.Outcome State Fault Refusal :=
  match i with
  | .copyBits daddr dbyte dbit dcap saddr sbyte sbit scap count => Sys2Proof.Machine.execCopyBits daddr dbyte dbit dcap saddr sbyte sbit scap count s
  | .createOwned dcap => Sys2Proof.Machine.execCreateOwned dcap s
  | .wrapBuffer daddr dcap own => Sys2Proof.Machine.execWrapBuffer daddr dcap own s
  | .writeBits qh saddr scap count => Sys2Proof.Machine.execWriteBits qh saddr scap count s
  | .readBits qh daddr dcap count => Sys2Proof.Machine.execReadBits qh daddr dcap count s
  | .hasSpace qh count => Sys2Proof.Machine.execHasSpace qh count s
  | .hasData qh count => Sys2Proof.Machine.execHasData qh count s
  | .destroy qh => Sys2Proof.Machine.execDestroy qh s

end Sys2Proof.Machine
end

