-- ==== Sys2Proof/Machine/Port.lean ====
section
/-! DEFINITION. What happens at the block's edge besides a legal command: an illegal one (30_encoding R90), a write of
the host to `M` (20_memory R69), the reset event (70_reset R210 to R213). -/

namespace Sys2Proof.Machine

/-- An `OP` that names no command: the response `IllegalCommand`, nothing changed (R90, R186). -/
def illegalCommand (s : State) : Result := raise .illegalCommand s

/-- The host writes a byte of `M` between commands (R69); the address is taken `mod 2^AW` (R12). -/
def hostWrite (addr : Nat) (v : Byte) (s : State) : State := s.writeLoc (memLoc addr) v

/-- Reset of the whole block: every context as R211 says, `M` untouched (R213). What R211 and R212 leave unspecified,
`RESP` and the private RAMs, takes the model's reset values (DESIGN CHOICE, logs 3, 6, 9). -/
def resetBlock (s : State) : State :=
  { s with queues := s.queues.map fun _ => Queue.reset, resp := State.reset.resp }

end Sys2Proof.Machine
end

