-- ==== Sys2Proof/Machine/Step.lean ====
section
/-! DEFINITION. One step of the system: the host's next action. The block has no program counter and fetches nothing
(10_state R38, 20_memory R65); a command descriptor comes by value on the command port (30_encoding R80), which here
is the head of `State.host` (log 1). -/

namespace Sys2Proof.Machine

/-- The engine takes one descriptor: the command it decodes to, or the answer to an illegal one (R6, R90). -/
def runDescriptor (d : Descriptor) (s : State) : Host.Outcome State Fault Refusal :=
  match decode d with
  | .ok i => exec i s
  | .error _ => illegalCommand s

/-- One step: the oldest of the host's pending actions happens and is taken from the list. With none pending nothing
happens: the engine has no step of its own (R7; log 2). -/
def step (s : State) : Host.Outcome State Fault Refusal :=
  match s.host with
  | [] => .next s
  | .command d :: rest => runDescriptor d { s with host := rest }
  | .memWrite addr v :: rest => .next (hostWrite addr v { s with host := rest })
  | .reset :: rest => .next (resetBlock { s with host := rest })

/-- The state in which the very next step runs the descriptor whose low `nbits` bits are those of `w` and whose other
bits are 0: that descriptor stands first on the command port (log 1). -/
def State.withFetchWord (s : State) (nbits w : Nat) : State :=
  { s with host := .command (Descriptor.ofNat (w % 2 ^ nbits)) :: s.host }

end Sys2Proof.Machine
end

