-- ==== Sys2Proof/Safety.lean ====
section
/-! DEFINITION. What a good state is, in the terms claims use: the invariants of a live context (10_state R29, R30,
R33), the dead context (R40), memories in their canonical form and inside their address spaces, and the queue as the
list of its unread bits, oldest first (42_write_read R168). -/

namespace Sys2Proof.Machine

/-- I-bound (R30): both cursors inside the ring. -/
abbrev Ctx.cursorsInRing (c : Ctx) : Prop :=
  c.wrByte < c.bufSize ∧ c.wrBit ≤ 7 ∧ c.rdByte < c.bufSize ∧ c.rdBit ≤ 7

/-- I-dist (R29): the count is the distance from the read to the write cursor around the ring, and 0 or the capacity
when they coincide. -/
abbrev Ctx.countIsDistance (c : Ctx) : Prop :=
  c.validBits ≤ c.cap ∧ (c.validBits : Int) % c.cap = ((c.wrPos : Int) - c.rdPos) % c.cap

/-- A live context in a block with private RAMs of `pool` bytes (R21, R22, R29, R30, R33, R52). -/
abbrev Ctx.liveOk (pool : Nat) (c : Ctx) : Prop :=
  1 ≤ c.bufSize ∧ c.bufSize < 2 ^ SW ∧ c.bufBase < 2 ^ AW ∧ c.cursorsInRing ∧ c.countIsDistance ∧
    (c.bufInt = true → c.bufSize ≤ pool ∧ c.bufBase = 0 ∧ c.owned = true)

/-- A context is either live and sound or in its reset value (R40). -/
abbrev Ctx.ok (pool : Nat) (c : Ctx) : Prop :=
  (c.live = true → c.liveOk pool) ∧ (c.live = false → c = Ctx.reset)

/-- A context is sound and its RAM is canonical and holds only the addresses it has (R34). -/
abbrev Queue.ok (pool : Nat) (q : Queue) : Prop := q.ctx.ok pool ∧ q.ram.wf ∧ q.ram.within pool

/-- The response's fields fit the response descriptor (30_encoding R91). -/
abbrev Response.fitsWords (r : Response) : Prop := r.qh < 2 ^ HW ∧ r.count < 2 ^ CW

/-- The invariant of the whole state: parameters in the ranges of R8, every context and RAM sound, `M` canonical and
inside `2^AW`, the response within its widths. -/
abbrev State.Inv (s : State) : Prop :=
  (1 ≤ s.params.poolBytes ∧ s.params.poolBytes < 2 ^ SW) ∧ (1 ≤ s.nq ∧ s.nq ≤ maxNQ) ∧
    (∀ q ∈ s.queues, q.ok s.params.poolBytes) ∧ s.mem.wf ∧ s.mem.within (2 ^ AW) ∧ s.resp.fitsWords

/-- The state in which R157 speaks of `WRITE_BITS`: lines 1 to 6 of R150 have passed, and the context is sound as it is
in every reachable state (R29, R30, R33). -/
abbrev State.writeReady (s : State) (qh saddr scap count : Nat) : Prop :=
  (s.qPresent qh ∧ ¬ bufAbsent saddr) ∧ 1 ≤ count ∧ count ≤ scap * 8 ∧ (s.ctx qh).live = true ∧
    count ≤ (s.ctx qh).cap ∧ (s.ctx qh).hasSpace count = true ∧ (s.ctx qh).liveOk s.params.poolBytes

/-- The state in which R164 speaks of `READ_BITS`: lines 1 to 6 of R160 have passed, and the context is sound as it is
in every reachable state (R29, R30, R33). -/
abbrev State.readReady (s : State) (qh daddr dcap count : Nat) : Prop :=
  (s.qPresent qh ∧ ¬ bufAbsent daddr) ∧ 1 ≤ count ∧ count ≤ dcap * 8 ∧ (s.ctx qh).live = true ∧
    count ≤ (s.ctx qh).cap ∧ (s.ctx qh).hasData count = true ∧ (s.ctx qh).liveOk s.params.poolBytes

/-- The unread bits of queue `h`, oldest first: the `VALID_BITS` ring bits from the read cursor on, around the ring. -/
def State.unread (s : State) (h : Nat) : List Bool :=
  (List.range (s.ctx h).validBits).map fun j => bitAt s (s.qbuf h) (((s.ctx h).rdPos + j) % (s.ctx h).cap)

/-- The first `n` logical bits of a buffer. -/
def State.bits (s : State) (B : Buf) (n : Nat) : List Bool := (List.range n).map fun j => bitAt s B j

/-! ## Comparing states -/

/-- Bit `b` of the byte at a location. -/
abbrev State.locBit (s : State) (l : Loc) (b : Nat) : Bool := (s.readLoc l).getLsbD b

/-- No byte is both read as source and written as destination by a copy of `m` bits (R124, R126). -/
def NoOverlap (D : Buf) (d : Nat) (S : Buf) (p m : Nat) : Prop :=
  ∀ i < m, ∀ j < m, D.loc ((d + i) / 8) ≠ S.loc ((p + j) / 8)

/-- Two states that differ at most in bytes of private RAMs outside the rings of live owned queues. -/
def SameButUnusedRam (s s' : State) : Prop :=
  s.params = s'.params ∧ s.nq = s'.nq ∧ s.mem = s'.mem ∧ s.resp = s'.resp ∧ s.host = s'.host ∧
    ∀ h, s.ctx h = s'.ctx h ∧
      ((s.ctx h).live = true → (s.ctx h).bufInt = true →
        ∀ i < (s.ctx h).bufSize, (s.ram h).read i = (s'.ram h).read i)

end Sys2Proof.Machine
end

