-- ==== Sys2Proof/Certificates/Slice0/Obligations.lean ====
section
/-! DEFINITION. The statements for the provers: what the rules of the spec say the commands and the block do, over
every state and every operand. -/

open Sys2Proof Sys2Proof.Machine

/-! ## Descriptors -/

/-- 30_encoding R96: the worked encodings, decoded and encoded, and the worked responses. -/
def Obligations.WorkedDescriptorsAndResponses : Prop :=
  (decode ⟨0x00360001, 0x0000000D, 0x00004010, 0x00000001, 0x00000004, 0x00004000, 0x00000000, 0x00000003⟩ =
      .ok (.copyBits 0x4010 1 6 4 0x4000 0 3 3 13) ∧
    encode (.copyBits 0x4010 1 6 4 0x4000 0 3 3 13) =
      ⟨0x00360001, 0x0000000D, 0x00004010, 0x00000001, 0x00000004, 0x00004000, 0x00000000, 0x00000003⟩) ∧
  (decode ⟨0x01000003, 0, 0x00005000, 0, 0x00000002, 0, 0, 0⟩ = .ok (.wrapBuffer 0x5000 2 true) ∧
    encode (.wrapBuffer 0x5000 2 true) = ⟨0x01000003, 0, 0x00005000, 0, 0x00000002, 0, 0, 0⟩) ∧
  (decode ⟨0x00000105, 0x00000005, 0x00002001, 0, 0x00000001, 0, 0, 0⟩ = .ok (.readBits 1 0x2001 1 5) ∧
    encode (.readBits 1 0x2001 1 5) = ⟨0x00000105, 0x00000005, 0x00002001, 0, 0x00000001, 0, 0, 0⟩) ∧
  (Response.r0 { qh := 1 } = 0x00000100 ∧ Response.r1 { qh := 1 } = 0) ∧
  Response.r0 { flag := true } = 0x00010000 ∧ Response.r0 { rel := true } = 0x00020000 ∧
  Response.r0 { status := .wouldBlock } = 0x00000003

/-- 30_encoding R91, R92: the `STATUS` numbers, and where each field of a response stands in its two words, for every
response that fits them. -/
def Obligations.ResponseFieldsStandInTheirBits : Prop :=
  [Status.ok, .invalidArgument, .messageTooLarge, .wouldBlock, .allocationFailure, .insufficientSpace,
    .illegalCommand].map Status.code = [0, 1, 2, 3, 4, 5, 6] ∧
  ∀ r : Response, r.fitsWords →
    wordBits r.r0 0 8 = r.status.code ∧ wordBits r.r0 8 8 = r.qh ∧ wordBits r.r0 16 1 = r.flag.toNat ∧
      wordBits r.r0 17 1 = r.rel.toNat ∧ wordBits r.r0 18 14 = 0 ∧ r.r1.toNat = r.count

/-- 30_encoding R81 to R86: every well-formed command, encoded, decodes to itself, as words and as bytes (R83). -/
def Obligations.EncodedCommandDecodesToItself : Prop :=
  ∀ i : Instr, i.wellFormed = true → decode (encode i) = .ok i ∧ decodeBytes (encode i).bytes = .ok i

/-- 30_encoding R84, R85, R86: what decodes is well formed, and its encoding has the `OP` and the used fields of the
descriptor it came from. -/
def Obligations.DecodedCommandCarriesTheUsedFields : Prop :=
  ∀ (d : Descriptor) (i : Instr), decode d = .ok i →
    i.wellFormed = true ∧ i.opcode = d.get .op ∧ (encode i).get .op = d.get .op ∧
      ∀ f ∈ fieldsUsed (d.get .op), (encode i).get f = d.get f

/-- 30_encoding R85, R84, R86: `OP` selects the command, and each command takes the fields of its format as they stand.
-/
def Obligations.OpcodeSelectsTheCommandAndItsOperands : Prop :=
  ∀ d : Descriptor,
    (d.get .op = 1 → decode d = .ok (.copyBits (d.get .daddr) (d.get .dbyte) (d.get .dbit) (d.get .dcap)
      (d.get .saddr) (d.get .sbyte) (d.get .sbit) (d.get .scap) (d.get .count))) ∧
    (d.get .op = 2 → decode d = .ok (.createOwned (d.get .dcap))) ∧
    (d.get .op = 3 → decode d = .ok (.wrapBuffer (d.get .daddr) (d.get .dcap) (decide (d.get .own = 1)))) ∧
    (d.get .op = 4 → decode d = .ok (.writeBits (d.get .qh) (d.get .saddr) (d.get .scap) (d.get .count))) ∧
    (d.get .op = 5 → decode d = .ok (.readBits (d.get .qh) (d.get .daddr) (d.get .dcap) (d.get .count))) ∧
    (d.get .op = 6 → decode d = .ok (.hasSpace (d.get .qh) (d.get .count))) ∧
    (d.get .op = 7 → decode d = .ok (.hasData (d.get .qh) (d.get .count))) ∧
    (d.get .op = 8 → decode d = .ok (.destroy (d.get .qh))) ∧
    (d.get .op = 0 ∨ 9 ≤ d.get .op → decode d = .error (.illegalOp (d.get .op)))

/-- 30_encoding R87: unused fields and `W0[31:25]` change neither what a command does nor what it responds nor whether
it is legal; an assembler writes them as 0. -/
def Obligations.UnusedFieldsAreIgnored : Prop :=
  (∀ d d' : Descriptor, d.get .op = d'.get .op → (∀ f ∈ fieldsUsed (d.get .op), d.get f = d'.get f) →
    decode d = decode d' ∧ ∀ s : State, runDescriptor d s = runDescriptor d' s) ∧
  ∀ i : Instr, i.wellFormed = true →
    (∀ f : Field, f ≠ .op → f ∉ fieldsUsed i.opcode → (encode i).get f = 0) ∧ wordBits (encode i).w0 25 7 = 0

/-- 30_encoding R90: exactly `OP` 1 to 8 is a command; any other descriptor on the command port is answered
`IllegalCommand` with every other response field zero, and nothing changes. -/
def Obligations.IllegalOpcodeIsAnsweredAndChangesNothing : Prop :=
  (∀ d : Descriptor, (∃ i, decode d = .ok i) ↔ 1 ≤ d.get .op ∧ d.get .op ≤ 8) ∧
  (∀ (d : Descriptor) (rest : List HostEvent) (s : State), s.host = .command d :: rest →
    (d.get .op = 0 ∨ 9 ≤ d.get .op) →
    step s = .next { s with
      host := rest
      resp := { status := .illegalCommand, qh := 0, flag := false, rel := false, count := 0 } }) ∧
  ∀ (rest : List HostEvent) (s : State), s.host = .command ⟨0, 0, 0, 0, 0, 0, 0, 0⟩ :: rest →
    step s = .next { s with host := rest, resp := { status := .illegalCommand } }

/-! ## The step -/

/-- A step runs the decoded command: the descriptor at the head of the host's list is taken and `exec` runs its
command. The list is the model's own (log 1). -/
def Obligations.StepRunsTheDecodedCommand : Prop :=
  ∀ (d : Descriptor) (rest : List HostEvent) (i : Instr) (s : State),
    s.host = .command d :: rest → decode d = .ok i → step s = exec i { s with host := rest }

/-- A word of the opcode table, placed by `withFetchWord`, is the command the very next step runs (log 1). -/
def Obligations.TableWordIsRunByTheNextStep : Prop :=
  ∀ (nbits w : Nat) (i : Instr) (s : State), decodeTableWord nbits w = some i →
    step (s.withFetchWord nbits w) = exec i s

/-- 20_memory R69: a byte the host writes between commands is the byte of `M` from then on, and nothing else of the
block or of `M` changes; with no action pending nothing happens (the model's choice, log 2). -/
def Obligations.HostWriteChangesOneByteOfMemory : Prop :=
  (∀ (a : Nat) (v : Byte) (rest : List HostEvent) (s : State), s.host = .memWrite a v :: rest →
    ∃ t, step s = .next t ∧ t.host = rest ∧ t.params = s.params ∧ t.queues = s.queues ∧ t.resp = s.resp ∧
      ∀ b, t.mem.read b = if b = a % 2 ^ AW then v else s.mem.read b) ∧
  ∀ s : State, s.host = [] → step s = .next s

/-- 70_reset R211, R213: after the reset event every context field is 0 and `M` is as before; in `State.reset` every
context field is 0 too. -/
def Obligations.ResetClearsContextsAndKeepsMemory : Prop :=
  (∀ (rest : List HostEvent) (s : State), s.host = .reset :: rest →
    ∃ t, step s = .next t ∧ t.host = rest ∧ t.mem = s.mem ∧ t.params = s.params ∧ t.nq = s.nq ∧
      ∀ h, t.qPresent h → t.ctx h = ⟨false, false, false, 0, 0, 0, 0, 0, 0, 0⟩) ∧
  ∀ h, State.reset.qPresent h → State.reset.ctx h = ⟨false, false, false, 0, 0, 0, 0, 0, 0, 0⟩

/-! ## The transfer primitive and COPY_BITS -/

/-- 40_transfer R113, R115, R116, R117: how `CopyBits` ends, for buffers of every kind: the preconditions first, then
the destination test against the count asked for, then the clipping; on an error nothing is touched, and nothing is
touched when no bit is left to move. -/
def Obligations.PrimitiveOutcomeFollowsItsTests : Prop :=
  ∀ (D : Buf) (dbyte dbit dcap : Nat) (S : Buf) (sbyte sbit scap n : Nat) (s : State),
    ((n = 0 ∨ dbyte > dcap ∨ sbyte > scap ∨ dbit ≥ 8 ∨ sbit ≥ 8 ∨ n > scap * 8) →
      copyBits D dbyte dbit dcap S sbyte sbit scap n s = (.err .invalidArgument, s)) ∧
    (¬ (n = 0 ∨ dbyte > dcap ∨ sbyte > scap ∨ dbit ≥ 8 ∨ sbit ≥ 8 ∨ n > scap * 8) →
      (((dcap : Int) - dbyte) * 8 - dbit < n →
        copyBits D dbyte dbit dcap S sbyte sbit scap n s = (.err .insufficientSpace, s)) ∧
      ((n : Int) ≤ ((dcap : Int) - dbyte) * 8 - dbit →
        ∃ (m : Nat) (t : State), (m : Int) = min (n : Int) (max (((scap : Int) - sbyte) * 8 - sbit) 0) ∧
          copyBits D dbyte dbit dcap S sbyte sbit scap n s = (.transferred m, t) ∧ (m = 0 → t = s)))

/-- 40_transfer R127 with R113, R115, R116: when `COPY_BITS` answers `InvalidArgument` and when
`InsufficientSpace`, in this order; on both nothing changes but the response. -/
def Obligations.CopyBitsErrorsAndTheirOrder : Prop :=
  ∀ (daddr dbyte dbit dcap saddr sbyte sbit scap count : Nat) (s : State),
    ((daddr = 0 ∨ saddr = 0 ∨ count = 0 ∨ dbyte > dcap ∨ sbyte > scap ∨ dbit ≥ 8 ∨ sbit ≥ 8 ∨ count > scap * 8) →
      exec (.copyBits daddr dbyte dbit dcap saddr sbyte sbit scap count) s =
        .next { s with resp := { status := .invalidArgument } }) ∧
    (¬ (daddr = 0 ∨ saddr = 0 ∨ count = 0 ∨ dbyte > dcap ∨ sbyte > scap ∨ dbit ≥ 8 ∨ sbit ≥ 8 ∨ count > scap * 8) →
      ((dcap : Int) - dbyte) * 8 - dbit < count →
      exec (.copyBits daddr dbyte dbit dcap saddr sbyte sbit scap count) s =
        .next { s with resp := { status := .insufficientSpace } })

/-- 40_transfer R117, R118, R119, R121, R124: a `COPY_BITS` that passes its tests completes with the clipped count,
ORs source bit `sbyte*8+sbit+j` into destination bit `dbyte*8+dbit+j` when no byte is both read and written, and,
overlap or not, clears no bit and changes no bit outside the destination range. -/
def Obligations.CopyBitsMovesTheClippedBits : Prop :=
  ∀ (daddr dbyte dbit dcap saddr sbyte sbit scap count m : Nat) (s : State),
    daddr ≠ 0 → saddr ≠ 0 → 1 ≤ count → dbyte ≤ dcap → sbyte ≤ scap → dbit ≤ 7 → sbit ≤ 7 → count ≤ scap * 8 →
    (count : Int) ≤ ((dcap : Int) - dbyte) * 8 - dbit → dcap < 2 ^ SW →
    (m : Int) = min (count : Int) (max (((scap : Int) - sbyte) * 8 - sbit) 0) →
    ∃ t, exec (.copyBits daddr dbyte dbit dcap saddr sbyte sbit scap count) s = .next t ∧
      t.resp = { count := m } ∧ t.params = s.params ∧ t.queues = s.queues ∧ t.host = s.host ∧
      (NoOverlap (.ext daddr) (dbyte * 8 + dbit) (.ext saddr) (sbyte * 8 + sbit) m →
        ∀ j < m, bitAt t (.ext daddr) (dbyte * 8 + dbit + j) =
          (bitAt s (.ext daddr) (dbyte * 8 + dbit + j) || bitAt s (.ext saddr) (sbyte * 8 + sbit + j))) ∧
      ∀ l b, b < 8 →
        (s.locBit l b = true → t.locBit l b = true) ∧
        ((∀ j < m, ¬ (l = (Buf.ext daddr).loc ((dbyte * 8 + dbit + j) / 8) ∧ b = (dbyte * 8 + dbit + j) % 8)) →
          t.locBit l b = s.locBit l b)

/-- Frame of `COPY_BITS` for every operand and state: a next state always, contexts, private RAMs and parameters as
before, and every byte of `M` as before but the destination bytes of the bits the response counts (40_transfer R127,
20_memory R68; on an error the count is 0). -/
def Obligations.CopyBitsChangesOnlyCountedDestinationBytes : Prop :=
  ∀ (daddr dbyte dbit dcap saddr sbyte sbit scap count : Nat) (s : State),
    ∃ t, exec (.copyBits daddr dbyte dbit dcap saddr sbyte sbit scap count) s = .next t ∧
      t.params = s.params ∧ t.queues = s.queues ∧ t.host = s.host ∧
      ∀ a, (∀ j < t.resp.count, .mem a ≠ (Buf.ext daddr).loc ((dbyte * 8 + dbit + j) / 8)) →
        t.mem.read a = s.mem.read a

/-- 40_transfer R120, R126: the copy is sequential in its runs, overlap or not: the bits of the first run moved, then
the remaining bits copied from the advanced positions on the memory the first run left. -/
def Obligations.CopyBitsIsSequentialRunByRun : Prop :=
  ∀ (daddr dbyte dbit dcap saddr sbyte sbit scap count run : Nat) (s : State),
    daddr ≠ 0 → saddr ≠ 0 → dbit ≤ 7 → sbit ≤ 7 → dbyte * 8 + dbit + count ≤ dcap * 8 →
    sbyte * 8 + sbit + count ≤ scap * 8 → run = min (8 - dbit) (min (8 - sbit) count) → run < count →
    ∃ t u, exec (.copyBits daddr dbyte dbit dcap saddr sbyte sbit scap run) s = .next t ∧
      exec (.copyBits daddr ((dbyte * 8 + dbit + run) / 8) ((dbit + run) % 8) dcap
        saddr ((sbyte * 8 + sbit + run) / 8) ((sbit + run) % 8) scap (count - run)) t = .next u ∧
      exec (.copyBits daddr dbyte dbit dcap saddr sbyte sbit scap count) s =
        .next { u with resp := { count := count } }

/-- The overlap vector V-X15 (40_transfer R126): later runs read bytes the earlier runs have changed. -/
def Obligations.OverlappingCopyReadsChangedBytes : Prop :=
  ∀ s : State, s.mem.read 0x4040 = 0x0F → s.mem.read 0x4041 = 0 → s.mem.read 0x4042 = 0 →
    ∃ t, exec (.copyBits 0x4040 0 4 3 0x4040 0 0 3 16) s = .next t ∧ t.resp = { count := 16 } ∧
      t.mem.read 0x4040 = 0xFF ∧ t.mem.read 0x4041 = 0xFF ∧ t.mem.read 0x4042 = 0x0F

/-- 40_transfer R125, 70_reset R223: every run of a transfer of `m` bits stays inside both buffers and inside one byte
of each, and the number of runs is bounded. -/
def Obligations.RunsAreBoundedAndInsideTheBuffers : Prop :=
  ∀ (dbyte dbit dcap sbyte sbit scap count m : Nat),
    copyPlan dbyte dbit dcap sbyte sbit scap count = .transferred m →
    (copyRuns m (dbyte * 8 + dbit) (sbyte * 8 + sbit) m).length ≤ (dbit + m) / 8 + (sbit + m) / 8 + 1 ∧
      ((copyRuns m (dbyte * 8 + dbit) (sbyte * 8 + sbit) m).map Run.len).sum = m ∧
      ∀ r ∈ copyRuns m (dbyte * 8 + dbit) (sbyte * 8 + sbit) m,
        1 ≤ r.len ∧ r.dst / 8 < dcap ∧ r.src / 8 < scap ∧ (r.dst + r.len - 1) / 8 = r.dst / 8 ∧
          (r.src + r.len - 1) / 8 = r.src / 8

/-! ## Construction -/

/-- 41_construction R141: `CREATE_OWNED` in each of its cases: a zero size; no free context, or a size above
`POOL_BYTES`; else the least free context becomes an empty owned queue over its zeroed RAM and its handle is the
answer. Nothing else changes. The new queue has no data and room for its whole size. -/
def Obligations.CreateOwnedClaimsTheLeastFreeContext : Prop :=
  (∀ d : Descriptor, d.get .op = 2 → decode d = .ok (.createOwned (d.get .dcap))) ∧
  ∀ (n : Nat) (s : State),
    (n = 0 → exec (.createOwned n) s = .next { s with resp := { status := .invalidArgument } }) ∧
    (n ≠ 0 → ((∀ h, s.qPresent h → (s.ctx h).live = true) ∨ n > s.params.poolBytes) →
      exec (.createOwned n) s = .next { s with resp := { status := .allocationFailure } }) ∧
    ∀ h, n ≠ 0 → n ≤ s.params.poolBytes → s.qPresent h → (s.ctx h).live = false →
      (∀ g, 1 ≤ g → g < h → (s.ctx g).live = true) →
      ∃ t, exec (.createOwned n) s = .next t ∧ t.resp = { qh := h } ∧
        t.ctx h = ⟨true, true, true, 0, n, 0, 0, 0, 0, 0⟩ ∧
        (∀ i, (t.ram h).read i = if i < n then 0#8 else (s.ram h).read i) ∧
        (∀ g, g ≠ h → t.queue g = s.queue g) ∧ t.nq = s.nq ∧ t.params = s.params ∧ t.mem = s.mem ∧ t.host = s.host ∧
        exec (.hasData h 1) t = .next { t with resp := { flag := false } } ∧
        exec (.hasSpace h (n * 8)) t = .next { t with resp := { flag := true } }

/-- 41_construction R142, R140: `WRAP_BUFFER` in each of its cases: an absent buffer or a zero size; no free context;
else the least free context becomes a full queue over the named region of `M`. No byte of memory is touched. -/
def Obligations.WrapBufferClaimsTheLeastFreeContext : Prop :=
  ∀ (a n : Nat) (own : Bool) (s : State),
    (a = 0 ∨ n = 0 → exec (.wrapBuffer a n own) s = .next { s with resp := { status := .invalidArgument } }) ∧
    (a ≠ 0 → n ≠ 0 → (∀ h, s.qPresent h → (s.ctx h).live = true) →
      exec (.wrapBuffer a n own) s = .next { s with resp := { status := .allocationFailure } }) ∧
    ∀ h, a ≠ 0 → n ≠ 0 → s.qPresent h → (s.ctx h).live = false → (∀ g, 1 ≤ g → g < h → (s.ctx g).live = true) →
      ∃ t, exec (.wrapBuffer a n own) s = .next t ∧ t.resp = { qh := h } ∧
        t.ctx h = ⟨true, own, false, a, n, 0, 0, 0, 0, n * 8⟩ ∧ (∀ g, t.ram g = s.ram g) ∧
        (∀ g, g ≠ h → t.ctx g = s.ctx g) ∧ t.nq = s.nq ∧ t.params = s.params ∧ t.mem = s.mem ∧ t.host = s.host

/-- 10_state R31, 41_construction R143: right after `WRAP_BUFFER` the queue is full, so every write of at least one bit
that fits the ring answers `WouldBlock`; right after `CREATE_OWNED` it is empty, so every such read does. -/
def Obligations.WrappedQueueStartsFullOwnedQueueStartsEmpty : Prop :=
  (∀ (a n h saddr scap count : Nat) (own : Bool) (s t : State), exec (.wrapBuffer a n own) s = .next t →
    t.resp = { qh := h } → saddr ≠ 0 → 1 ≤ count → count ≤ scap * 8 → count ≤ n * 8 →
    exec (.writeBits h saddr scap count) t = .next { t with resp := { status := .wouldBlock } }) ∧
  ∀ (n h daddr dcap count : Nat) (s t : State), exec (.createOwned n) s = .next t →
    t.resp = { qh := h } → daddr ≠ 0 → 1 ≤ count → count ≤ dcap * 8 → count ≤ n * 8 →
    exec (.readBits h daddr dcap count) t = .next { t with resp := { status := .wouldBlock } }

/-! ## WRITE_BITS and READ_BITS -/

/-- 42_write_read R151: the checks of `WRITE_BITS` in their order; on every one of these errors nothing changes but the
response. -/
def Obligations.WriteBitsErrorsAndTheirOrder : Prop :=
  ∀ (qh saddr scap count : Nat) (s : State),
    ((¬ s.qPresent qh ∨ saddr = 0 ∨ count = 0 ∨ scap * 8 < count ∨ (s.ctx qh).live = false) →
      exec (.writeBits qh saddr scap count) s = .next { s with resp := { status := .invalidArgument } }) ∧
    (¬ (¬ s.qPresent qh ∨ saddr = 0 ∨ count = 0 ∨ scap * 8 < count ∨ (s.ctx qh).live = false) →
      (count > (s.ctx qh).bufSize * 8 →
        exec (.writeBits qh saddr scap count) s = .next { s with resp := { status := .messageTooLarge } }) ∧
      (count ≤ (s.ctx qh).bufSize * 8 → ((s.ctx qh).bufSize * 8 : Int) - (s.ctx qh).validBits < count →
        exec (.writeBits qh saddr scap count) s = .next { s with resp := { status := .wouldBlock } }))

/-- 42_write_read R161: the checks of `READ_BITS` in their order; on every one of these errors nothing changes but the
response. -/
def Obligations.ReadBitsErrorsAndTheirOrder : Prop :=
  ∀ (qh daddr dcap count : Nat) (s : State),
    ((¬ s.qPresent qh ∨ daddr = 0 ∨ count = 0 ∨ dcap * 8 < count ∨ (s.ctx qh).live = false) →
      exec (.readBits qh daddr dcap count) s = .next { s with resp := { status := .invalidArgument } }) ∧
    (¬ (¬ s.qPresent qh ∨ daddr = 0 ∨ count = 0 ∨ dcap * 8 < count ∨ (s.ctx qh).live = false) →
      (count > (s.ctx qh).bufSize * 8 →
        exec (.readBits qh daddr dcap count) s = .next { s with resp := { status := .messageTooLarge } }) ∧
      (count ≤ (s.ctx qh).bufSize * 8 → (s.ctx qh).validBits < count →
        exec (.readBits qh daddr dcap count) s = .next { s with resp := { status := .wouldBlock } }))

/-- The one stop of the model, in states no run reaches (20_memory R52, log 7): a transfer that passes all its checks
on a ring said to be in a private RAM smaller than it faults. -/
def Obligations.RingOutsideItsRamFaults : Prop :=
  ∀ (qh addr size count : Nat) (s : State), s.qPresent qh → addr ≠ 0 → 1 ≤ count → count ≤ size * 8 →
    (s.ctx qh).live = true → count ≤ (s.ctx qh).cap → s.ringOutsideRam qh →
    ((s.ctx qh).validBits + count ≤ (s.ctx qh).cap →
      exec (.writeBits qh addr size count) s = .fault .ringOutsideRam) ∧
    (count ≤ (s.ctx qh).validBits → exec (.readBits qh addr size count) s = .fault .ringOutsideRam)

/-- 42_write_read R155, R157, R158: from a sound live context with room, `WRITE_BITS` completes `OK` with the whole
count; the write position and the count advance, the other fields of the context and all else stay; ring bit
`(w + j) mod C` becomes source bit `j` (with the pre-clear) or `old | source` (without), when the ring and the source
bytes read share no byte; every other bit of every memory is as before. -/
def Obligations.WriteBitsAppendsTheSourceBits : Prop :=
  ∀ (qh saddr scap count : Nat) (s : State) (c : Ctx),
    s.qPresent qh → s.ctx qh = c → c.live = true → c.liveOk s.params.poolBytes → saddr ≠ 0 → 1 ≤ count →
    count ≤ scap * 8 → c.validBits + count ≤ c.cap →
    ∃ t, exec (.writeBits qh saddr scap count) s = .next t ∧ t.resp = { count := count } ∧
      t.ctx qh =
        { c with
          wrByte := (c.wrPos + count) % c.cap / 8
          wrBit := (c.wrPos + count) % c.cap % 8
          validBits := c.validBits + count } ∧
      (∀ g, g ≠ qh → t.queue g = s.queue g) ∧ t.nq = s.nq ∧ t.params = s.params ∧ t.host = s.host ∧
      ((∀ i < c.bufSize, ∀ j < count, (s.qbuf qh).loc i ≠ (Buf.ext saddr).loc (j / 8)) →
        ∀ j < count, bitAt t (s.qbuf qh) ((c.wrPos + j) % c.cap) =
          ((!s.params.preclearOnWrite && bitAt s (s.qbuf qh) ((c.wrPos + j) % c.cap)) || bitAt s (.ext saddr) j)) ∧
      ∀ l b, b < 8 →
        (∀ j < count, ¬ (l = (s.qbuf qh).loc ((c.wrPos + j) % c.cap / 8) ∧ b = (c.wrPos + j) % c.cap % 8)) →
        t.locBit l b = s.locBit l b

/-- 42_write_read R163, R164, R165: from a sound live context with enough unread bits, `READ_BITS` completes `OK` with
the whole count; the read position and the count advance, the other fields of the context and all else stay;
destination bit `j` becomes `old | ring bit (r + j) mod C`, when the ring and the destination bytes written share no
byte; every other bit of every memory is as before. -/
def Obligations.ReadBitsDeliversTheOldestBits : Prop :=
  ∀ (qh daddr dcap count : Nat) (s : State) (c : Ctx),
    s.qPresent qh → s.ctx qh = c → c.live = true → c.liveOk s.params.poolBytes → daddr ≠ 0 → 1 ≤ count →
    count ≤ dcap * 8 → count ≤ c.validBits →
    ∃ t, exec (.readBits qh daddr dcap count) s = .next t ∧ t.resp = { count := count } ∧
      t.ctx qh =
        { c with
          rdByte := (c.rdPos + count) % c.cap / 8
          rdBit := (c.rdPos + count) % c.cap % 8
          validBits := c.validBits - count } ∧
      (∀ g, t.ram g = s.ram g) ∧ (∀ g, g ≠ qh → t.ctx g = s.ctx g) ∧ t.nq = s.nq ∧ t.params = s.params ∧
      t.host = s.host ∧
      ((∀ i < c.bufSize, ∀ j < count, (s.qbuf qh).loc i ≠ (Buf.ext daddr).loc (j / 8)) →
        ∀ j < count, bitAt t (.ext daddr) j =
          (bitAt s (.ext daddr) j || bitAt s (s.qbuf qh) ((c.rdPos + j) % c.cap))) ∧
      ∀ l b, b < 8 → (∀ j < count, ¬ (l = (Buf.ext daddr).loc (j / 8) ∧ b = j % 8)) → t.locBit l b = s.locBit l b

/-- 42_write_read R157, derived there from R150 and R153: (a) from cursors in the ring every invocation transfers its
whole chunk, at least one bit, and leaves the cursors in the ring; (b) the command is one invocation, or, when the
first fills the ring to its end with bits left to move, two, the second from `(0,0)`; (c) it ends `OK` with the whole
count. -/
def Obligations.WriteBitsMakesAtMostTwoInvocations : Prop :=
  (∀ (qh saddr scap count moved : Nat) (s : State), s.qPresent qh → (s.ctx qh).cursorsInRing → moved < count →
    count ≤ scap * 8 →
    ∃ (k : Nat) (t : State), 1 ≤ k ∧
      (k : Int) = min ((count : Int) - moved) ((((s.ctx qh).bufSize : Int) - (s.ctx qh).wrByte) * 8 - (s.ctx qh).wrBit) ∧
      writeInvocation qh saddr scap count moved s = (.transferred k, t) ∧
      ((t.modifyCtx qh (Ctx.advanceWrite k)).ctx qh).cursorsInRing) ∧
  ∀ (qh saddr scap count room : Nat) (s : State), s.writeReady qh saddr scap count →
    (s.ctx qh).wrPos + room = (s.ctx qh).cap →
    ∃ t : State, writeInvocation qh saddr scap count 0 s = (.transferred (min count room), t) ∧
      (count ≤ room → exec (.writeBits qh saddr scap count) s =
        .next { t.modifyCtx qh (Ctx.advanceWrite count) with resp := { count := count } }) ∧
      (room < count →
        ((t.modifyCtx qh (Ctx.advanceWrite room)).ctx qh).wrByte = 0 ∧
        ((t.modifyCtx qh (Ctx.advanceWrite room)).ctx qh).wrBit = 0 ∧
        ∃ u : State, writeInvocation qh saddr scap count room (t.modifyCtx qh (Ctx.advanceWrite room)) =
            (.transferred (count - room), u) ∧
          exec (.writeBits qh saddr scap count) s =
            .next { u.modifyCtx qh (Ctx.advanceWrite (count - room)) with resp := { count := count } })

/-- 42_write_read R164, derived there from R160 and R162: (a) from cursors in the ring every invocation transfers the
lesser of the remainder and what the ring holds up to its end, at least one bit, and leaves the cursors in the ring;
(b) the command is one invocation, or, when the first is clipped, two, the second from `(0,0)`; (c) it ends `OK` with
the whole count. -/
def Obligations.ReadBitsMakesAtMostTwoInvocations : Prop :=
  (∀ (qh daddr dcap count moved : Nat) (s : State), s.qPresent qh → (s.ctx qh).cursorsInRing → moved < count →
    count ≤ dcap * 8 → count ≤ (s.ctx qh).cap →
    ∃ (k : Nat) (t : State), 1 ≤ k ∧
      (k : Int) = min ((count : Int) - moved)
        (((s.ctx qh).bufSize : Int) * 8 - ((s.ctx qh).rdByte * 8 + (s.ctx qh).rdBit)) ∧
      readInvocation qh daddr dcap count moved s = (.transferred k, t) ∧
      ((t.modifyCtx qh (Ctx.advanceRead k)).ctx qh).cursorsInRing) ∧
  ∀ (qh daddr dcap count room : Nat) (s : State), s.readReady qh daddr dcap count →
    (s.ctx qh).rdPos + room = (s.ctx qh).cap →
    ∃ t : State, readInvocation qh daddr dcap count 0 s = (.transferred (min count room), t) ∧
      (count ≤ room → exec (.readBits qh daddr dcap count) s =
        .next { t.modifyCtx qh (Ctx.advanceRead count) with resp := { count := count } }) ∧
      (room < count →
        ((t.modifyCtx qh (Ctx.advanceRead room)).ctx qh).rdByte = 0 ∧
        ((t.modifyCtx qh (Ctx.advanceRead room)).ctx qh).rdBit = 0 ∧
        ∃ u : State, readInvocation qh daddr dcap count room (t.modifyCtx qh (Ctx.advanceRead room)) =
            (.transferred (count - room), u) ∧
          exec (.readBits qh daddr dcap count) s =
            .next { u.modifyCtx qh (Ctx.advanceRead (count - room)) with resp := { count := count } })

/-- Frame of `WRITE_BITS` for every operand and state in which it answers a next state: parameters and other contexts
with their RAMs as before; of its context only the write cursor and the count may change; no byte outside the ring
(byte `i` of `QBuf(h)`, `i < BUF_SIZE`) changes (42_write_read R150). Which ring bytes change, from a sound context, is in
`WriteBitsAppendsTheSourceBits`. -/
def Obligations.WriteBitsFrame : Prop :=
  ∀ (qh saddr scap count : Nat) (s t : State), exec (.writeBits qh saddr scap count) s = .next t →
    t.params = s.params ∧ t.nq = s.nq ∧ t.host = s.host ∧ (∀ g, g ≠ qh → t.queue g = s.queue g) ∧
      t.ctx qh = { s.ctx qh with
        wrByte := (t.ctx qh).wrByte, wrBit := (t.ctx qh).wrBit, validBits := (t.ctx qh).validBits } ∧
      ∀ l, (∀ i < (s.ctx qh).bufSize, l ≠ (s.qbuf qh).loc i) → t.readLoc l = s.readLoc l

/-- Frame of `READ_BITS` for every operand and state in which it answers a next state: parameters, every private RAM
and the other contexts as before; of its context only the read cursor and the count may change; of `M` only the
destination bytes that hold bit positions below `COUNT` (42_write_read R160). -/
def Obligations.ReadBitsFrame : Prop :=
  ∀ (qh daddr dcap count : Nat) (s t : State), exec (.readBits qh daddr dcap count) s = .next t →
    t.params = s.params ∧ t.nq = s.nq ∧ t.host = s.host ∧ (∀ g, g ≠ qh → t.queue g = s.queue g) ∧
      (∀ g, t.ram g = s.ram g) ∧
      t.ctx qh = { s.ctx qh with
        rdByte := (t.ctx qh).rdByte, rdBit := (t.ctx qh).rdBit, validBits := (t.ctx qh).validBits } ∧
      ∀ a, (∀ j < count, .mem a ≠ (Buf.ext daddr).loc (j / 8)) → t.mem.read a = s.mem.read a

/-- The queue is a first-in first-out list of bits (42_write_read R168 (a)): a write appends the source bits to the
unread bits; a read takes its count from their front, delivering exactly those bits into a destination that was clear;
with the pre-clear, the host's buffer sharing no byte with the ring. -/
def Obligations.QueueIsFirstInFirstOut : Prop :=
  ∀ (qh addr size count : Nat) (s t : State), s.Inv → s.qPresent qh →
    (∀ i < (s.ctx qh).bufSize, ∀ j < count, (s.qbuf qh).loc i ≠ (Buf.ext addr).loc (j / 8)) →
    (s.params.preclearOnWrite = true → exec (.writeBits qh addr size count) s = .next t → t.resp.status = .ok →
      t.unread qh = s.unread qh ++ s.bits (.ext addr) count) ∧
    (exec (.readBits qh addr size count) s = .next t → t.resp.status = .ok →
      (∀ j < count, bitAt s (.ext addr) j = false) →
      s.unread qh = t.bits (.ext addr) count ++ t.unread qh)

/-! ## Capacity queries -/

/-- 43_capacity R170: `HAS_SPACE` in each of its cases, for every operand and every state; nothing changes but the
response. -/
def Obligations.HasSpaceAnswers : Prop :=
  (∀ d : Descriptor, d.get .op = 6 → decode d = .ok (.hasSpace (d.get .qh) (d.get .count))) ∧
  ∀ (qh count : Nat) (s : State),
    (¬ s.qPresent qh ∨ (s.ctx qh).live = false →
      exec (.hasSpace qh count) s = .next { s with resp := { status := .invalidArgument } }) ∧
    (s.qPresent qh → (s.ctx qh).live = true →
      exec (.hasSpace qh count) s = .next { s with
        resp := { flag := decide (((s.ctx qh).bufSize * 8 : Int) - (s.ctx qh).validBits ≥ count) } })

/-- 43_capacity R171: `HAS_DATA` in each of its cases, for every operand and every state; nothing changes but the
response. -/
def Obligations.HasDataAnswers : Prop :=
  (∀ d : Descriptor, d.get .op = 7 → decode d = .ok (.hasData (d.get .qh) (d.get .count))) ∧
  ∀ (qh count : Nat) (s : State),
    (¬ s.qPresent qh ∨ (s.ctx qh).live = false →
      exec (.hasData qh count) s = .next { s with resp := { status := .invalidArgument } }) ∧
    (s.qPresent qh → (s.ctx qh).live = true →
      exec (.hasData qh count) s = .next { s with
        resp := { flag := decide ((s.ctx qh).validBits ≥ count) } })

/-- 43_capacity R172: the queries exactly predict the transfers: for a command that passes its checks of lines 1 to 5
in a state of the invariant, the transfer ends `OK` when the query's `FLAG` is 1 and `WouldBlock` when it is 0. -/
def Obligations.QueriesPredictTransfers : Prop :=
  ∀ (qh addr size count : Nat) (s : State), s.Inv → s.qPresent qh → (s.ctx qh).live = true → addr ≠ 0 → 1 ≤ count →
    count ≤ size * 8 → count ≤ (s.ctx qh).cap →
    (∃ q w, exec (.hasSpace qh count) s = .next q ∧ exec (.writeBits qh addr size count) s = .next w ∧
      w.resp.status = if q.resp.flag then .ok else .wouldBlock) ∧
    ∃ q r, exec (.hasData qh count) s = .next q ∧ exec (.readBits qh addr size count) s = .next r ∧
      r.resp.status = if q.resp.flag then .ok else .wouldBlock

/-! ## Destruction -/

/-- 44_destruction R175: `DESTROY` in each of its cases: an absent or dead context; else every field of the context
goes to its reset value and `REL` says whether an owned external buffer goes back. No byte of `M` or `P` changes. -/
def Obligations.DestroyFreesTheContext : Prop :=
  (∀ d : Descriptor, d.get .op = 8 → decode d = .ok (.destroy (d.get .qh))) ∧
  ∀ (qh : Nat) (s : State),
    (¬ s.qPresent qh ∨ (s.ctx qh).live = false →
      exec (.destroy qh) s = .next { s with resp := { status := .invalidArgument } }) ∧
    (s.qPresent qh → (s.ctx qh).live = true →
      ∃ t, exec (.destroy qh) s = .next t ∧
        t.resp = { rel := (s.ctx qh).owned && !(s.ctx qh).bufInt } ∧
        t.ctx qh = ⟨false, false, false, 0, 0, 0, 0, 0, 0, 0⟩ ∧ (∀ g, g ≠ qh → t.ctx g = s.ctx g) ∧
        (∀ g, t.ram g = s.ram g) ∧ t.mem = s.mem ∧ t.nq = s.nq ∧ t.params = s.params ∧ t.host = s.host)

/-- 44_destruction R177: `DESTROY` of a context with `LIVE = 0`, destroyed or never constructed, answers
`InvalidArgument` and changes nothing; so does a second `DESTROY` after a first, whatever the first answered. -/
def Obligations.SecondDestroyIsInvalid : Prop :=
  (∀ (qh : Nat) (s : State), (s.ctx qh).live = false →
    exec (.destroy qh) s = .next { s with resp := { status := .invalidArgument } }) ∧
  ∀ (qh : Nat) (s t : State), exec (.destroy qh) s = .next t →
    exec (.destroy qh) t = .next { t with resp := { status := .invalidArgument } }

/-- 44_destruction R176: what `DESTROY` answers for a buffer the queue made, one whose ownership was given to it, and a
borrowed one. -/
def Obligations.ReleaseFollowsOwnership : Prop :=
  (∀ (n h : Nat) (s t : State), exec (.createOwned n) s = .next t → t.resp = { qh := h } →
    ∃ u, exec (.destroy h) t = .next u ∧ u.resp = { rel := false } ∧ u.mem = t.mem ∧ u.ram h = t.ram h) ∧
  ∀ (a n h : Nat) (own : Bool) (s t : State), exec (.wrapBuffer a n own) s = .next t → t.resp = { qh := h } →
    ∃ u, exec (.destroy h) t = .next u ∧ u.resp = { rel := own } ∧ u.mem = t.mem ∧ u.ram h = t.ram h

/-- 44_destruction R178, 70_reset R211: on a context that is not live, destroyed or never constructed, every command
that names a queue answers `InvalidArgument` and changes nothing, whatever its other operands. -/
def Obligations.DeadContextAnswersInvalidArgument : Prop :=
  ∀ (qh addr size count : Nat) (s : State) (i : Instr), (s.ctx qh).live = false →
    i ∈ [.writeBits qh addr size count, .readBits qh addr size count, .hasSpace qh count, .hasData qh count,
      .destroy qh] →
    exec i s = .next { s with resp := { status := .invalidArgument } }

/-! ## The whole block -/

/-- The invariant of a step (10_state R29, R30, R33, R40, 20_memory R52): parameters, contexts, memories and response
stay sound, from every sound state and for every host action. -/
def Obligations.StepKeepsTheInvariant : Prop :=
  ∀ s t : State, s.Inv → step s = .next t → t.Inv

/-- The invariant holds of the state after reset. -/
def Obligations.ResetIsSound : Prop := State.reset.Inv

/-- 20_memory R51, 60_exceptions R202: no step stops: from every sound state every host action answers a next state. -/
def Obligations.StepNeverStops : Prop :=
  ∀ s : State, s.Inv → ∃ t, step s = .next t

/-- 60_exceptions R190: a command that answers an error leaves the whole state as it was, and every response field but
`STATUS` is then 0 (R187). Over the sound states, where every error is one raised by the command's own checks (R157,
R164); the second clause adds the descriptors that name no command (R186). -/
def Obligations.ErrorsLeaveTheStateUnchanged : Prop :=
  (∀ (i : Instr) (s t : State), s.Inv → exec i s = .next t → t.resp.status ≠ .ok →
    t = { s with resp := { status := t.resp.status, qh := 0, flag := false, rel := false, count := 0 } }) ∧
  ∀ (d : Descriptor) (s t : State), s.Inv → runDescriptor d s = .next t → t.resp.status ≠ .ok →
    t = { s with resp := { status := t.resp.status, qh := 0, flag := false, rel := false, count := 0 } }

/-- 42_write_read R155 for `WRITE_BITS`, R163 for `READ_BITS`, over the sound states: a transfer that answers `OK` has
moved all the bits asked. -/
def Obligations.SuccessfulTransferMovesTheWholeCount : Prop :=
  ∀ (qh addr size count : Nat) (s t : State), s.Inv →
    (exec (.writeBits qh addr size count) s = .next t ∨ exec (.readBits qh addr size count) s = .next t) →
    t.resp.status = .ok → t.resp = { count := count }

/-- 60_exceptions R182 to R186: which commands can answer which error kinds, from every sound state. -/
def Obligations.ErrorKindsByCommand : Prop :=
  ∀ (i : Instr) (s t : State), s.Inv → exec i s = .next t →
    (t.resp.status = .messageTooLarge ∨ t.resp.status = .wouldBlock →
      (∃ q a n k, i = .writeBits q a n k) ∨ ∃ q a n k, i = .readBits q a n k) ∧
    (t.resp.status = .allocationFailure → (∃ n, i = .createOwned n) ∨ ∃ a n o, i = .wrapBuffer a n o) ∧
    (t.resp.status = .insufficientSpace → ∃ a y b n a' y' b' n' k, i = .copyBits a y b n a' y' b' n' k) ∧
    t.resp.status ≠ .illegalCommand

/-- 10_state R32, R21, R23: the lifecycle of a context under every command: `COPY_BITS` and the queries change no
context; the transfers change at most the cursors and the count of the live context they name; a constructor changes
at most one dead context and makes it live; `DESTROY` changes at most the live context it names and makes it dead. -/
def Obligations.LifecycleOfAContext : Prop :=
  ∀ (i : Instr) (s t : State) (h : Nat), exec i s = .next t →
    match i with
    | .copyBits .. => t.ctx h = s.ctx h
    | .hasSpace .. => t.ctx h = s.ctx h
    | .hasData .. => t.ctx h = s.ctx h
    | .createOwned _ => t.ctx h = s.ctx h ∨ ((s.ctx h).live = false ∧ (t.ctx h).live = true ∧ t.resp = { qh := h })
    | .wrapBuffer _ _ _ => t.ctx h = s.ctx h ∨ ((s.ctx h).live = false ∧ (t.ctx h).live = true ∧ t.resp = { qh := h })
    | .writeBits qh _ _ _ => t.ctx h = s.ctx h ∨ (h = qh ∧ (s.ctx h).live = true ∧
        t.ctx h = { s.ctx h with
          wrByte := (t.ctx h).wrByte, wrBit := (t.ctx h).wrBit, validBits := (t.ctx h).validBits })
    | .readBits qh _ _ _ => t.ctx h = s.ctx h ∨ (h = qh ∧ (s.ctx h).live = true ∧
        t.ctx h = { s.ctx h with
          rdByte := (t.ctx h).rdByte, rdBit := (t.ctx h).rdBit, validBits := (t.ctx h).validBits })
    | .destroy qh => t.ctx h = s.ctx h ∨ (h = qh ∧ (s.ctx h).live = true ∧ t.ctx h = Ctx.reset)

/-- 10_state R34, 20_memory R50, R68: `M` is changed only by `COPY_BITS`, `READ_BITS` and a `WRITE_BITS` whose ring is
in `M`; a private RAM only by the `CREATE_OWNED` that claims its context and by a `WRITE_BITS` on it whose ring is
internal. Parameters and the number of contexts never change. -/
def Obligations.MemoriesChangeOnlyByTheirCommands : Prop :=
  ∀ (i : Instr) (s t : State), exec i s = .next t →
    t.params = s.params ∧ t.nq = s.nq ∧
    (t.mem ≠ s.mem → (∃ a y b n a' y' b' n' k, i = .copyBits a y b n a' y' b' n' k) ∨
      (∃ q a n k, i = .readBits q a n k) ∨ ∃ q a n k, i = .writeBits q a n k ∧ (s.ctx q).bufInt = false) ∧
    ∀ h, t.ram h ≠ s.ram h → (∃ n, i = .createOwned n ∧ t.resp = { qh := h }) ∨
      ∃ a n k, i = .writeBits h a n k ∧ (s.ctx h).bufInt = true

/-- 60_exceptions R196, 10_state R36: no command reads RESP, so a command does after an error exactly what it would
have done without one. -/
def Obligations.NoCommandReadsTheResponse : Prop :=
  ∀ (i : Instr) (s : State) (r : Response), exec i { s with resp := r } = exec i s

/-- 10_state R20: contexts are independent: what a queue command on `qh` answers and leaves in its context, its private
RAM and `M` does not depend on the other contexts or their RAMs. -/
def Obligations.QueueCommandsDependOnTheirContextOnly : Prop :=
  ∀ (qh addr size count : Nat) (i : Instr) (s s' : State),
    i ∈ [.writeBits qh addr size count, .readBits qh addr size count, .hasSpace qh count, .hasData qh count,
      .destroy qh] →
    s.params = s'.params → s.nq = s'.nq → s.mem = s'.mem → s.queue qh = s'.queue qh →
    ∀ t, exec i s = .next t →
      ∃ t', exec i s' = .next t' ∧ t'.resp = t.resp ∧ t'.mem = t.mem ∧ t'.queue qh = t.queue qh

/-- 70_reset R212, U8: what a private RAM holds outside the ring of a live owned queue, its content after reset among
it, is never observed: from two states that differ only there, every step gives states that differ only there. So the
model's choice of zero (log 6) is without consequence. -/
def Obligations.UnusedRamContentIsNeverObserved : Prop :=
  ∀ s s' t : State, SameButUnusedRam s s' → step s = .next t → ∃ t', step s' = .next t' ∧ SameButUnusedRam t t'
end

