-- ==== Sys2Proof/Laws/Memory.lean ====
section
/-! SUPPORT. The laws of one memory: what a byte reads as after each operation, that every operation keeps the
canonical form, and that canonical memories with the same bytes are the same data. -/

namespace Sys2Proof.Machine

@[simp] theorem Memory.read_nil (a : Nat) : Memory.read [] a = unlistedByte := rfl

theorem Memory.read_cons (c : Host.Cell) (m : Memory) (a : Nat) :
    Memory.read (c :: m) a = if c.1 = a then c.2 else Memory.read m a := rfl

/-- An address that no pair lists reads as `unlistedByte`. -/
theorem Memory.read_unlisted (m : Memory) (a : Nat) (h : ∀ c ∈ m, c.1 ≠ a) : m.read a = unlistedByte := by
  induction m with
  | nil => rfl
  | cons c m ih =>
    rw [Memory.read_cons, if_neg (h c (by simp)), ih fun d hd => h d (by simp [hd])]

theorem Memory.read_erase (m : Memory) (a b : Nat) :
    (Memory.erase m a).read b = if a = b then unlistedByte else m.read b := by
  induction m with
  | nil => simp [Memory.erase]
  | cons c m ih =>
    simp only [Memory.erase, List.filter_cons, Memory.read_cons] at ih ⊢
    by_cases hc : c.1 = a
    · simp only [hc, ne_eq, not_true_eq_false, decide_false, Bool.false_eq_true, if_false, ih]
      split <;> rfl
    · simp only [ne_eq, hc, not_false_eq_true, decide_true, if_true, Memory.read_cons, ih]
      by_cases hb : c.1 = b
      · rw [if_pos hb, if_pos hb, if_neg (by omega)]
      · rw [if_neg hb, if_neg hb]

theorem Memory.read_insert (m : Memory) (a b : Nat) (v : Byte) (h : ∀ c ∈ m, c.1 ≠ a) :
    (Memory.insert m a v).read b = if a = b then v else m.read b := by
  induction m with
  | nil => simp [Memory.insert, Memory.read_cons]
  | cons c m ih =>
    have hc : c.1 ≠ a := h c (by simp)
    have ih := ih fun d hd => h d (by simp [hd])
    rw [Memory.insert]
    split
    · rfl
    · rw [Memory.read_cons, ih, Memory.read_cons]
      by_cases hb : c.1 = b
      · rw [if_pos hb, if_pos hb, if_neg (by omega)]
      · rw [if_neg hb, if_neg hb]

theorem Memory.mem_erase (m : Memory) (a : Nat) (c : Host.Cell) : c ∈ Memory.erase m a ↔ c ∈ m ∧ c.1 ≠ a := by
  simp [Memory.erase]

/-- Read after write, in any memory: the byte written at its address, every other byte as before. -/
theorem Memory.read_write (m : Memory) (a b : Nat) (v : Byte) :
    (m.write a v).read b = if a = b then v else m.read b := by
  rw [Memory.write]
  split
  · rw [Memory.read_erase]
    split <;> simp_all
  · rw [Memory.read_insert _ _ _ _ fun c hc => ((Memory.mem_erase m a c).1 hc).2, Memory.read_erase]
    split <;> rfl

/-- What `CREATE_OWNED` line 4 leaves (R141): bytes below `n` zero, the others as before. -/
theorem Memory.read_zeroBelow (m : Memory) (n i : Nat) :
    (m.zeroBelow n).read i = if i < n then unlistedByte else m.read i := by
  induction m with
  | nil => simp [Memory.zeroBelow]
  | cons c m ih =>
    simp only [Memory.zeroBelow, List.filter_cons, Memory.read_cons] at ih ⊢
    by_cases hc : n ≤ c.1
    · simp only [hc, decide_true, if_true, Memory.read_cons, ih]
      split
      · rw [if_neg (by omega)]
      · rfl
    · simp only [hc, decide_false, Bool.false_eq_true, if_false, ih]
      split
      · rfl
      · rw [if_neg (by omega)]

/-! ## The canonical form -/

theorem Memory.wf_filter (m : Memory) (p : Host.Cell → Bool) (h : m.wf) : Memory.wf (m.filter p) :=
  ⟨h.1.filter _, fun c hc => h.2 c (List.mem_of_mem_filter hc)⟩

theorem Memory.wf_erase (m : Memory) (a : Nat) (h : m.wf) : (Memory.erase m a).wf := Memory.wf_filter m _ h

theorem Memory.mem_insert (m : Memory) (a : Nat) (v : Byte) (c : Host.Cell) :
    c ∈ Memory.insert m a v ↔ c = (a, v) ∨ c ∈ m := by
  induction m with
  | nil => simp [Memory.insert]
  | cons d m ih =>
    rw [Memory.insert]
    split
    · simp
    · simp only [List.mem_cons, ih]
      tauto

theorem Memory.wf_insert (m : Memory) (a : Nat) (v : Byte) (h : m.wf) (ha : ∀ c ∈ m, c.1 ≠ a)
    (hv : v ≠ unlistedByte) : (Memory.insert m a v).wf := by
  refine ⟨?_, fun c hc => ?_⟩
  · replace h := h.1
    induction m with
    | nil => simp [Memory.insert]
    | cons d m ih =>
      have hd : d.1 ≠ a := ha d (by simp)
      rw [List.pairwise_cons] at h
      rw [Memory.insert]
      split
      · rename_i hlt
        refine List.pairwise_cons.2 ⟨fun c hc => ?_, List.pairwise_cons.2 h⟩
        rcases List.mem_cons.1 hc with rfl | hc
        · exact hlt
        · exact Nat.lt_trans hlt (h.1 c hc)
      · refine List.pairwise_cons.2 ⟨fun c hc => ?_, ih (fun c hc => ha c (by simp [hc])) h.2⟩
        rcases (Memory.mem_insert m a v c).1 hc with rfl | hc
        · exact (by simp only; omega)
        · exact h.1 c hc
  · rcases (Memory.mem_insert m a v c).1 hc with rfl | hc
    · exact hv
    · exact h.2 c hc

/-- A write keeps the canonical form. -/
theorem Memory.wf_write (m : Memory) (a : Nat) (v : Byte) (h : m.wf) : (m.write a v).wf := by
  rw [Memory.write]
  split
  · exact Memory.wf_erase m a h
  · exact Memory.wf_insert _ _ _ (Memory.wf_erase m a h) (fun c hc => ((Memory.mem_erase m a c).1 hc).2) ‹_›

/-- Zeroing keeps the canonical form. -/
theorem Memory.wf_zeroBelow (m : Memory) (n : Nat) (h : m.wf) : (m.zeroBelow n).wf := Memory.wf_filter m _ h

/-- A write below the end lists no address at or above it. -/
theorem Memory.within_write (m : Memory) (a n : Nat) (v : Byte) (h : m.within n) (ha : a < n) :
    (m.write a v).within n := by
  intro c hc
  rw [Memory.write] at hc
  split at hc
  · exact h c ((Memory.mem_erase m a c).1 hc).1
  · rcases (Memory.mem_insert _ _ _ _).1 hc with rfl | hc
    · exact ha
    · exact h c ((Memory.mem_erase m a c).1 hc).1

theorem Memory.within_zeroBelow (m : Memory) (k n : Nat) (h : m.within n) : (m.zeroBelow k).within n :=
  fun c hc => h c (List.mem_of_mem_filter hc)

/-- Canonical memories that read the same everywhere are the same data. -/
theorem Memory.ext_of_read {m m' : Memory} (h : m.wf) (h' : m'.wf) (hr : ∀ a, m.read a = m'.read a) : m = m' := by
  induction m generalizing m' with
  | nil =>
    cases m' with
    | nil => rfl
    | cons d m' =>
      have := hr d.1
      rw [Memory.read_cons, if_pos rfl] at this
      exact absurd this.symm (h'.2 d (by simp))
  | cons c m ih =>
    cases m' with
    | nil =>
      have := hr c.1
      rw [Memory.read_cons, if_pos rfl] at this
      exact absurd this (h.2 c (by simp))
    | cons d m' =>
      have hp := List.pairwise_cons.1 h.1
      have hp' := List.pairwise_cons.1 h'.1
      have hm : ∀ a ≤ c.1, Memory.read m a = unlistedByte := fun a ha =>
        Memory.read_unlisted m a fun e he => by have := hp.1 e he; omega
      have hm' : ∀ a ≤ d.1, Memory.read m' a = unlistedByte := fun a ha =>
        Memory.read_unlisted m' a fun e he => by have := hp'.1 e he; omega
      have hc := hr c.1
      have hd := hr d.1
      rw [Memory.read_cons, if_pos rfl, Memory.read_cons] at hc
      rw [Memory.read_cons, Memory.read_cons, if_pos rfl] at hd
      have hcv := h.2 c (by simp)
      have hdv := h'.2 d (by simp)
      have heq : c.1 = d.1 := by
        by_contra hne
        rw [if_neg (Ne.symm hne)] at hc
        rw [if_neg hne] at hd
        rcases Nat.lt_or_ge c.1 d.1 with hlt | hge
        · exact hcv (hc.trans (hm' _ (by omega)))
        · exact hdv (hd.symm.trans (hm _ (by omega)))
      rw [if_pos heq.symm] at hc
      have hcd : c = d := Prod.ext heq hc
      subst hcd
      congr 1
      refine ih ⟨hp.2, fun e he => h.2 e (by simp [he])⟩ ⟨hp'.2, fun e he => h'.2 e (by simp [he])⟩ fun a => ?_
      by_cases ha : c.1 = a
      · rw [hm a (by omega), hm' a (by omega)]
      · have := hr a
        rwa [Memory.read_cons, Memory.read_cons, if_neg ha, if_neg ha] at this

theorem Memory.wf_foldl_write (l : List Nat) (v : Byte) (m : Memory) (h : m.wf) :
    Memory.wf (l.foldl (fun m i => m.write i v) m) := by
  induction l generalizing m with
  | nil => exact h
  | cons i l ih => exact ih _ (Memory.wf_write m i v h)

theorem Memory.read_foldl_write (l : List Nat) (v : Byte) (m : Memory) (a : Nat) :
    Memory.read (l.foldl (fun m i => m.write i v) m) a = if a ∈ l then v else m.read a := by
  induction l generalizing m with
  | nil => simp
  | cons i l ih =>
    rw [List.foldl_cons, ih, Memory.read_write]
    by_cases ha : a ∈ l
    · simp [ha]
    · by_cases hi : i = a
      · simp [hi]
      · simp [ha, hi, Ne.symm hi]

/-- `zeroBelow` is the byte by byte loop of `CREATE_OWNED` line 4 (R141). -/
theorem Memory.zeroBelow_eq_loop (m : Memory) (n : Nat) (h : m.wf) :
    m.zeroBelow n = (List.range n).foldl (fun m i => m.write i 0#8) m := by
  refine Memory.ext_of_read (Memory.wf_zeroBelow m n h) (Memory.wf_foldl_write _ _ _ h) fun a => ?_
  rw [Memory.read_zeroBelow, Memory.read_foldl_write]
  simp [unlistedByte]

end Sys2Proof.Machine
end

