-- ==== Sys2Proof/Laws/State.lean ====
section
/-! SUPPORT. What each update of the state changes and leaves: one lemma per field per update, and read after write for
contexts, private RAMs and single bytes, so that no later proof unfolds an update. -/

namespace Sys2Proof.Machine

/-! ## The response register -/

section
variable (s : State) (r r' : Response) (h : Nat) (l : Loc) (v : Byte)

/-- The state with another response in RESP. -/
abbrev State.withResp (s : State) (r : Response) : State := { s with resp := r }

@[simp] theorem State.withResp_queue : ({ s with resp := r } : State).queue h = s.queue h := by cases h <;> rfl
@[simp] theorem State.withResp_ctx : ({ s with resp := r } : State).ctx h = s.ctx h := by
  simp [State.ctx]
@[simp] theorem State.withResp_ram : ({ s with resp := r } : State).ram h = s.ram h := by
  simp [State.ram]
@[simp] theorem State.withResp_nq : ({ s with resp := r } : State).nq = s.nq := rfl
@[simp] theorem State.withResp_readLoc : ({ s with resp := r } : State).readLoc l = s.readLoc l := by
  cases l <;> simp [State.readLoc]

end

/-! ## The host's pending actions -/

section
variable (s : State) (es : List HostEvent) (h : Nat) (l : Loc)

@[simp] theorem State.withHost_queue : ({ s with host := es } : State).queue h = s.queue h := by cases h <;> rfl
@[simp] theorem State.withHost_ctx : ({ s with host := es } : State).ctx h = s.ctx h := by
  simp [State.ctx]
@[simp] theorem State.withHost_ram : ({ s with host := es } : State).ram h = s.ram h := by
  simp [State.ram]
@[simp] theorem State.withHost_nq : ({ s with host := es } : State).nq = s.nq := rfl
@[simp] theorem State.withHost_readLoc : ({ s with host := es } : State).readLoc l = s.readLoc l := by
  cases l <;> simp [State.readLoc]

end

/-! ## Contexts and private RAMs -/

section
variable (s : State) (h h' : Nat) (f : Queue → Queue) (g : Ctx → Ctx) (k : Memory → Memory)

@[simp] theorem State.modifyQueue_params : (s.modifyQueue h f).params = s.params := by cases h <;> rfl
@[simp] theorem State.modifyQueue_mem : (s.modifyQueue h f).mem = s.mem := by cases h <;> rfl
@[simp] theorem State.modifyQueue_resp : (s.modifyQueue h f).resp = s.resp := by cases h <;> rfl
@[simp] theorem State.modifyQueue_host : (s.modifyQueue h f).host = s.host := by cases h <;> rfl
@[simp] theorem State.modifyQueue_nq : (s.modifyQueue h f).nq = s.nq := by
  cases h <;> simp [State.modifyQueue, State.nq]

/-- A present handle's queue after a change of some handle's queue. -/
theorem State.modifyQueue_queue (hp : s.qPresent h) :
    (s.modifyQueue h f).queue h' = if h = h' then f (s.queue h) else s.queue h' := by
  obtain ⟨h1, h2⟩ := hp
  obtain ⟨k, rfl⟩ : ∃ k, h = k + 1 := ⟨h - 1, by omega⟩
  have hk : k < s.queues.length := by simp [State.nq] at h2; omega
  cases h' with
  | zero => simp [State.queue]
  | succ j =>
    simp only [State.modifyQueue, State.queue, List.getD_eq_getElem?_getD, List.getElem?_modify, Nat.add_right_cancel_iff]
    split
    · subst_vars; simp [hk]
    · simp

/-- A handle that names no context changes nothing. -/
theorem State.modifyQueue_absent (hp : ¬ s.qPresent h) : s.modifyQueue h f = s := by
  cases h with
  | zero => rfl
  | succ k =>
    have hk : s.queues.length ≤ k := by
      simp only [State.qPresent, State.nq, Nat.le_add_left, true_and, Nat.not_le] at hp
      omega
    simp only [State.modifyQueue]
    rw [List.modify_eq_self hk]

theorem State.modifyQueue_queue_ne (hne : h ≠ h') : (s.modifyQueue h f).queue h' = s.queue h' := by
  by_cases hp : s.qPresent h
  · rw [State.modifyQueue_queue s h h' f hp, if_neg hne]
  · rw [State.modifyQueue_absent s h f hp]

@[simp] theorem State.modifyCtx_params : (s.modifyCtx h g).params = s.params := State.modifyQueue_params ..
@[simp] theorem State.modifyCtx_mem : (s.modifyCtx h g).mem = s.mem := State.modifyQueue_mem ..
@[simp] theorem State.modifyCtx_resp : (s.modifyCtx h g).resp = s.resp := State.modifyQueue_resp ..
@[simp] theorem State.modifyCtx_host : (s.modifyCtx h g).host = s.host := State.modifyQueue_host ..
@[simp] theorem State.modifyCtx_nq : (s.modifyCtx h g).nq = s.nq := State.modifyQueue_nq ..
@[simp] theorem State.modifyRam_params : (s.modifyRam h k).params = s.params := State.modifyQueue_params ..
@[simp] theorem State.modifyRam_mem : (s.modifyRam h k).mem = s.mem := State.modifyQueue_mem ..
@[simp] theorem State.modifyRam_resp : (s.modifyRam h k).resp = s.resp := State.modifyQueue_resp ..
@[simp] theorem State.modifyRam_host : (s.modifyRam h k).host = s.host := State.modifyQueue_host ..
@[simp] theorem State.modifyRam_nq : (s.modifyRam h k).nq = s.nq := State.modifyQueue_nq ..

theorem State.modifyCtx_ctx (hp : s.qPresent h) :
    (s.modifyCtx h g).ctx h' = if h = h' then g (s.ctx h) else s.ctx h' := by
  simp only [State.ctx, State.modifyCtx, State.modifyQueue_queue s h h' _ hp]
  split <;> rfl

@[simp] theorem State.modifyCtx_ram : (s.modifyCtx h g).ram h' = s.ram h' := by
  by_cases hp : s.qPresent h
  · simp only [State.ram, State.modifyCtx, State.modifyQueue_queue s h h' _ hp]
    split <;> simp_all
  · rw [State.modifyCtx, State.modifyQueue_absent s h _ hp]

@[simp] theorem State.modifyRam_ctx : (s.modifyRam h k).ctx h' = s.ctx h' := by
  by_cases hp : s.qPresent h
  · simp only [State.ctx, State.modifyRam, State.modifyQueue_queue s h h' _ hp]
    split <;> simp_all
  · rw [State.modifyRam, State.modifyQueue_absent s h _ hp]

theorem State.modifyRam_ram (hp : s.qPresent h) :
    (s.modifyRam h k).ram h' = if h = h' then k (s.ram h) else s.ram h' := by
  simp only [State.ram, State.modifyRam, State.modifyQueue_queue s h h' _ hp]
  split <;> rfl

theorem State.modifyCtx_queue_ne (hne : h ≠ h') : (s.modifyCtx h g).queue h' = s.queue h' :=
  State.modifyQueue_queue_ne s h h' _ hne

theorem State.modifyRam_queue_ne (hne : h ≠ h') : (s.modifyRam h k).queue h' = s.queue h' :=
  State.modifyQueue_queue_ne s h h' _ hne

@[simp] theorem State.modifyCtx_readLoc (l : Loc) : (s.modifyCtx h g).readLoc l = s.readLoc l := by
  cases l <;> simp [State.readLoc]

/-- A present handle names an entry of `queues`. -/
theorem State.queue_mem (hp : s.qPresent h) : s.queue h ∈ s.queues := by
  obtain ⟨h1, h2⟩ := hp
  obtain ⟨k, rfl⟩ : ∃ k, h = k + 1 := ⟨h - 1, by omega⟩
  have hk : k < s.queues.length := by simp [State.nq] at h2; omega
  simp [State.queue, hk]

/-- Every entry of `queues` has a present handle. -/
theorem State.exists_handle (q : Queue) (hq : q ∈ s.queues) : ∃ h, s.qPresent h ∧ s.queue h = q := by
  obtain ⟨k, hk, rfl⟩ := List.getElem_of_mem hq
  exact ⟨k + 1, ⟨by omega, hk⟩, by simp [State.queue, hk]⟩

/-- "For every entry" and "for every present handle" say the same. -/
theorem State.forall_queues (p : Queue → Prop) :
    (∀ q ∈ s.queues, p q) ↔ ∀ h, s.qPresent h → p (s.queue h) := by
  constructor
  · exact fun hq h hp => hq _ (s.queue_mem h hp)
  · intro hq q hm
    obtain ⟨h, hp, rfl⟩ := s.exists_handle q hm
    exact hq h hp

/-- Two states with the same queue under every handle and the same number of queues have the same list. -/
theorem State.queues_ext (t : State) (hn : s.nq = t.nq) (hq : ∀ h, s.queue h = t.queue h) : s.queues = t.queues := by
  refine List.ext_getElem hn fun k hk hk' => ?_
  have := hq (k + 1)
  simpa [State.queue, hk, hk'] using this

end

/-! ## One byte -/

/-- The location has a byte: every address of `M` does, a private RAM does when its handle is present. -/
abbrev Loc.present (s : State) : Loc → Prop
  | .mem _ => True
  | .ram h _ => s.qPresent h

section
variable (s : State) (l l' : Loc) (v : Byte) (h : Nat)

@[simp] theorem State.writeLoc_params : (s.writeLoc l v).params = s.params := by cases l <;> simp [State.writeLoc]
@[simp] theorem State.writeLoc_resp : (s.writeLoc l v).resp = s.resp := by cases l <;> simp [State.writeLoc]
@[simp] theorem State.writeLoc_host : (s.writeLoc l v).host = s.host := by cases l <;> simp [State.writeLoc]
@[simp] theorem State.writeLoc_nq : (s.writeLoc l v).nq = s.nq := by
  cases l with
  | mem a => rfl
  | ram h i => simp [State.writeLoc]
@[simp] theorem State.writeLoc_ctx : (s.writeLoc l v).ctx h = s.ctx h := by
  cases l with
  | mem a => cases h <;> rfl
  | ram g i => simp [State.writeLoc]
@[simp] theorem State.writeLoc_qbuf : (s.writeLoc l v).qbuf h = s.qbuf h := by simp [State.qbuf]

theorem State.writeLoc_queue_ne (hl : ∀ i, l ≠ .ram h i) : (s.writeLoc l v).queue h = s.queue h := by
  cases l with
  | mem a => cases h <;> rfl
  | ram g i =>
    have : g ≠ h := fun e => hl i (by rw [e])
    exact State.modifyRam_queue_ne s g h _ this

theorem State.writeLoc_mem_ram (h i : Nat) : (s.writeLoc (.ram h i) v).mem = s.mem := by simp [State.writeLoc]

/-- Read after write of one byte. -/
theorem State.readLoc_writeLoc (hl : l.present s) :
    (s.writeLoc l v).readLoc l' = if l = l' then v else s.readLoc l' := by
  cases l with
  | mem a =>
    cases l' with
    | mem b => simp [State.writeLoc, State.readLoc, Memory.read_write]
    | ram h i =>
      have : ({ s with mem := s.mem.write a v } : State).ram h = s.ram h := by cases h <;> rfl
      simp [State.writeLoc, State.readLoc, this]
  | ram h i =>
    cases l' with
    | mem b => simp [State.writeLoc, State.readLoc]
    | ram h' j =>
      simp only [State.writeLoc, State.readLoc, State.modifyRam_ram s h h' _ hl, Loc.ram.injEq]
      by_cases hh : h = h'
      · subst hh; simp [Memory.read_write]
      · simp [hh]

/-- A write leaves every other byte alone, wherever it goes. -/
theorem State.readLoc_writeLoc_ne (hne : l ≠ l') : (s.writeLoc l v).readLoc l' = s.readLoc l' := by
  by_cases hl : l.present s
  · rw [State.readLoc_writeLoc s l l' v hl, if_neg hne]
  · cases l with
    | mem a => exact absurd trivial hl
    | ram h i => rw [State.writeLoc, State.modifyRam, State.modifyQueue_absent s h _ hl]

end

end Sys2Proof.Machine
end

