-- ==== Sys2Proof/Laws/Transfer.lean ====
section
/-! SUPPORT. What the transfer primitive does, bit by bit: which runs it performs (40_transfer R120, R125), which bits
it may change, the closed form without overlap (R124), the clear of ring bits (R123) and the cursor advance (R122). -/

namespace Sys2Proof.Machine

/-! ## Buffers and bits -/

theorem bitAt_eq (s : State) (B : Buf) (p : Nat) : bitAt s B p = s.locBit (B.loc (p / 8)) (p % 8) := rfl

/-- Two states with the same bits at a location have the same byte there. -/
theorem State.readLoc_ext {s t : State} {l : Loc} (h : ∀ b < 8, s.locBit l b = t.locBit l b) :
    s.readLoc l = t.readLoc l := BitVec.eq_of_getLsbD_eq h

/-- Byte indexes below `2^32` of one buffer are different bytes (R57). -/
theorem Buf.loc_inj {B : Buf} {i j : Nat} (hi : i < 2 ^ AW) (hj : j < 2 ^ AW) (h : B.loc i = B.loc j) : i = j := by
  cases B with
  | ext a => simp only [Buf.loc, memLoc, Loc.mem.injEq, AW] at *; omega
  | int h => simpa [Buf.loc] using h

/-- The buffer's bytes exist: any buffer of `M`, the private RAM of a present handle. -/
abbrev Buf.present (s : State) : Buf → Prop
  | .ext _ => True
  | .int h => s.qPresent h

theorem Buf.loc_present {s : State} {B : Buf} (h : B.present s) (i : Nat) : (B.loc i).present s := by
  cases B <;> exact h

@[simp] theorem bufWrite_params (s : State) (B : Buf) (i : Nat) (v : Byte) :
    (bufWrite s B i v).params = s.params := State.writeLoc_params ..
@[simp] theorem bufWrite_resp (s : State) (B : Buf) (i : Nat) (v : Byte) :
    (bufWrite s B i v).resp = s.resp := State.writeLoc_resp ..
@[simp] theorem bufWrite_host (s : State) (B : Buf) (i : Nat) (v : Byte) :
    (bufWrite s B i v).host = s.host := State.writeLoc_host ..
@[simp] theorem bufWrite_nq (s : State) (B : Buf) (i : Nat) (v : Byte) :
    (bufWrite s B i v).nq = s.nq := State.writeLoc_nq ..
@[simp] theorem bufWrite_ctx (s : State) (B : Buf) (i : Nat) (v : Byte) (h : Nat) :
    (bufWrite s B i v).ctx h = s.ctx h := State.writeLoc_ctx ..

/-! ## One run -/

theorem lowMask_getLsbD (len i : Nat) : (lowMask len).getLsbD i = (decide (i < 8) && decide (i < len)) := by
  simp [lowMask, BitVec.getLsbD_ofNat, Nat.testBit_two_pow_sub_one]

/-- The runs' lengths keep inside one byte of each side (R120). -/
structure Run.Fits (r : Run) : Prop where
  pos : 1 ≤ r.len
  dst : r.dst % 8 + r.len ≤ 8
  src : r.src % 8 + r.len ≤ 8

/-- A bit after one run: set before, or a moved bit that the source held (R118, R119). -/
theorem copyRun_locBit {D S : Buf} {s : State} {r : Run} (hr : r.Fits) (hp : D.present s) (l : Loc) (b : Nat)
    (hb : b < 8) :
    (copyRun D S s r).locBit l b = true ↔
      s.locBit l b = true ∨
        ∃ j < r.len, l = D.loc ((r.dst + j) / 8) ∧ b = (r.dst + j) % 8 ∧ bitAt s S (r.src + j) = true := by
  obtain ⟨h1, h2, h3⟩ := hr
  have hbyte : ∀ j < r.len, (r.dst + j) / 8 = r.dst / 8 ∧ (r.dst + j) % 8 = r.dst % 8 + j ∧
      (r.src + j) / 8 = r.src / 8 ∧ (r.src + j) % 8 = r.src % 8 + j := fun j hj => by omega
  simp only [copyRun, bufWrite, State.locBit, State.readLoc_writeLoc s _ l _ (Buf.loc_present hp _)]
  by_cases hl : D.loc (r.dst / 8) = l
  · subst hl
    simp only [if_true, BitVec.getLsbD_or, BitVec.getLsbD_shiftLeft, BitVec.getLsbD_and, BitVec.getLsbD_ushiftRight,
      lowMask_getLsbD, bufRead, Bool.or_eq_true, Bool.and_eq_true, decide_eq_true_eq, Bool.not_eq_true',
      decide_eq_false_iff_not]
    refine or_congr Iff.rfl ⟨?_, ?_⟩
    · rintro ⟨⟨hb', hge⟩, hv, hlt, hrun⟩
      refine ⟨b - r.dst % 8, hrun, ?_, ?_, ?_⟩
      · rw [(hbyte _ hrun).1]
      · rw [(hbyte _ hrun).2.1]; omega
      · rw [bitAt_eq, (hbyte _ hrun).2.2.1, (hbyte _ hrun).2.2.2]; exact hv
    · rintro ⟨j, hj, -, hbj, hv⟩
      rw [bitAt_eq, (hbyte j hj).2.2.1, (hbyte j hj).2.2.2] at hv
      rw [(hbyte j hj).2.1] at hbj
      have : b - r.dst % 8 = j := by omega
      rw [this]
      exact ⟨⟨hb, by omega⟩, hv, by omega, hj⟩
  · rw [if_neg hl]
    refine ⟨Or.inl, fun h => h.elim id ?_⟩
    rintro ⟨j, hj, hlj, -⟩
    rw [(hbyte j hj).1] at hlj
    exact absurd hlj.symm hl

/-- A run changes no bit outside its `len` destination positions. -/
theorem copyRun_locBit_ne {D S : Buf} {s : State} {r : Run} (hr : r.Fits) (l : Loc) (b : Nat) (hb : b < 8)
    (hne : ∀ j < r.len, ¬ (l = D.loc ((r.dst + j) / 8) ∧ b = (r.dst + j) % 8)) :
    (copyRun D S s r).locBit l b = s.locBit l b := by
  by_cases hp : D.present s
  · rw [Bool.eq_iff_iff, copyRun_locBit hr hp l b hb]
    refine ⟨fun h => h.elim id ?_, Or.inl⟩
    rintro ⟨j, hj, h1, h2, -⟩
    exact absurd ⟨h1, h2⟩ (hne j hj)
  · cases D with
    | ext a => exact absurd trivial hp
    | int h =>
      simp only [copyRun, bufWrite, Buf.loc, State.writeLoc, State.modifyRam, State.modifyQueue_absent s h _ hp]

/-! ## The list of runs -/

theorem runLength_pos (dst src rem : Nat) (h : 0 < rem) : 1 ≤ runLength dst src rem := by
  have := Nat.mod_lt dst (show 0 < 8 by omega)
  have := Nat.mod_lt src (show 0 < 8 by omega)
  simp only [runLength]; omega

theorem runLength_le (dst src rem : Nat) : runLength dst src rem ≤ rem := by simp only [runLength]; omega

theorem runLength_fits (dst src rem : Nat) (h : 0 < rem) : Run.Fits ⟨dst, src, runLength dst src rem⟩ := by
  have h1 := Nat.mod_lt dst (show 0 < 8 by omega)
  have h2 := Nat.mod_lt src (show 0 < 8 by omega)
  exact ⟨runLength_pos dst src rem h, by simp only [runLength]; omega, by simp only [runLength]; omega⟩

theorem copyRuns_zero (fuel dst src : Nat) : copyRuns fuel dst src 0 = [] := by cases fuel <;> simp [copyRuns]

theorem copyRuns_succ (fuel dst src rem : Nat) (h : 0 < rem) :
    copyRuns (fuel + 1) dst src rem =
      ⟨dst, src, runLength dst src rem⟩ ::
        copyRuns fuel (dst + runLength dst src rem) (src + runLength dst src rem) (rem - runLength dst src rem) := by
  simp only [copyRuns, if_neg (Nat.ne_of_gt h)]

/-- The place of every run in its copy (R125): it fits one byte of each side, and lies inside the copied range, at the
same distance from the start on both sides. -/
theorem mem_copyRuns {fuel dst src rem : Nat} {r : Run} (h : r ∈ copyRuns fuel dst src rem) :
    r.Fits ∧ dst ≤ r.dst ∧ r.dst + r.len ≤ dst + rem ∧ r.src + dst = r.dst + src := by
  induction fuel generalizing dst src rem with
  | zero => simp [copyRuns] at h
  | succ fuel ih =>
    rcases Nat.eq_zero_or_pos rem with rfl | hrem
    · simp [copyRuns] at h
    · have hle := runLength_le dst src rem
      rw [copyRuns_succ _ _ _ _ hrem, List.mem_cons] at h
      rcases h with rfl | h
      · exact ⟨runLength_fits dst src rem hrem, Nat.le_refl _, by simp only; omega, by simp only; omega⟩
      · obtain ⟨h1, h2, h3, h4⟩ := ih h
        exact ⟨h1, by omega, by omega, by omega⟩

/-! ## The whole copy -/

/-- The bits of a copy moved, lines 9 to 17 of the primitive. -/
abbrev copyMove (D : Buf) (d : Nat) (S : Buf) (p m : Nat) (s : State) : State :=
  (copyRuns m d p m).foldl (copyRun D S) s

/-- What holds before a copy and survives every byte write to the destination bytes of the copied range holds after. -/
theorem copyMove_induct {P : State → Prop} {D S : Buf} {d p m : Nat} {s : State} (h0 : P s)
    (hw : ∀ s q v, P s → d ≤ q → q < d + m → P (bufWrite s D (q / 8) v)) : P (copyMove D d S p m s) := by
  have key : ∀ (l : List Run), (∀ r ∈ l, d ≤ r.dst ∧ r.dst < d + m) → ∀ s, P s → P (l.foldl (copyRun D S) s) := by
    intro l
    induction l with
    | nil => exact fun _ s h => h
    | cons r l ih =>
      intro hl s hs
      have := hl r (by simp)
      exact ih (fun r hr => hl r (by simp [hr])) _ (hw s _ _ hs this.1 this.2)
  refine key _ (fun r hr => ?_) s h0
  obtain ⟨hf, h1, h2, -⟩ := mem_copyRuns hr
  have := hf.pos
  omega

/-- A copy changes no bit outside its destination positions, whatever overlaps (R119). -/
theorem copyRuns_locBit_ne {D S : Buf} {fuel d p m : Nat} {s : State} (l : Loc) (b : Nat) (hb : b < 8)
    (hne : ∀ j < m, ¬ (l = D.loc ((d + j) / 8) ∧ b = (d + j) % 8)) :
    ((copyRuns fuel d p m).foldl (copyRun D S) s).locBit l b = s.locBit l b := by
  induction fuel generalizing d p m s with
  | zero => rfl
  | succ fuel ih =>
    rcases Nat.eq_zero_or_pos m with rfl | hm
    · rw [copyRuns_zero]; rfl
    · have hle := runLength_le d p m
      rw [copyRuns_succ _ _ _ _ hm, List.foldl_cons, ih, copyRun_locBit_ne (runLength_fits d p m hm) l b hb]
      · exact fun j hj => hne j (by simp only at hj; omega)
      · intro j hj
        have := hne (runLength d p m + j) (by omega)
        rwa [← Nat.add_assoc] at this

/-- A copy never clears a bit, whatever overlaps (R119). -/
theorem copyRuns_locBit_mono {D S : Buf} {fuel d p m : Nat} {s : State} (l : Loc) (b : Nat) (hb : b < 8)
    (hs : s.locBit l b = true) : ((copyRuns fuel d p m).foldl (copyRun D S) s).locBit l b = true := by
  induction fuel generalizing d p m s with
  | zero => exact hs
  | succ fuel ih =>
    rcases Nat.eq_zero_or_pos m with rfl | hm
    · rw [copyRuns_zero]; exact hs
    · rw [copyRuns_succ _ _ _ _ hm, List.foldl_cons]
      refine ih ?_
      by_cases hp : D.present s
      · exact (copyRun_locBit (runLength_fits d p m hm) hp l b hb).2 (Or.inl hs)
      · cases D with
        | ext a => exact absurd trivial hp
        | int h =>
          simpa only [copyRun, bufWrite, Buf.loc, State.writeLoc, State.modifyRam, State.modifyQueue_absent s h _ hp]
            using hs

theorem present_bufWrite {s : State} {B B' : Buf} {i : Nat} {v : Byte} (h : B.present s) :
    B.present (bufWrite s B' i v) := by
  cases B with
  | ext a => trivial
  | int g => simpa [Buf.present, State.qPresent] using h

theorem present_copyRun {s : State} {B D S : Buf} {r : Run} (h : B.present s) : B.present (copyRun D S s r) :=
  present_bufWrite h

theorem present_clearRun {s : State} {B B' : Buf} {r : Nat × Nat} (h : B.present s) : B.present (clearRun B' s r) :=
  present_bufWrite h

/-- The closed form of a copy without overlap (R124): each destination bit becomes `old | source`. -/
theorem copyRuns_bitAt {D S : Buf} {fuel d p m : Nat} {s : State} (hf : m ≤ fuel) (hp : D.present s)
    (hin : d + m ≤ 8 * 2 ^ AW) (hno : NoOverlap D d S p m) (j : Nat) (hj : j < m) :
    bitAt ((copyRuns fuel d p m).foldl (copyRun D S) s) D (d + j) = (bitAt s D (d + j) || bitAt s S (p + j)) := by
  induction fuel generalizing d p m s j with
  | zero => omega
  | succ fuel ih =>
    have hm : 0 < m := by omega
    have hpos := runLength_pos d p m hm
    have hle := runLength_le d p m
    have hfit := runLength_fits d p m hm
    rw [copyRuns_succ _ _ _ _ hm, List.foldl_cons]
    generalize hrun : runLength d p m = run at *
    by_cases hjr : j < run
    · rw [bitAt_eq, copyRuns_locBit_ne _ _ (Nat.mod_lt _ (by omega))]
      · rw [Bool.eq_iff_iff, copyRun_locBit hfit hp _ _ (Nat.mod_lt _ (by omega)), Bool.or_eq_true, bitAt_eq s D]
        refine or_congr Iff.rfl ⟨?_, fun h => ⟨j, hjr, rfl, rfl, h⟩⟩
        rintro ⟨i, hi, h1, h2, h3⟩
        dsimp only at hi h1 h2 h3
        have := Buf.loc_inj (B := D) (by simp only [AW] at *; omega) (by simp only [AW] at *; omega) h1
        have : i = j := by omega
        rwa [this] at h3
      · rintro i hi ⟨h1, h2⟩
        have := Buf.loc_inj (B := D) (by simp only [AW] at *; omega) (by simp only [AW] at *; omega) h1
        omega
    · obtain ⟨k, rfl⟩ : ∃ k, j = run + k := ⟨j - run, by omega⟩
      have hk : k < m - run := by omega
      rw [← Nat.add_assoc, ← Nat.add_assoc, ih (by omega) (present_copyRun hp) (by omega) ?_ k hk]
      · congr 1
        · rw [bitAt_eq, copyRun_locBit_ne hfit _ _ (Nat.mod_lt _ (by omega)), ← bitAt_eq]
          rintro i hi ⟨h1, h2⟩
          dsimp only at hi h1 h2
          have := Buf.loc_inj (B := D) (by simp only [AW] at *; omega) (by simp only [AW] at *; omega) h1
          omega
        · rw [bitAt_eq, copyRun_locBit_ne hfit _ _ (Nat.mod_lt _ (by omega)), ← bitAt_eq]
          rintro i hi ⟨h1, h2⟩
          dsimp only at hi h1 h2
          refine hno i (by omega) (run + k) (by omega) ?_
          rw [← Nat.add_assoc]
          exact h1.symm
      · intro i hi i' hi'
        rw [Nat.add_assoc, Nat.add_assoc]
        exact hno _ (by omega) _ (by omega)

/-! ## The plan and the primitive -/

/-- When the primitive moves bits and how many (R113, R116, R117). -/
theorem copyPlan_transferred {dbyte dbit dcap sbyte sbit scap n m : Nat} :
    copyPlan dbyte dbit dcap sbyte sbit scap n = .transferred m ↔
      (1 ≤ n ∧ dbyte ≤ dcap ∧ sbyte ≤ scap ∧ dbit ≤ 7 ∧ sbit ≤ 7 ∧ n ≤ scap * 8) ∧
        linear dbyte dbit + n ≤ dcap * 8 ∧ m = min n (scap * 8 - linear sbyte sbit) := by
  simp only [copyPlan, linear]
  split
  · simp; omega
  split
  · simp; omega
  split
  · simp; omega
  split
  · simp; omega
  split
  · simp; omega
  · simp only [CopyResult.transferred.injEq]
    constructor
    · intro h; omega
    · intro h; omega

/-- When the primitive answers `InvalidArgument` (R113). -/
theorem copyPlan_invalid {dbyte dbit dcap sbyte sbit scap n : Nat} :
    copyPlan dbyte dbit dcap sbyte sbit scap n = .err .invalidArgument ↔
      n = 0 ∨ dbyte > dcap ∨ sbyte > scap ∨ dbit ≥ 8 ∨ sbit ≥ 8 ∨ n > scap * 8 := by
  simp only [copyPlan]
  split
  · simp [*]
  split
  · simp; omega
  split
  · simp; omega
  split
  · simp; omega
  split
  · simp; omega
  · simp; omega

/-- When the primitive answers `InsufficientSpace` (R115, R116). -/
theorem copyPlan_insufficient {dbyte dbit dcap sbyte sbit scap n : Nat} :
    copyPlan dbyte dbit dcap sbyte sbit scap n = .err .insufficientSpace ↔
      ¬ (n = 0 ∨ dbyte > dcap ∨ sbyte > scap ∨ dbit ≥ 8 ∨ sbit ≥ 8 ∨ n > scap * 8) ∧
        ((dcap : Int) - dbyte) * 8 - dbit < n := by
  simp only [copyPlan]
  split
  · simp; omega
  split
  · simp; omega
  split
  · simp; omega
  split
  · simp; omega
  split
  · simp; omega
  · simp; omega

/-- The primitive by its plan: an error touches nothing (R113, R116), a transfer moves the planned bits. -/
theorem copyBits_eq (D : Buf) (dbyte dbit dcap : Nat) (S : Buf) (sbyte sbit scap n : Nat) (s : State) :
    (∃ k, copyPlan dbyte dbit dcap sbyte sbit scap n = .err k ∧
        copyBits D dbyte dbit dcap S sbyte sbit scap n s = (.err k, s)) ∨
      ∃ m, copyPlan dbyte dbit dcap sbyte sbit scap n = .transferred m ∧
        copyBits D dbyte dbit dcap S sbyte sbit scap n s =
          (.transferred m, copyMove D (linear dbyte dbit) S (linear sbyte sbit) m s) := by
  cases h : copyPlan dbyte dbit dcap sbyte sbit scap n with
  | err k => exact Or.inl ⟨k, rfl, by simp [copyBits, h]⟩
  | transferred m => exact Or.inr ⟨m, rfl, by simp [copyBits, h]⟩

/-- Fuel beyond the number of bits adds no run (R125). -/
theorem copyRuns_fuel (fuel d p m : Nat) (hf : m ≤ fuel) : copyRuns fuel d p m = copyRuns m d p m := by
  induction m using Nat.strong_induction_on generalizing fuel d p with
  | _ m ih =>
    rcases Nat.eq_zero_or_pos m with rfl | hm
    · simp [copyRuns_zero]
    · obtain ⟨f, rfl⟩ : ∃ g, fuel = g + 1 := ⟨fuel - 1, by omega⟩
      obtain ⟨k, rfl⟩ : ∃ g, m = g + 1 := ⟨m - 1, by omega⟩
      have := runLength_pos d p (k + 1) hm
      have := runLength_le d p (k + 1)
      rw [copyRuns_succ _ _ _ _ hm, copyRuns_succ _ _ _ _ hm, ih _ (by omega) f _ _ (by omega),
        ih _ (by omega) k _ _ (by omega)]

/-- A copy is its first run, then the copy of the rest (R120). -/
theorem copyMove_split (D S : Buf) (d p m : Nat) (s : State) (h : 0 < m) :
    copyMove D d S p m s =
      copyMove D (d + runLength d p m) S (p + runLength d p m) (m - runLength d p m)
        (copyRun D S s ⟨d, p, runLength d p m⟩) := by
  obtain ⟨k, rfl⟩ : ∃ g, m = g + 1 := ⟨m - 1, by omega⟩
  have := runLength_pos d p (k + 1) h
  simp only [copyMove]
  rw [copyRuns_succ _ _ _ _ h, List.foldl_cons, copyRuns_fuel k _ _ _ (by omega)]

/-! ## What a copy leaves -/

section
variable (D S : Buf) (d p m : Nat) (s : State)

@[simp] theorem copyMove_params : (copyMove D d S p m s).params = s.params :=
  copyMove_induct (P := fun t => t.params = s.params) rfl fun t i v ht _ _ => by simpa using ht
@[simp] theorem copyMove_resp : (copyMove D d S p m s).resp = s.resp :=
  copyMove_induct (P := fun t => t.resp = s.resp) rfl fun t i v ht _ _ => by simpa using ht
@[simp] theorem copyMove_host : (copyMove D d S p m s).host = s.host :=
  copyMove_induct (P := fun t => t.host = s.host) rfl fun t i v ht _ _ => by simpa using ht
@[simp] theorem copyMove_nq : (copyMove D d S p m s).nq = s.nq :=
  copyMove_induct (P := fun t => t.nq = s.nq) rfl fun t i v ht _ _ => by simpa using ht
@[simp] theorem copyMove_ctx (h : Nat) : (copyMove D d S p m s).ctx h = s.ctx h :=
  copyMove_induct (P := fun t => t.ctx h = s.ctx h) rfl fun t i v ht _ _ => by simpa using ht
@[simp] theorem copyMove_qbuf (h : Nat) : (copyMove D d S p m s).qbuf h = s.qbuf h := by simp [State.qbuf]

/-- A copy into `M` changes no private RAM. -/
theorem copyMove_ext_queue (a h : Nat) : (copyMove (.ext a) d S p m s).queue h = s.queue h :=
  copyMove_induct (P := fun t => t.queue h = s.queue h) rfl fun t i v ht _ _ => by
    rw [bufWrite, State.writeLoc_queue_ne _ _ _ _ (by simp [Buf.loc, memLoc])]; exact ht

/-- A copy into `M` changes no context and no private RAM. -/
@[simp] theorem copyMove_ext_queues (a : Nat) : (copyMove (.ext a) d S p m s).queues = s.queues :=
  State.queues_ext _ _ (copyMove_nq ..) fun h => copyMove_ext_queue S d p m s a h

/-- A copy into the private RAM of `g` changes no other context's RAM. -/
theorem copyMove_int_queue (g h : Nat) (hne : g ≠ h) : (copyMove (.int g) d S p m s).queue h = s.queue h :=
  copyMove_induct (P := fun t => t.queue h = s.queue h) rfl fun t i v ht _ _ => by
    rw [bufWrite, State.writeLoc_queue_ne _ _ _ _ (by simp [Buf.loc, hne])]; exact ht

/-- A copy into a private RAM does not change `M`. -/
theorem copyMove_int_mem (g : Nat) : (copyMove (.int g) d S p m s).mem = s.mem :=
  copyMove_induct (P := fun t => t.mem = s.mem) rfl fun t i v ht _ _ => by
    rw [bufWrite, Buf.loc, State.writeLoc_mem_ram]; exact ht

end

/-! ## Clearing -/

theorem clearRun_locBit {B : Buf} {s : State} {q len : Nat} (hfit : q % 8 + len ≤ 8) (hp : B.present s) (l : Loc)
    (b : Nat) (hb : b < 8) :
    (clearRun B s (q, len)).locBit l b = true ↔
      s.locBit l b = true ∧ ∀ j < len, ¬ (l = B.loc ((q + j) / 8) ∧ b = (q + j) % 8) := by
  have hbyte : ∀ j < len, (q + j) / 8 = q / 8 ∧ (q + j) % 8 = q % 8 + j := fun j hj => by omega
  simp only [clearRun, bufWrite, State.locBit, State.readLoc_writeLoc s _ l _ (Buf.loc_present hp _)]
  by_cases hl : B.loc (q / 8) = l
  · subst hl
    simp only [if_true, BitVec.getLsbD_and, BitVec.getLsbD_not, BitVec.getLsbD_shiftLeft, lowMask_getLsbD, bufRead,
      Bool.and_eq_true, decide_eq_true_eq, Bool.not_eq_true', Bool.and_eq_false_iff, decide_eq_false_iff_not,
      Bool.not_eq_false']
    refine and_congr Iff.rfl ⟨?_, ?_⟩
    · rintro ⟨-, h⟩ j hj ⟨-, hbj⟩
      rw [(hbyte j hj).2] at hbj
      omega
    · intro h
      refine ⟨hb, ?_⟩
      by_contra hc
      have hj : b - q % 8 < len := by omega
      refine h (b - q % 8) hj ⟨by rw [(hbyte _ hj).1], ?_⟩
      rw [(hbyte _ hj).2]
      omega
  · rw [if_neg hl]
    refine ⟨fun h => ⟨h, ?_⟩, fun h => h.1⟩
    rintro j hj ⟨h1, -⟩
    rw [(hbyte j hj).1] at h1
    exact hl h1.symm

theorem clearRuns_succ (fuel p k : Nat) (h : 0 < k) :
    clearRuns (fuel + 1) p k =
      (p, min (8 - p % 8) k) :: clearRuns fuel (p + min (8 - p % 8) k) (k - min (8 - p % 8) k) := by
  simp only [clearRuns, if_neg (Nat.ne_of_gt h)]

theorem clearRuns_zero (fuel p : Nat) : clearRuns fuel p 0 = [] := by cases fuel <;> simp [clearRuns]

/-- The effect of `ClearBits` (R123): exactly the `k` bits from `p` on are 0. -/
theorem clearRuns_locBit {B : Buf} {fuel p k : Nat} {s : State} (hf : k ≤ fuel) (hp : B.present s) (l : Loc) (b : Nat)
    (hb : b < 8) :
    ((clearRuns fuel p k).foldl (clearRun B) s).locBit l b = true ↔
      s.locBit l b = true ∧ ∀ j < k, ¬ (l = B.loc ((p + j) / 8) ∧ b = (p + j) % 8) := by
  induction fuel generalizing p k s with
  | zero =>
    have : k = 0 := by omega
    subst this
    simp [clearRuns]
  | succ fuel ih =>
    rcases Nat.eq_zero_or_pos k with rfl | hk
    · simp [clearRuns]
    · have h8 := Nat.mod_lt p (show 0 < 8 by omega)
      have hrun : min (8 - p % 8) k ≤ k ∧ 1 ≤ min (8 - p % 8) k ∧ p % 8 + min (8 - p % 8) k ≤ 8 := by omega
      rw [clearRuns_succ _ _ _ hk, List.foldl_cons]
      generalize min (8 - p % 8) k = run at *
      rw [ih (by omega) (present_clearRun hp), clearRun_locBit hrun.2.2 hp l b hb, and_assoc]
      refine and_congr Iff.rfl ⟨?_, ?_⟩
      · rintro ⟨h1, h2⟩ j hj
        by_cases hjr : j < run
        · exact h1 j hjr
        · have := h2 (j - run) (by omega)
          rwa [show p + run + (j - run) = p + j by omega] at this
      · intro h
        refine ⟨fun j hj => h j (by omega), fun j hj => ?_⟩
        have := h (run + j) (by omega)
        rwa [← Nat.add_assoc] at this

theorem clearBits_locBit {B : Buf} {byte bit k : Nat} {s : State} (hp : B.present s) (l : Loc) (b : Nat) (hb : b < 8) :
    (clearBits B byte bit k s).locBit l b = true ↔
      s.locBit l b = true ∧
        ∀ j < k, ¬ (l = B.loc ((linear byte bit + j) / 8) ∧ b = (linear byte bit + j) % 8) :=
  clearRuns_locBit (Nat.le_refl k) hp l b hb

theorem mem_clearRuns {fuel p k : Nat} {r : Nat × Nat} (h : r ∈ clearRuns fuel p k) :
    p ≤ r.1 ∧ r.1 < p + k := by
  induction fuel generalizing p k with
  | zero => simp [clearRuns] at h
  | succ fuel ih =>
    rcases Nat.eq_zero_or_pos k with rfl | hk
    · simp [clearRuns] at h
    · have h8 := Nat.mod_lt p (show 0 < 8 by omega)
      rw [clearRuns_succ _ _ _ hk, List.mem_cons] at h
      rcases h with rfl | h
      · simp only; omega
      · have := ih h
        omega

/-- What holds before a clear and survives every byte write to the bytes of the cleared range holds after. -/
theorem clearBits_induct {P : State → Prop} {B : Buf} {byte bit k : Nat} {s : State} (h0 : P s)
    (hw : ∀ s q v, P s → linear byte bit ≤ q → q < linear byte bit + k → P (bufWrite s B (q / 8) v)) :
    P (clearBits B byte bit k s) := by
  have key : ∀ (l : List (Nat × Nat)), (∀ r ∈ l, linear byte bit ≤ r.1 ∧ r.1 < linear byte bit + k) →
      ∀ s, P s → P (l.foldl (clearRun B) s) := by
    intro l
    induction l with
    | nil => exact fun _ s h => h
    | cons r l ih =>
      intro hl s hs
      have := hl r (by simp)
      exact ih (fun r hr => hl r (by simp [hr])) _ (hw s _ _ hs this.1 this.2)
  exact key _ (fun r hr => mem_clearRuns hr) s h0

/-- A clear changes no bit outside its range, wherever it goes. -/
theorem clearBits_locBit_ne {B : Buf} {byte bit k : Nat} {s : State} (l : Loc) (b : Nat) (hb : b < 8)
    (hne : ∀ j < k, ¬ (l = B.loc ((linear byte bit + j) / 8) ∧ b = (linear byte bit + j) % 8)) :
    (clearBits B byte bit k s).locBit l b = s.locBit l b := by
  by_cases hp : B.present s
  · rw [Bool.eq_iff_iff, clearBits_locBit hp l b hb]
    exact ⟨fun h => h.1, fun h => ⟨h, hne⟩⟩
  · refine clearBits_induct (P := fun t => t.locBit l b = s.locBit l b ∧ ¬ B.present t) ⟨rfl, hp⟩ ?_ |>.1
    rintro t i v ⟨h1, h2⟩ - -
    cases B with
    | ext a => exact absurd trivial hp
    | int h =>
      rw [bufWrite, Buf.loc, State.writeLoc, State.modifyRam, State.modifyQueue_absent t h _ h2]
      exact ⟨h1, h2⟩

/-! ## The cursor -/

/-- `Advance` (R122) inside its precondition: the new position is `(old + k) mod capacity`, again inside the ring. -/
theorem advance_spec {byte bit k size : Nat} (h : linear byte bit + k ≤ size * 8)
    (hs : 1 ≤ size) :
    linear (advance byte bit k size).1 (advance byte bit k size).2 = (linear byte bit + k) % (size * 8) ∧
      (advance byte bit k size).1 < size ∧ (advance byte bit k size).2 ≤ 7 := by
  simp only [advance]
  generalize linear byte bit + k = t at *
  split
  · have : t = size * 8 := by omega
    subst this
    simp [linear]
    omega
  · have : t < size * 8 := by omega
    rw [Nat.mod_eq_of_lt this]
    simp only [linear]
    omega

end Sys2Proof.Machine
end

