-- ==== Sys2Proof/Laws/WriteRead.lean ====
section
/-! SUPPORT. What the loops of `WRITE_BITS` and `READ_BITS` do: from any state they answer a next state and change
only what their rules name; from a sound context they make one or two invocations and move all the bits asked
(42_write_read R157, R158, R164, R165). -/

namespace Sys2Proof.Machine

theorem linear_div_mod (p : Nat) : linear (p / 8) (p % 8) = p := by simp only [linear]; omega

theorem Ctx.wrPos_div_mod {c : Ctx} (h : c.wrBit ≤ 7) : c.wrByte = c.wrPos / 8 ∧ c.wrBit = c.wrPos % 8 := by
  simp only [Ctx.wrPos, linear]; omega

theorem Ctx.rdPos_div_mod {c : Ctx} (h : c.rdBit ≤ 7) : c.rdByte = c.rdPos / 8 ∧ c.rdBit = c.rdPos % 8 := by
  simp only [Ctx.rdPos, linear]; omega

theorem Ctx.wrPos_lt_cap {c : Ctx} (h : c.cursorsInRing) : c.wrPos < c.cap := by
  obtain ⟨h1, h2, h3, h4⟩ := h; simp only [Ctx.wrPos, Ctx.cap, linear]; omega

theorem Ctx.rdPos_lt_cap {c : Ctx} (h : c.cursorsInRing) : c.rdPos < c.cap := by
  obtain ⟨h1, h2, h3, h4⟩ := h; simp only [Ctx.rdPos, Ctx.cap, linear]; omega

/-- I-dist without remainders (R29): the read position plus the count is the write position, or that one lap on. -/
theorem Ctx.countIsDistance_iff {c : Ctx} (h : c.cursorsInRing) :
    c.countIsDistance ↔
      c.validBits ≤ c.cap ∧ (c.rdPos + c.validBits = c.wrPos ∨ c.rdPos + c.validBits = c.wrPos + c.cap) := by
  have hw := Ctx.wrPos_lt_cap h
  have hr := Ctx.rdPos_lt_cap h
  refine and_congr_right fun hv => ?_
  rw [Int.emod_eq_emod_iff_emod_sub_eq_zero]
  constructor
  · intro hd
    obtain ⟨k, hk⟩ := Int.dvd_of_emod_eq_zero hd
    have h1 : (c.cap : Int) * k < c.cap * 2 := by omega
    have h2 : (c.cap : Int) * k > c.cap * (-1) := by omega
    have hk2 := lt_of_mul_lt_mul_left h1 (by omega)
    have hk1 := lt_of_mul_lt_mul_left h2 (by omega)
    obtain rfl | rfl : k = 0 ∨ k = 1 := by omega
    · left; omega
    · right; omega
  · rintro (h | h)
    · rw [show (c.validBits : Int) - (c.wrPos - c.rdPos) = 0 by omega]; rfl
    · rw [show (c.validBits : Int) - (c.wrPos - c.rdPos) = c.cap by omega]; exact Int.emod_self

/-! ## From any state -/

section
variable {P : State → Prop} {h a cap count : Nat} {s : State}

theorem bufWrite_qbuf (s : State) (B : Buf) (i : Nat) (v : Byte) (h : Nat) : (bufWrite s B i v).qbuf h = s.qbuf h := by
  simp [State.qbuf]

/-- One invocation of `WRITE_BITS` keeps whatever survives byte writes to the ring's bytes below `BUF_SIZE`. -/
theorem writeInvocation_induct {moved : Nat} (h0 : P s)
    (hw : ∀ s i v, P s → i < (s.ctx h).bufSize → P (bufWrite s (s.qbuf h) i v)) :
    P (writeInvocation h a cap count moved s).2 ∧
      ∀ h', (writeInvocation h a cap count moved s).2.ctx h' = s.ctx h' := by
  have hroom : ∀ k, (s.ctx h).writeChunk k = 0 ∨
      linear (s.ctx h).wrByte (s.ctx h).wrBit + (s.ctx h).writeChunk k ≤ (s.ctx h).bufSize * 8 := by
    intro k; simp only [Ctx.writeChunk, linear]; omega
  have hw' : ∀ t i v, (P t ∧ ∀ h', t.ctx h' = s.ctx h') → i < (s.ctx h).bufSize →
      (P (bufWrite t (s.qbuf h) i v) ∧ ∀ h', (bufWrite t (s.qbuf h) i v).ctx h' = s.ctx h') := by
    rintro t i v ⟨ht, hctx⟩ hi
    have hb : s.qbuf h = t.qbuf h := by simp [State.qbuf, hctx]
    rw [hb]
    exact ⟨hw t i v ht (by rw [hctx]; exact hi), by simpa using hctx⟩
  have hpre : ∀ k, P (preclear h ((s.ctx h).writeChunk k) s) ∧
      ∀ h', (preclear h ((s.ctx h).writeChunk k) s).ctx h' = s.ctx h' := by
    intro k
    rw [preclear]
    split
    · refine clearBits_induct (P := fun t => P t ∧ ∀ h', t.ctx h' = s.ctx h') ⟨h0, fun _ => rfl⟩ ?_
      exact fun t q v ht h1 h2 => hw' t (q / 8) v ht (by rcases hroom k with hz | hz <;> omega)
    · exact ⟨h0, fun _ => rfl⟩
  rw [writeInvocation]
  rcases copyBits_eq (s.qbuf h) (s.ctx h).wrByte (s.ctx h).wrBit (s.ctx h).bufSize (.ext a) (moved / 8) (moved % 8)
    cap ((s.ctx h).writeChunk (count - moved)) (preclear h ((s.ctx h).writeChunk (count - moved)) s)
    with ⟨k, -, heq⟩ | ⟨m, hm, heq⟩
  · simp only [heq]; exact hpre _
  · simp only [heq]
    have hm := copyPlan_transferred.1 hm
    refine copyMove_induct (P := fun t => P t ∧ ∀ h', t.ctx h' = s.ctx h') (hpre _) ?_
    exact fun t q v ht h1 h2 => hw' t (q / 8) v ht (by omega)

/-- The loop of `WRITE_BITS` always answers a next state, and keeps whatever survives byte writes to the ring, changes
of the context it names and a response. -/
theorem writeLoop_induct {fuel moved : Nat} (h0 : P s)
    (hw : ∀ s i v, P s → i < (s.ctx h).bufSize → P (bufWrite s (s.qbuf h) i v))
    (hc : ∀ s k, P s → P (s.modifyCtx h (Ctx.advanceWrite k)))
    (hr : ∀ s r, P s → P { s with resp := r }) :
    ∃ t, writeLoop h a cap count fuel moved s = .next t ∧ P t := by
  induction fuel generalizing moved s with
  | zero => exact ⟨_, rfl, hr _ _ h0⟩
  | succ fuel ih =>
    rw [writeLoop]
    split
    · have hi := (writeInvocation_induct (a := a) (cap := cap) (count := count) (moved := moved) h0 hw).1
      split
      · rename_i heq
        rw [heq] at hi
        exact ⟨_, rfl, hr _ _ hi⟩
      · rename_i heq
        rw [heq] at hi
        split
        · exact ⟨_, rfl, hr _ _ hi⟩
        · exact ih (hc _ _ hi)
    · exact ⟨_, rfl, hr _ _ h0⟩

/-- One invocation of `READ_BITS` keeps whatever survives byte writes to the destination bytes that hold positions
below `COUNT`. -/
theorem readInvocation_induct {moved : Nat} (h0 : P s)
    (hw : ∀ s i v, P s → i * 8 < count → P (bufWrite s (.ext a) i v)) :
    P (readInvocation h a cap count moved s).2 := by
  rw [readInvocation]
  rcases copyBits_eq (.ext a) (moved / 8) (moved % 8) cap (s.qbuf h) (s.ctx h).rdByte (s.ctx h).rdBit
    (s.ctx h).bufSize (count - moved) s with ⟨k, -, heq⟩ | ⟨m, hm, heq⟩
  · simp only [heq]; exact h0
  · simp only [heq]
    have hm := copyPlan_transferred.1 hm
    rw [linear_div_mod]
    exact copyMove_induct h0 fun t q v ht h1 h2 => hw t (q / 8) v ht (by rw [linear_div_mod] at hm; omega)

/-- The loop of `READ_BITS` always answers a next state, and keeps whatever survives byte writes to the destination
bytes, changes of the context it names and a response. -/
theorem readLoop_induct {fuel moved : Nat} (h0 : P s)
    (hw : ∀ s i v, P s → i * 8 < count → P (bufWrite s (.ext a) i v))
    (hc : ∀ s k, P s → P (s.modifyCtx h (Ctx.advanceRead k)))
    (hr : ∀ s r, P s → P { s with resp := r }) :
    ∃ t, readLoop h a cap count fuel moved s = .next t ∧ P t := by
  induction fuel generalizing moved s with
  | zero => exact ⟨_, rfl, hr _ _ h0⟩
  | succ fuel ih =>
    rw [readLoop]
    split
    · have hi := readInvocation_induct (h := h) (cap := cap) (moved := moved) h0 hw
      split
      · rename_i heq
        rw [heq] at hi
        exact ⟨_, rfl, hr _ _ hi⟩
      · rename_i heq
        rw [heq] at hi
        split
        · exact ⟨_, rfl, hr _ _ hi⟩
        · exact ih (hc _ _ hi)
    · exact ⟨_, rfl, hr _ _ h0⟩

end

/-! ## One invocation from a sound context -/

/-- The state after an invocation of `WRITE_BITS` that moves `k` bits from source position `moved`. -/
def writeOnce (h saddr moved k : Nat) (s : State) : State :=
  (copyMove (s.qbuf h) (s.ctx h).wrPos (.ext saddr) moved k (preclear h k s)).modifyCtx h (Ctx.advanceWrite k)

/-- The state after an invocation of `READ_BITS` that moves `k` bits to destination position `moved`. -/
def readOnce (h daddr moved k : Nat) (s : State) : State :=
  (copyMove (.ext daddr) moved (s.qbuf h) (s.ctx h).rdPos k s).modifyCtx h (Ctx.advanceRead k)

section
variable (h a moved k : Nat) (s : State)

@[simp] theorem preclear_params : (preclear h k s).params = s.params := by
  rw [preclear]; split
  · exact clearBits_induct (P := fun t => t.params = s.params) rfl fun t i v ht _ _ => by simpa using ht
  · rfl
@[simp] theorem preclear_host : (preclear h k s).host = s.host := by
  rw [preclear]; split
  · exact clearBits_induct (P := fun t => t.host = s.host) rfl fun t i v ht _ _ => by simpa using ht
  · rfl
@[simp] theorem preclear_nq : (preclear h k s).nq = s.nq := by
  rw [preclear]; split
  · exact clearBits_induct (P := fun t => t.nq = s.nq) rfl fun t i v ht _ _ => by simpa using ht
  · rfl
@[simp] theorem preclear_ctx (h' : Nat) : (preclear h k s).ctx h' = s.ctx h' := by
  rw [preclear]; split
  · exact clearBits_induct (P := fun t => t.ctx h' = s.ctx h') rfl fun t i v ht _ _ => by simpa using ht
  · rfl

@[simp] theorem writeOnce_params : (writeOnce h a moved k s).params = s.params := by simp [writeOnce]
@[simp] theorem writeOnce_host : (writeOnce h a moved k s).host = s.host := by simp [writeOnce]
@[simp] theorem writeOnce_nq : (writeOnce h a moved k s).nq = s.nq := by simp [writeOnce]
@[simp] theorem readOnce_params : (readOnce h a moved k s).params = s.params := by simp [readOnce]
@[simp] theorem readOnce_host : (readOnce h a moved k s).host = s.host := by simp [readOnce]
@[simp] theorem readOnce_nq : (readOnce h a moved k s).nq = s.nq := by simp [readOnce]

theorem writeOnce_ctx (hp : s.qPresent h) : (writeOnce h a moved k s).ctx h = (s.ctx h).advanceWrite k := by
  rw [writeOnce, State.modifyCtx_ctx _ _ _ _ (by simpa [State.qPresent] using hp)]; simp

theorem readOnce_ctx (hp : s.qPresent h) : (readOnce h a moved k s).ctx h = (s.ctx h).advanceRead k := by
  rw [readOnce, State.modifyCtx_ctx _ _ _ _ (by simpa [State.qPresent] using hp)]; simp

theorem qbuf_of_ctx {t : State} (hc : (t.ctx h).bufInt = (s.ctx h).bufInt ∧ (t.ctx h).bufBase = (s.ctx h).bufBase) :
    t.qbuf h = s.qbuf h := by simp [State.qbuf, hc.1, hc.2]

theorem writeOnce_qbuf (hp : s.qPresent h) : (writeOnce h a moved k s).qbuf h = s.qbuf h :=
  qbuf_of_ctx h s (by rw [writeOnce_ctx h a moved k s hp]; simp [Ctx.advanceWrite])

theorem readOnce_qbuf (hp : s.qPresent h) : (readOnce h a moved k s).qbuf h = s.qbuf h :=
  qbuf_of_ctx h s (by rw [readOnce_ctx h a moved k s hp]; simp [Ctx.advanceRead])

/-- Another context and its RAM are untouched by a write. -/
theorem writeOnce_queue_ne (h' : Nat) (hne : h ≠ h') : (writeOnce h a moved k s).queue h' = s.queue h' := by
  have hb : ∀ t i v, t.queue h' = s.queue h' → (bufWrite t (s.qbuf h) i v).queue h' = s.queue h' := by
    intro t i v ht
    rw [bufWrite, State.writeLoc_queue_ne, ht]
    intro j
    simp only [State.qbuf]
    split <;> simp [Buf.loc, memLoc, hne]
  rw [writeOnce, State.modifyCtx_queue_ne _ _ _ _ hne]
  refine copyMove_induct (P := fun t => t.queue h' = s.queue h') ?_ fun t i v ht _ _ => hb t (i / 8) v ht
  rw [preclear]
  split
  · exact clearBits_induct (P := fun t => t.queue h' = s.queue h') rfl fun t i v ht _ _ => hb t (i / 8) v ht
  · rfl

/-- Another context and every RAM are untouched by a read. -/
theorem readOnce_queue_ne (h' : Nat) (hne : h ≠ h') : (readOnce h a moved k s).queue h' = s.queue h' := by
  rw [readOnce, State.modifyCtx_queue_ne _ _ _ _ hne, copyMove_ext_queue]

theorem readOnce_ram (h' : Nat) : (readOnce h a moved k s).ram h' = s.ram h' := by
  rw [readOnce, State.modifyCtx_ram]
  simp only [State.ram, copyMove_ext_queue]

theorem State.modifyCtx_locBit (g : Ctx → Ctx) (l : Loc) (b : Nat) :
    (s.modifyCtx h g).locBit l b = s.locBit l b := by
  simp [State.locBit]

theorem qbuf_present (hp : s.qPresent h) : (s.qbuf h).present s := by
  rw [State.qbuf]; split
  · exact hp
  · trivial

/-- A write changes no bit outside its `k` ring positions. -/
theorem writeOnce_locBit_ne (l : Loc) (b : Nat) (hb : b < 8)
    (hne : ∀ j < k, ¬ (l = (s.qbuf h).loc (((s.ctx h).wrPos + j) / 8) ∧ b = ((s.ctx h).wrPos + j) % 8)) :
    (writeOnce h a moved k s).locBit l b = s.locBit l b := by
  rw [writeOnce, State.modifyCtx_locBit, copyRuns_locBit_ne l b hb hne, preclear]
  split
  · exact clearBits_locBit_ne l b hb hne
  · rfl

/-- A read changes no bit outside its `k` destination positions. -/
theorem readOnce_locBit_ne (l : Loc) (b : Nat) (hb : b < 8)
    (hne : ∀ j < k, ¬ (l = (Buf.ext a).loc ((moved + j) / 8) ∧ b = (moved + j) % 8)) :
    (readOnce h a moved k s).locBit l b = s.locBit l b := by
  rw [readOnce, State.modifyCtx_locBit, copyRuns_locBit_ne l b hb hne]

/-- A ring bit after a write (R154, R158): the source bit, or the old bit OR the source bit without the pre-clear. -/
theorem writeOnce_bitAt (hp : s.qPresent h) (hin : (s.ctx h).wrPos + k ≤ 8 * 2 ^ AW)
    (hno : NoOverlap (s.qbuf h) (s.ctx h).wrPos (.ext a) moved k) (j : Nat) (hj : j < k) :
    bitAt (writeOnce h a moved k s) (s.qbuf h) ((s.ctx h).wrPos + j) =
      ((!s.params.preclearOnWrite && bitAt s (s.qbuf h) ((s.ctx h).wrPos + j)) || bitAt s (.ext a) (moved + j)) := by
  have hpres : (s.qbuf h).present (preclear h k s) := by
    have := qbuf_present h s hp
    revert this
    cases s.qbuf h <;> simp [Buf.present, State.qPresent]
  rw [bitAt_eq (writeOnce h a moved k s), writeOnce, State.modifyCtx_locBit, ← bitAt_eq,
    copyRuns_bitAt (Nat.le_refl k) hpres hin hno j hj]
  rw [preclear]
  split
  · rename_i hpre
    rw [hpre, Bool.not_true, Bool.false_and]
    congr 1
    · rw [Bool.eq_false_iff, bitAt_eq]
      intro hbit
      exact ((clearBits_locBit (qbuf_present h s hp) _ _ (Nat.mod_lt _ (by omega))).1 hbit).2 j hj ⟨rfl, rfl⟩
    · rw [bitAt_eq, clearBits_locBit_ne _ _ (Nat.mod_lt _ (by omega)), ← bitAt_eq]
      exact fun i hi h1 => hno i hi j hj h1.1.symm
  · rename_i hpre
    simp [hpre]

/-- A destination bit after a read (R163, R165): the old bit OR the ring bit. -/
theorem readOnce_bitAt (hin : moved + k ≤ 8 * 2 ^ AW)
    (hno : NoOverlap (.ext a) moved (s.qbuf h) (s.ctx h).rdPos k) (j : Nat) (hj : j < k) :
    bitAt (readOnce h a moved k s) (.ext a) (moved + j) =
      (bitAt s (.ext a) (moved + j) || bitAt s (s.qbuf h) ((s.ctx h).rdPos + j)) := by
  rw [bitAt_eq (readOnce h a moved k s), readOnce, State.modifyCtx_locBit, ← bitAt_eq,
    copyRuns_bitAt (Nat.le_refl k) trivial hin hno j hj]

end

/-! ## The loops from a sound context -/

section
variable {h a cap count : Nat} {s : State}

theorem Ctx.writeChunk_eq {c : Ctx} (hc : c.cursorsInRing) (rem : Nat) :
    c.writeChunk rem = min rem (c.cap - c.wrPos) := by
  obtain ⟨h1, h2, -, -⟩ := hc
  simp only [Ctx.writeChunk, Ctx.cap, Ctx.wrPos, linear]
  omega

/-- R157 (a): an invocation of `WRITE_BITS` moves its whole chunk. -/
theorem writeInvocation_eq {moved : Nat} (hc : (s.ctx h).cursorsInRing) (hm : moved < count) (hcap : count ≤ cap * 8) :
    writeInvocation h a cap count moved s =
      (.transferred (min (count - moved) ((s.ctx h).cap - (s.ctx h).wrPos)),
        copyMove (s.qbuf h) (s.ctx h).wrPos (.ext a) moved (min (count - moved) ((s.ctx h).cap - (s.ctx h).wrPos))
          (preclear h (min (count - moved) ((s.ctx h).cap - (s.ctx h).wrPos)) s)) := by
  have hlt := Ctx.wrPos_lt_cap hc
  rw [writeInvocation]
  simp only [Ctx.writeChunk_eq hc]
  generalize hk : min (count - moved) ((s.ctx h).cap - (s.ctx h).wrPos) = k at *
  have hplan : copyPlan (s.ctx h).wrByte (s.ctx h).wrBit (s.ctx h).bufSize (moved / 8) (moved % 8) cap k =
      .transferred k := by
    rw [copyPlan_transferred, linear_div_mod]
    obtain ⟨h1, h2, -, -⟩ := hc
    simp only [Ctx.wrPos, Ctx.cap, linear] at *
    omega
  simp only [copyBits, hplan, linear_div_mod, Ctx.wrPos]

/-- R164 (a): an invocation of `READ_BITS` moves what the ring holds up to its end. -/
theorem readInvocation_eq {moved : Nat} (hc : (s.ctx h).cursorsInRing) (hm : moved < count) (hcap : count ≤ cap * 8)
    (hcount : count ≤ (s.ctx h).cap) :
    readInvocation h a cap count moved s =
      (.transferred (min (count - moved) ((s.ctx h).cap - (s.ctx h).rdPos)),
        copyMove (.ext a) moved (s.qbuf h) (s.ctx h).rdPos (min (count - moved) ((s.ctx h).cap - (s.ctx h).rdPos)) s) := by
  have hlt := Ctx.rdPos_lt_cap hc
  rw [readInvocation]
  have hplan : copyPlan (moved / 8) (moved % 8) cap (s.ctx h).rdByte (s.ctx h).rdBit (s.ctx h).bufSize
      (count - moved) = .transferred (min (count - moved) ((s.ctx h).cap - (s.ctx h).rdPos)) := by
    rw [copyPlan_transferred, linear_div_mod]
    obtain ⟨-, -, h3, h4⟩ := hc
    simp only [Ctx.rdPos, Ctx.cap, linear, and_true] at *
    omega
  simp only [copyBits, hplan, linear_div_mod, Ctx.rdPos]

theorem writeLoop_done (fuel : Nat) : writeLoop h a cap count fuel count s = respond { count := count } s := by
  cases fuel <;> simp [writeLoop]

theorem readLoop_done (fuel : Nat) : readLoop h a cap count fuel count s = respond { count := count } s := by
  cases fuel <;> simp [readLoop]

theorem writeLoop_step {fuel moved : Nat} (hc : (s.ctx h).cursorsInRing) (hm : moved < count) (hcap : count ≤ cap * 8) :
    writeLoop h a cap count (fuel + 1) moved s =
      writeLoop h a cap count fuel (moved + min (count - moved) ((s.ctx h).cap - (s.ctx h).wrPos))
        (writeOnce h a moved (min (count - moved) ((s.ctx h).cap - (s.ctx h).wrPos)) s) := by
  have hlt := Ctx.wrPos_lt_cap hc
  rw [writeLoop, if_pos hm, writeInvocation_eq hc hm hcap]
  simp only
  rw [if_neg (by omega), writeOnce]

theorem readLoop_step {fuel moved : Nat} (hc : (s.ctx h).cursorsInRing) (hm : moved < count) (hcap : count ≤ cap * 8)
    (hcount : count ≤ (s.ctx h).cap) :
    readLoop h a cap count (fuel + 1) moved s =
      readLoop h a cap count fuel (moved + min (count - moved) ((s.ctx h).cap - (s.ctx h).rdPos))
        (readOnce h a moved (min (count - moved) ((s.ctx h).cap - (s.ctx h).rdPos)) s) := by
  have hlt := Ctx.rdPos_lt_cap hc
  rw [readLoop, if_pos hm, readInvocation_eq hc hm hcap hcount]
  simp only
  rw [if_neg (by omega), readOnce]

/-- The write cursor after an advance inside the ring. -/
theorem Ctx.advanceWrite_eq {c : Ctx} {k : Nat} (hc : c.cursorsInRing) (hk : c.wrPos + k ≤ c.cap) :
    c.advanceWrite k =
      { c with
        wrByte := (c.wrPos + k) % c.cap / 8
        wrBit := (c.wrPos + k) % c.cap % 8
        validBits := c.validBits + k } := by
  have h1 : 1 ≤ c.bufSize := by have := hc.1; omega
  obtain ⟨e1, e2, e3⟩ := advance_spec (byte := c.wrByte) (bit := c.wrBit) (k := k) (size := c.bufSize) hk h1
  have e1 : linear (advance c.wrByte c.wrBit k c.bufSize).1 (advance c.wrByte c.wrBit k c.bufSize).2 =
      (c.wrPos + k) % c.cap := e1
  simp only [Ctx.advanceWrite, Ctx.mk.injEq, true_and, and_true]
  rw [← e1]
  simp only [linear]
  omega

/-- The read cursor after an advance inside the ring. -/
theorem Ctx.advanceRead_eq {c : Ctx} {k : Nat} (hc : c.cursorsInRing) (hk : c.rdPos + k ≤ c.cap) :
    c.advanceRead k =
      { c with
        rdByte := (c.rdPos + k) % c.cap / 8
        rdBit := (c.rdPos + k) % c.cap % 8
        validBits := c.validBits - k } := by
  have h1 : 1 ≤ c.bufSize := by have := hc.1; omega
  obtain ⟨e1, e2, e3⟩ := advance_spec (byte := c.rdByte) (bit := c.rdBit) (k := k) (size := c.bufSize) hk h1
  have e1 : linear (advance c.rdByte c.rdBit k c.bufSize).1 (advance c.rdByte c.rdBit k c.bufSize).2 =
      (c.rdPos + k) % c.cap := e1
  simp only [Ctx.advanceRead, Ctx.mk.injEq, true_and, and_true]
  rw [← e1]
  simp only [linear]
  omega

theorem Ctx.advanceWrite_cursors {c : Ctx} {k : Nat} (hc : c.cursorsInRing) (hk : c.wrPos + k ≤ c.cap) :
    (c.advanceWrite k).cursorsInRing := by
  rw [Ctx.advanceWrite_eq hc hk]
  have hlt : (c.wrPos + k) % c.cap < c.cap := Nat.mod_lt _ (by have := Ctx.wrPos_lt_cap hc; omega)
  refine ⟨?_, ?_, hc.2.2.1, hc.2.2.2⟩ <;> simp only [Ctx.cap] at * <;> omega

theorem Ctx.advanceRead_cursors {c : Ctx} {k : Nat} (hc : c.cursorsInRing) (hk : c.rdPos + k ≤ c.cap) :
    (c.advanceRead k).cursorsInRing := by
  rw [Ctx.advanceRead_eq hc hk]
  have hlt : (c.rdPos + k) % c.cap < c.cap := Nat.mod_lt _ (by have := Ctx.rdPos_lt_cap hc; omega)
  refine ⟨hc.1, hc.2.1, ?_, ?_⟩ <;> simp only [Ctx.cap] at * <;> omega

/-- R157: the loop of `WRITE_BITS` from a sound context is one invocation, or two when the write passes the end of the
ring, and answers `OK` with the whole count. -/
theorem writeLoop_eq (hp : s.qPresent h) (hc : (s.ctx h).cursorsInRing) (h0 : 1 ≤ count) (hcap : count ≤ cap * 8)
    (hcount : count ≤ (s.ctx h).cap) :
    writeLoop h a cap count count 0 s =
      respond { count := count }
        (if (s.ctx h).wrPos + count ≤ (s.ctx h).cap then writeOnce h a 0 count s
          else writeOnce h a ((s.ctx h).cap - (s.ctx h).wrPos) (count - ((s.ctx h).cap - (s.ctx h).wrPos))
            (writeOnce h a 0 ((s.ctx h).cap - (s.ctx h).wrPos) s)) := by
  have hlt := Ctx.wrPos_lt_cap hc
  obtain ⟨fuel, rfl⟩ : ∃ f, count = f + 1 := ⟨count - 1, by omega⟩
  rw [writeLoop_step hc (by omega) hcap]
  split
  · rw [show min (fuel + 1 - 0) ((s.ctx h).cap - (s.ctx h).wrPos) = fuel + 1 by omega, Nat.zero_add, writeLoop_done]
  · rw [show min (fuel + 1 - 0) ((s.ctx h).cap - (s.ctx h).wrPos) = (s.ctx h).cap - (s.ctx h).wrPos by omega,
      Nat.zero_add]
    generalize hk : (s.ctx h).cap - (s.ctx h).wrPos = k at *
    obtain ⟨f, rfl⟩ : ∃ f, fuel = f + 1 := ⟨fuel - 1, by omega⟩
    have hctx := writeOnce_ctx h a 0 k s hp
    have hk' : (s.ctx h).wrPos + k = (s.ctx h).cap := by omega
    have hc' := Ctx.advanceWrite_cursors (k := k) hc (by omega)
    have hpos : ((s.ctx h).advanceWrite k).wrPos = 0 := by
      rw [Ctx.advanceWrite_eq hc (by omega), hk', Nat.mod_self]; rfl
    have hcp : ((s.ctx h).advanceWrite k).cap = (s.ctx h).cap := rfl
    rw [writeLoop_step (by rw [hctx]; exact hc') (by omega) hcap, hctx, hpos, hcp]
    rw [show min (f + 1 + 1 - k) ((s.ctx h).cap - 0) = f + 1 + 1 - k by omega,
      show k + (f + 1 + 1 - k) = f + 1 + 1 by omega, writeLoop_done]

/-- R164: the loop of `READ_BITS` from a sound context is one invocation, or two when the read passes the end of the
ring, and answers `OK` with the whole count. -/
theorem readLoop_eq (hp : s.qPresent h) (hc : (s.ctx h).cursorsInRing) (h0 : 1 ≤ count) (hcap : count ≤ cap * 8)
    (hcount : count ≤ (s.ctx h).cap) :
    readLoop h a cap count count 0 s =
      respond { count := count }
        (if (s.ctx h).rdPos + count ≤ (s.ctx h).cap then readOnce h a 0 count s
          else readOnce h a ((s.ctx h).cap - (s.ctx h).rdPos) (count - ((s.ctx h).cap - (s.ctx h).rdPos))
            (readOnce h a 0 ((s.ctx h).cap - (s.ctx h).rdPos) s)) := by
  have hlt := Ctx.rdPos_lt_cap hc
  obtain ⟨fuel, rfl⟩ : ∃ f, count = f + 1 := ⟨count - 1, by omega⟩
  rw [readLoop_step hc (by omega) hcap hcount]
  split
  · rw [show min (fuel + 1 - 0) ((s.ctx h).cap - (s.ctx h).rdPos) = fuel + 1 by omega, Nat.zero_add, readLoop_done]
  · rw [show min (fuel + 1 - 0) ((s.ctx h).cap - (s.ctx h).rdPos) = (s.ctx h).cap - (s.ctx h).rdPos by omega,
      Nat.zero_add]
    generalize hk : (s.ctx h).cap - (s.ctx h).rdPos = k at *
    obtain ⟨f, rfl⟩ : ∃ f, fuel = f + 1 := ⟨fuel - 1, by omega⟩
    have hctx := readOnce_ctx h a 0 k s hp
    have hk' : (s.ctx h).rdPos + k = (s.ctx h).cap := by omega
    have hc' := Ctx.advanceRead_cursors (k := k) hc (by omega)
    have hpos : ((s.ctx h).advanceRead k).rdPos = 0 := by
      rw [Ctx.advanceRead_eq hc (by omega), hk', Nat.mod_self]; rfl
    have hcp : ((s.ctx h).advanceRead k).cap = (s.ctx h).cap := rfl
    rw [readLoop_step (by rw [hctx]; exact hc') (by omega) hcap (by rw [hctx, hcp]; exact hcount), hctx, hpos, hcp]
    rw [show min (f + 1 + 1 - k) ((s.ctx h).cap - 0) = f + 1 + 1 - k by omega,
      show k + (f + 1 + 1 - k) = f + 1 + 1 by omega, readLoop_done]

/-! ## The whole transfer from a sound context -/

/-- The state after a successful `WRITE_BITS`, before the response (R157, R158). -/
def writeAll (h saddr count : Nat) (s : State) : State :=
  if (s.ctx h).wrPos + count ≤ (s.ctx h).cap then writeOnce h saddr 0 count s
  else writeOnce h saddr ((s.ctx h).cap - (s.ctx h).wrPos) (count - ((s.ctx h).cap - (s.ctx h).wrPos))
    (writeOnce h saddr 0 ((s.ctx h).cap - (s.ctx h).wrPos) s)

/-- The state after a successful `READ_BITS`, before the response (R164, R165). -/
def readAll (h daddr count : Nat) (s : State) : State :=
  if (s.ctx h).rdPos + count ≤ (s.ctx h).cap then readOnce h daddr 0 count s
  else readOnce h daddr ((s.ctx h).cap - (s.ctx h).rdPos) (count - ((s.ctx h).cap - (s.ctx h).rdPos))
    (readOnce h daddr 0 ((s.ctx h).cap - (s.ctx h).rdPos) s)

@[simp] theorem writeAll_params : (writeAll h a count s).params = s.params := by rw [writeAll]; split <;> simp
@[simp] theorem writeAll_host : (writeAll h a count s).host = s.host := by rw [writeAll]; split <;> simp
@[simp] theorem writeAll_nq : (writeAll h a count s).nq = s.nq := by rw [writeAll]; split <;> simp
@[simp] theorem readAll_params : (readAll h a count s).params = s.params := by rw [readAll]; split <;> simp
@[simp] theorem readAll_host : (readAll h a count s).host = s.host := by rw [readAll]; split <;> simp
@[simp] theorem readAll_nq : (readAll h a count s).nq = s.nq := by rw [readAll]; split <;> simp

/-- R157: the loop of `WRITE_BITS` from a sound context answers `OK` with the whole count. -/
theorem writeLoop_all (hp : s.qPresent h) (hc : (s.ctx h).cursorsInRing) (h0 : 1 ≤ count) (hcap : count ≤ cap * 8)
    (hcount : count ≤ (s.ctx h).cap) :
    writeLoop h a cap count count 0 s = respond { count := count } (writeAll h a count s) :=
  writeLoop_eq hp hc h0 hcap hcount

/-- R164: the loop of `READ_BITS` from a sound context answers `OK` with the whole count. -/
theorem readLoop_all (hp : s.qPresent h) (hc : (s.ctx h).cursorsInRing) (h0 : 1 ≤ count) (hcap : count ≤ cap * 8)
    (hcount : count ≤ (s.ctx h).cap) :
    readLoop h a cap count count 0 s = respond { count := count } (readAll h a count s) :=
  readLoop_eq hp hc h0 hcap hcount

theorem writeAll_queue_ne (h' : Nat) (hne : h ≠ h') : (writeAll h a count s).queue h' = s.queue h' := by
  rw [writeAll]; split <;> simp [writeOnce_queue_ne _ _ _ _ _ h' hne]

theorem readAll_queue_ne (h' : Nat) (hne : h ≠ h') : (readAll h a count s).queue h' = s.queue h' := by
  rw [readAll]; split <;> simp [readOnce_queue_ne _ _ _ _ _ h' hne]

@[simp] theorem readAll_ram (h' : Nat) : (readAll h a count s).ram h' = s.ram h' := by
  rw [readAll]; split <;> simp [readOnce_ram]

/-- The positions of the first and of the second invocation, around the ring. -/
theorem ringPos_first {w C k j : Nat} (hk : w + k ≤ C) (hj : j < k) : (w + j) % C = w + j :=
  Nat.mod_eq_of_lt (by omega)

theorem ringPos_second {w C k j : Nat} (hw : w ≤ C) (hk : k = C - w) (hj : j < C) : (w + (k + j)) % C = j := by
  rw [show w + (k + j) = j + C by omega, Nat.add_mod_right, Nat.mod_eq_of_lt hj]

/-- The context after a successful write (R158): the write position and the count are advanced, nothing else. -/
theorem writeAll_ctx (hp : s.qPresent h) (hc : (s.ctx h).cursorsInRing) (hcount : count ≤ (s.ctx h).cap) :
    (writeAll h a count s).ctx h =
      { s.ctx h with
        wrByte := ((s.ctx h).wrPos + count) % (s.ctx h).cap / 8
        wrBit := ((s.ctx h).wrPos + count) % (s.ctx h).cap % 8
        validBits := (s.ctx h).validBits + count } := by
  have hlt := Ctx.wrPos_lt_cap hc
  rw [writeAll]
  split
  · rw [writeOnce_ctx _ _ _ _ _ hp, Ctx.advanceWrite_eq hc ‹_›]
  · generalize hk : (s.ctx h).cap - (s.ctx h).wrPos = k
    have hk' : (s.ctx h).wrPos + k = (s.ctx h).cap := by omega
    have hc' := Ctx.advanceWrite_cursors (k := k) hc (by omega)
    have hpos : ((s.ctx h).advanceWrite k).wrPos = 0 := by
      rw [Ctx.advanceWrite_eq hc (by omega), hk', Nat.mod_self]; rfl
    have hcp : ((s.ctx h).advanceWrite k).cap = (s.ctx h).cap := rfl
    rw [writeOnce_ctx _ _ _ _ _ (by simpa [State.qPresent] using hp), writeOnce_ctx _ _ _ _ _ hp,
      Ctx.advanceWrite_eq hc' (by rw [hpos, hcp]; omega), hpos, hcp]
    have hpos' : (0 + (count - k)) % (s.ctx h).cap = ((s.ctx h).wrPos + count) % (s.ctx h).cap := by
      rw [show (s.ctx h).wrPos + count = (0 + (count - k)) + (s.ctx h).cap by omega, Nat.add_mod_right]
    rw [hpos', Ctx.advanceWrite_eq hc (by omega)]
    simp only [Ctx.mk.injEq, true_and]
    omega

/-- The context after a successful read (R165): the read position and the count are advanced, nothing else. -/
theorem readAll_ctx (hp : s.qPresent h) (hc : (s.ctx h).cursorsInRing) (hcount : count ≤ (s.ctx h).cap) :
    (readAll h a count s).ctx h =
      { s.ctx h with
        rdByte := ((s.ctx h).rdPos + count) % (s.ctx h).cap / 8
        rdBit := ((s.ctx h).rdPos + count) % (s.ctx h).cap % 8
        validBits := (s.ctx h).validBits - count } := by
  have hlt := Ctx.rdPos_lt_cap hc
  rw [readAll]
  split
  · rw [readOnce_ctx _ _ _ _ _ hp, Ctx.advanceRead_eq hc ‹_›]
  · generalize hk : (s.ctx h).cap - (s.ctx h).rdPos = k
    have hk' : (s.ctx h).rdPos + k = (s.ctx h).cap := by omega
    have hc' := Ctx.advanceRead_cursors (k := k) hc (by omega)
    have hpos : ((s.ctx h).advanceRead k).rdPos = 0 := by
      rw [Ctx.advanceRead_eq hc (by omega), hk', Nat.mod_self]; rfl
    have hcp : ((s.ctx h).advanceRead k).cap = (s.ctx h).cap := rfl
    rw [readOnce_ctx _ _ _ _ _ (by simpa [State.qPresent] using hp), readOnce_ctx _ _ _ _ _ hp,
      Ctx.advanceRead_eq hc' (by rw [hpos, hcp]; omega), hpos, hcp]
    have hpos' : (0 + (count - k)) % (s.ctx h).cap = ((s.ctx h).rdPos + count) % (s.ctx h).cap := by
      rw [show (s.ctx h).rdPos + count = (0 + (count - k)) + (s.ctx h).cap by omega, Nat.add_mod_right]
    rw [hpos', Ctx.advanceRead_eq hc (by omega)]
    simp only [Ctx.mk.injEq, true_and]
    omega

/-- The read and write cursors after the other transfer. -/
theorem writeOnce_rest (hp : s.qPresent h) (hc : (s.ctx h).cursorsInRing) (moved : Nat) :
    ((writeOnce h a moved ((s.ctx h).cap - (s.ctx h).wrPos) s).ctx h).wrPos = 0 ∧
      ((writeOnce h a moved ((s.ctx h).cap - (s.ctx h).wrPos) s).ctx h).cap = (s.ctx h).cap := by
  have hlt := Ctx.wrPos_lt_cap hc
  rw [writeOnce_ctx _ _ _ _ _ hp, Ctx.advanceWrite_eq hc (by omega),
    show (s.ctx h).wrPos + ((s.ctx h).cap - (s.ctx h).wrPos) = (s.ctx h).cap by omega, Nat.mod_self]
  exact ⟨rfl, rfl⟩

theorem readOnce_rest (hp : s.qPresent h) (hc : (s.ctx h).cursorsInRing) (moved : Nat) :
    ((readOnce h a moved ((s.ctx h).cap - (s.ctx h).rdPos) s).ctx h).rdPos = 0 ∧
      ((readOnce h a moved ((s.ctx h).cap - (s.ctx h).rdPos) s).ctx h).cap = (s.ctx h).cap := by
  have hlt := Ctx.rdPos_lt_cap hc
  rw [readOnce_ctx _ _ _ _ _ hp, Ctx.advanceRead_eq hc (by omega),
    show (s.ctx h).rdPos + ((s.ctx h).cap - (s.ctx h).rdPos) = (s.ctx h).cap by omega, Nat.mod_self]
  exact ⟨rfl, rfl⟩

/-- A successful write changes no bit outside the ring positions it fills (R158). -/
theorem writeAll_locBit_ne (hp : s.qPresent h) (hc : (s.ctx h).cursorsInRing) (hcount : count ≤ (s.ctx h).cap)
    (l : Loc) (b : Nat) (hb : b < 8)
    (hne : ∀ j < count, ¬ (l = (s.qbuf h).loc (((s.ctx h).wrPos + j) % (s.ctx h).cap / 8) ∧
      b = ((s.ctx h).wrPos + j) % (s.ctx h).cap % 8)) :
    (writeAll h a count s).locBit l b = s.locBit l b := by
  have hlt := Ctx.wrPos_lt_cap hc
  rw [writeAll]
  split
  · refine writeOnce_locBit_ne _ _ _ _ _ l b hb fun j hj => ?_
    have := hne j hj
    rwa [ringPos_first ‹_› hj] at this
  · obtain ⟨hpos, -⟩ := writeOnce_rest (a := a) hp hc 0
    rw [writeOnce_locBit_ne _ _ _ _ _ l b hb, writeOnce_locBit_ne _ _ _ _ _ l b hb]
    · intro j hj
      have := hne j (by omega)
      rwa [ringPos_first (k := (s.ctx h).cap - (s.ctx h).wrPos) (by omega) hj] at this
    · intro j hj
      rw [hpos, writeOnce_qbuf _ _ _ _ _ hp, Nat.zero_add]
      have := hne ((s.ctx h).cap - (s.ctx h).wrPos + j) (by omega)
      rwa [ringPos_second (by omega) rfl (by omega)] at this

/-- A successful read changes no bit outside the destination positions it fills (R165). -/
theorem readAll_locBit_ne (hc : (s.ctx h).cursorsInRing) (l : Loc) (b : Nat) (hb : b < 8)
    (hne : ∀ j < count, ¬ (l = (Buf.ext a).loc (j / 8) ∧ b = j % 8)) :
    (readAll h a count s).locBit l b = s.locBit l b := by
  have hlt := Ctx.rdPos_lt_cap hc
  rw [readAll]
  split
  · exact readOnce_locBit_ne _ _ _ _ _ l b hb fun j hj => by rw [Nat.zero_add]; exact hne j hj
  · rw [readOnce_locBit_ne _ _ _ _ _ l b hb, readOnce_locBit_ne _ _ _ _ _ l b hb]
    · exact fun j hj => by rw [Nat.zero_add]; exact hne j (by omega)
    · exact fun j hj => hne _ (by omega)

/-- Ring bits after a successful write (R158): ring bit `(w + j) mod C` is source bit `j`, or `old | source` without
the pre-clear. -/
theorem writeAll_bitAt (hp : s.qPresent h) (hc : (s.ctx h).cursorsInRing) (hcount : count ≤ (s.ctx h).cap)
    (hsize : (s.ctx h).bufSize ≤ 2 ^ AW)
    (hno : ∀ i < (s.ctx h).bufSize, ∀ j < count, (s.qbuf h).loc i ≠ (Buf.ext a).loc (j / 8)) (j : Nat)
    (hj : j < count) :
    bitAt (writeAll h a count s) (s.qbuf h) (((s.ctx h).wrPos + j) % (s.ctx h).cap) =
      ((!s.params.preclearOnWrite && bitAt s (s.qbuf h) (((s.ctx h).wrPos + j) % (s.ctx h).cap)) ||
        bitAt s (.ext a) j) := by
  have hlt := Ctx.wrPos_lt_cap hc
  have hin : (s.ctx h).cap ≤ 8 * 2 ^ AW := by simp only [Ctx.cap]; omega
  have hno' : ∀ p < (s.ctx h).cap, ∀ j < count, (s.qbuf h).loc (p / 8) ≠ (Buf.ext a).loc (j / 8) :=
    fun p hp j hj => hno _ (by simp only [Ctx.cap] at hp; omega) j hj
  rw [writeAll]
  split
  · rw [ringPos_first ‹_› hj, writeOnce_bitAt _ _ _ _ _ hp (by omega) ?_ j hj, Nat.zero_add]
    intro i hi k hk
    rw [Nat.zero_add]
    exact hno' _ (by omega) k hk
  · obtain ⟨hpos, -⟩ := writeOnce_rest (a := a) hp hc 0
    have hq := writeOnce_qbuf h a 0 ((s.ctx h).cap - (s.ctx h).wrPos) s hp
    by_cases hjk : j < (s.ctx h).cap - (s.ctx h).wrPos
    · rw [ringPos_first (k := (s.ctx h).cap - (s.ctx h).wrPos) (by omega) hjk, bitAt_eq (writeOnce _ _ _ _ _),
        writeOnce_locBit_ne _ _ _ _ _ _ _ (Nat.mod_lt _ (by omega)), ← bitAt_eq,
        writeOnce_bitAt _ _ _ _ _ hp (by omega) ?_ j hjk, Nat.zero_add]
      · intro i hi k hk
        rw [Nat.zero_add]
        exact hno' _ (by omega) k (by omega)
      · rintro i hi ⟨h1, h2⟩
        rw [hpos, hq, Nat.zero_add] at h1
        rw [hpos, Nat.zero_add] at h2
        have := Buf.loc_inj (B := s.qbuf h) (by omega) (by omega) h1
        omega
    · obtain ⟨i, rfl⟩ : ∃ i, j = (s.ctx h).cap - (s.ctx h).wrPos + i := ⟨j - ((s.ctx h).cap - (s.ctx h).wrPos), by omega⟩
      have hb := writeOnce_bitAt h a ((s.ctx h).cap - (s.ctx h).wrPos) (count - ((s.ctx h).cap - (s.ctx h).wrPos))
        (writeOnce h a 0 ((s.ctx h).cap - (s.ctx h).wrPos) s) (by simpa [State.qPresent] using hp)
        (by rw [hpos]; omega) (by
          intro x hx y hy
          rw [hpos, hq, Nat.zero_add]
          exact hno' _ (by omega) _ (by omega)) i (by omega)
      rw [hpos, hq, Nat.zero_add] at hb
      rw [ringPos_second (by omega) rfl (by omega), hb, writeOnce_params]
      have hkeep : ∀ l b, b < 8 → (∀ x < (s.ctx h).cap - (s.ctx h).wrPos,
          ¬ (l = (s.qbuf h).loc (((s.ctx h).wrPos + x) / 8) ∧ b = ((s.ctx h).wrPos + x) % 8)) →
          (writeOnce h a 0 ((s.ctx h).cap - (s.ctx h).wrPos) s).locBit l b = s.locBit l b :=
        fun l b hb hne => writeOnce_locBit_ne h a 0 _ s l b hb hne
      congr 1
      · congr 1
        rw [bitAt_eq, hkeep _ _ (Nat.mod_lt _ (by omega)), ← bitAt_eq]
        rintro x hx ⟨h1, h2⟩
        have := Buf.loc_inj (B := s.qbuf h) (by omega) (by omega) h1
        omega
      · rw [bitAt_eq, hkeep _ _ (Nat.mod_lt _ (by omega)), ← bitAt_eq]
        rintro x hx ⟨h1, -⟩
        exact hno' _ (by omega) _ hj h1.symm

/-- Destination bits after a successful read (R165): destination bit `j` is `old | ring bit (r + j) mod C`. -/
theorem readAll_bitAt (hp : s.qPresent h) (hc : (s.ctx h).cursorsInRing) (hcount : count ≤ (s.ctx h).cap)
    (hin : count ≤ 8 * 2 ^ AW)
    (hno : ∀ i < (s.ctx h).bufSize, ∀ j < count, (s.qbuf h).loc i ≠ (Buf.ext a).loc (j / 8)) (j : Nat)
    (hj : j < count) :
    bitAt (readAll h a count s) (.ext a) j =
      (bitAt s (.ext a) j || bitAt s (s.qbuf h) (((s.ctx h).rdPos + j) % (s.ctx h).cap)) := by
  have hlt := Ctx.rdPos_lt_cap hc
  have hno' : ∀ p < (s.ctx h).cap, ∀ j < count, (Buf.ext a).loc (j / 8) ≠ (s.qbuf h).loc (p / 8) :=
    fun p hp j hj => (hno _ (by simp only [Ctx.cap] at hp; omega) j hj).symm
  rw [readAll]
  split
  · have := readOnce_bitAt h a 0 count s (by omega) (fun i hi k hk => by
      rw [Nat.zero_add]; exact hno' _ (by omega) i hi) j hj
    rw [Nat.zero_add] at this
    rw [this, ringPos_first ‹_› hj]
  · obtain ⟨hpos, -⟩ := readOnce_rest (a := a) hp hc 0
    have hq := readOnce_qbuf h a 0 ((s.ctx h).cap - (s.ctx h).rdPos) s hp
    by_cases hjk : j < (s.ctx h).cap - (s.ctx h).rdPos
    · have := readOnce_bitAt h a 0 ((s.ctx h).cap - (s.ctx h).rdPos) s (by omega) (fun i hi k hk => by
        rw [Nat.zero_add]; exact hno' _ (by omega) i (by omega)) j hjk
      rw [Nat.zero_add] at this
      rw [ringPos_first (k := (s.ctx h).cap - (s.ctx h).rdPos) (by omega) hjk, bitAt_eq (readOnce _ _ _ _ _),
        readOnce_locBit_ne _ _ _ _ _ _ _ (Nat.mod_lt _ (by omega)), ← bitAt_eq, this]
      rintro i hi ⟨h1, h2⟩
      have := Buf.loc_inj (B := .ext a) (by omega) (by omega) h1
      omega
    · obtain ⟨i, rfl⟩ : ∃ i, j = (s.ctx h).cap - (s.ctx h).rdPos + i := ⟨j - ((s.ctx h).cap - (s.ctx h).rdPos), by omega⟩
      have hb := readOnce_bitAt h a ((s.ctx h).cap - (s.ctx h).rdPos) (count - ((s.ctx h).cap - (s.ctx h).rdPos))
        (readOnce h a 0 ((s.ctx h).cap - (s.ctx h).rdPos) s) (by omega) (by
          intro x hx y hy
          rw [hpos, hq, Nat.zero_add]
          exact hno' _ (by omega) _ (by omega)) i (by omega)
      rw [hpos, hq, Nat.zero_add] at hb
      rw [hb, ringPos_second (by omega) rfl (by omega)]
      have hkeep : ∀ l b, b < 8 → (∀ x < (s.ctx h).cap - (s.ctx h).rdPos,
          ¬ (l = (Buf.ext a).loc ((0 + x) / 8) ∧ b = (0 + x) % 8)) →
          (readOnce h a 0 ((s.ctx h).cap - (s.ctx h).rdPos) s).locBit l b = s.locBit l b :=
        fun l b hb hne => readOnce_locBit_ne h a 0 _ s l b hb hne
      congr 1
      · rw [bitAt_eq, hkeep _ _ (Nat.mod_lt _ (by omega)), ← bitAt_eq]
        rintro x hx ⟨h1, h2⟩
        have := Buf.loc_inj (B := .ext a) (by omega) (by omega) h1
        omega
      · rw [bitAt_eq, hkeep _ _ (Nat.mod_lt _ (by omega)), ← bitAt_eq]
        rintro x hx ⟨h1, -⟩
        exact hno' i (by omega) (0 + x) (by omega) h1.symm

end

end Sys2Proof.Machine
end

