-- ==== Sys2Proof/Laws/Exec.lean ====
section
/-! SUPPORT. Inversion of the meanings: for each, the few ways it can end, said once, so that no later proof unfolds
one. -/

namespace Sys2Proof.Machine

section
variable {s : State}

/-- The checks of `COPY_BITS` (R113, R127 line 1) that answer `InvalidArgument`. -/
abbrev copyInvalid (daddr dbyte dbit dcap saddr sbyte sbit scap count : Nat) : Prop :=
  daddr = 0 ∨ saddr = 0 ∨ count = 0 ∨ dbyte > dcap ∨ sbyte > scap ∨ dbit ≥ 8 ∨ sbit ≥ 8 ∨ count > scap * 8

/-- `COPY_BITS` (R127): `InvalidArgument`, or `InsufficientSpace`, or the planned bits moved. -/
theorem execCopyBits_cases (daddr dbyte dbit dcap saddr sbyte sbit scap count : Nat) (s : State) :
    (copyInvalid daddr dbyte dbit dcap saddr sbyte sbit scap count ∧
      execCopyBits daddr dbyte dbit dcap saddr sbyte sbit scap count s = raise .invalidArgument s) ∨
    (¬ copyInvalid daddr dbyte dbit dcap saddr sbyte sbit scap count ∧ ((dcap : Int) - dbyte) * 8 - dbit < count ∧
      execCopyBits daddr dbyte dbit dcap saddr sbyte sbit scap count s = raise .insufficientSpace s) ∨
    (¬ copyInvalid daddr dbyte dbit dcap saddr sbyte sbit scap count ∧ linear dbyte dbit + count ≤ dcap * 8 ∧
      execCopyBits daddr dbyte dbit dcap saddr sbyte sbit scap count s =
        respond { count := min count (scap * 8 - linear sbyte sbit) }
          (copyMove (.ext daddr) (linear dbyte dbit) (.ext saddr) (linear sbyte sbit)
            (min count (scap * 8 - linear sbyte sbit)) s)) := by
  by_cases ha : daddr = 0 ∨ saddr = 0
  · left
    refine ⟨by simp only [copyInvalid]; omega, ?_⟩
    rw [execCopyBits, if_pos ha]
  rw [execCopyBits, if_neg ha]
  by_cases hi : copyPlan dbyte dbit dcap sbyte sbit scap count = .err .invalidArgument
  · left
    refine ⟨?_, by simp only [copyBits, hi]⟩
    have := copyPlan_invalid.1 hi
    simp only [copyInvalid]; omega
  have hni : ¬ copyInvalid daddr dbyte dbit dcap saddr sbyte sbit scap count := by
    rw [copyPlan_invalid] at hi
    simp only [copyInvalid]; omega
  by_cases hs : copyPlan dbyte dbit dcap sbyte sbit scap count = .err .insufficientSpace
  · exact Or.inr (Or.inl ⟨hni, (copyPlan_insufficient.1 hs).2, by simp only [copyBits, hs]⟩)
  · have hroom : linear dbyte dbit + count ≤ dcap * 8 := by
      rw [copyPlan_insufficient] at hs
      simp only [copyInvalid, linear] at *
      omega
    have hp : copyPlan dbyte dbit dcap sbyte sbit scap count =
        .transferred (min count (scap * 8 - linear sbyte sbit)) := by
      refine copyPlan_transferred.2 ⟨?_, hroom, rfl⟩
      simp only [copyInvalid] at hni
      omega
    exact Or.inr (Or.inr ⟨hni, hroom, by simp only [copyBits, hp]⟩)

/-- `FreeHandle()` (R140): 0 when every context is live, else the least handle of a dead one. -/
theorem freeHandle_cases (s : State) :
    (s.freeHandle = 0 ∧ ∀ h, s.qPresent h → (s.ctx h).live = true) ∨
    (s.qPresent s.freeHandle ∧ (s.ctx s.freeHandle).live = false ∧
      ∀ g, 1 ≤ g → g < s.freeHandle → (s.ctx g).live = true) := by
  cases hf : s.queues.findIdx? (fun q => !q.ctx.live) with
  | none =>
    left
    refine ⟨by simp [State.freeHandle, hf], fun h hp => ?_⟩
    have := List.findIdx?_eq_none_iff.1 hf _ (s.queue_mem h hp)
    simpa [State.ctx] using this
  | some k =>
    right
    obtain ⟨hk, hlive, hleast⟩ := List.findIdx?_eq_some_iff_getElem.1 hf
    have hh : s.freeHandle = k + 1 := by simp [State.freeHandle, hf]
    rw [hh]
    refine ⟨⟨by omega, hk⟩, ?_, fun g h1 h2 => ?_⟩
    · simpa [State.ctx, State.queue, hk] using hlive
    · obtain ⟨j, rfl⟩ : ∃ j, g = j + 1 := ⟨g - 1, by omega⟩
      have hj := hleast j (by omega)
      have hj' : j < s.queues.length := by omega
      simpa [State.ctx, State.queue, hj'] using hj

/-- The least free handle is the only one with its defining property. -/
theorem freeHandle_eq {h : Nat} (hp : s.qPresent h) (hd : (s.ctx h).live = false)
    (hl : ∀ g, 1 ≤ g → g < h → (s.ctx g).live = true) : s.freeHandle = h := by
  rcases freeHandle_cases s with ⟨-, hall⟩ | ⟨hp', hd', hl'⟩
  · simp [hall h hp] at hd
  · rcases Nat.lt_trichotomy s.freeHandle h with hlt | heq | hgt
    · simp [hl _ hp'.1 hlt] at hd'
    · exact heq
    · simp [hl' h hp.1 hgt] at hd

/-- The state `CREATE_OWNED` leaves in context `h`, before the response (R141 lines 4 to 8). -/
def createIn (h n : Nat) (s : State) : State :=
  (s.modifyRam h fun m => m.zeroBelow n).modifyCtx h fun _ => Ctx.created n

/-- The state `WRAP_BUFFER` leaves in context `h`, before the response (R142 lines 4 to 7). -/
def wrapIn (h a n : Nat) (own : Bool) (s : State) : State := s.modifyCtx h fun _ => Ctx.wrapped a n own

/-- `CREATE_OWNED` (R141): two errors, or the least free context made an empty owned queue. -/
theorem execCreateOwned_cases (n : Nat) (s : State) :
    (n = 0 ∧ execCreateOwned n s = raise .invalidArgument s) ∨
    (n ≠ 0 ∧ (s.freeHandle = 0 ∨ n > s.params.poolBytes) ∧ execCreateOwned n s = raise .allocationFailure s) ∨
    (n ≠ 0 ∧ s.freeHandle ≠ 0 ∧ n ≤ s.params.poolBytes ∧
      execCreateOwned n s = respond { qh := s.freeHandle } (createIn s.freeHandle n s)) := by
  by_cases h0 : n = 0
  · exact Or.inl ⟨h0, by rw [execCreateOwned, if_pos h0]⟩
  by_cases h1 : s.freeHandle = 0 ∨ n > s.params.poolBytes
  · exact Or.inr (Or.inl ⟨h0, h1, by simp only [execCreateOwned, if_neg h0, if_pos h1]⟩)
  · refine Or.inr (Or.inr ⟨h0, by omega, by omega, ?_⟩)
    simp only [execCreateOwned, if_neg h0, if_neg h1, createIn]

/-- `WRAP_BUFFER` (R142): two errors, or the least free context made a full queue over the region. -/
theorem execWrapBuffer_cases (a n : Nat) (own : Bool) (s : State) :
    ((a = 0 ∨ n = 0) ∧ execWrapBuffer a n own s = raise .invalidArgument s) ∨
    (¬ (a = 0 ∨ n = 0) ∧ s.freeHandle = 0 ∧ execWrapBuffer a n own s = raise .allocationFailure s) ∨
    (¬ (a = 0 ∨ n = 0) ∧ s.freeHandle ≠ 0 ∧
      execWrapBuffer a n own s = respond { qh := s.freeHandle } (wrapIn s.freeHandle a n own s)) := by
  by_cases h0 : a = 0 ∨ n = 0
  · exact Or.inl ⟨h0, by rw [execWrapBuffer, if_pos h0]⟩
  by_cases h1 : s.freeHandle = 0
  · exact Or.inr (Or.inl ⟨h0, h1, by simp only [execWrapBuffer, if_neg h0, if_pos h1]⟩)
  · refine Or.inr (Or.inr ⟨h0, h1, ?_⟩)
    simp only [execWrapBuffer, if_neg h0, if_neg h1, wrapIn]

/-- The checks of the transfers that answer `InvalidArgument` (R151, R161). -/
abbrev transferInvalid (s : State) (qh addr size count : Nat) : Prop :=
  ¬ s.qPresent qh ∨ addr = 0 ∨ count = 0 ∨ size * 8 < count ∨ (s.ctx qh).live = false

/-- `WRITE_BITS` (R150, R151): three errors in their order, the fault of an impossible context, or the loop. -/
theorem execWriteBits_cases (qh saddr scap count : Nat) (s : State) :
    (transferInvalid s qh saddr scap count ∧ execWriteBits qh saddr scap count s = raise .invalidArgument s) ∨
    (¬ transferInvalid s qh saddr scap count ∧ count > (s.ctx qh).cap ∧
      execWriteBits qh saddr scap count s = raise .messageTooLarge s) ∨
    (¬ transferInvalid s qh saddr scap count ∧ count ≤ (s.ctx qh).cap ∧
      ((s.ctx qh).cap : Int) - (s.ctx qh).validBits < count ∧
      execWriteBits qh saddr scap count s = raise .wouldBlock s) ∨
    (¬ transferInvalid s qh saddr scap count ∧ (s.ctx qh).validBits + count ≤ (s.ctx qh).cap ∧
      ((s.ringOutsideRam qh ∧ execWriteBits qh saddr scap count s = .fault .ringOutsideRam) ∨
        (¬ s.ringOutsideRam qh ∧ execWriteBits qh saddr scap count s = writeLoop qh saddr scap count count 0 s))) := by
  simp only [transferInvalid, execWriteBits, Ctx.hasSpace, bufAbsent, decide_eq_false_iff_not]
  split
  · left; exact ⟨by tauto, rfl⟩
  split
  · left; exact ⟨by tauto, rfl⟩
  split
  · left; exact ⟨by tauto, rfl⟩
  split
  · left; exact ⟨by tauto, rfl⟩
  right
  have hv : ¬ (¬ s.qPresent qh ∨ saddr = 0 ∨ count = 0 ∨ scap * 8 < count ∨ (s.ctx qh).live = false) := by tauto
  split
  · left; exact ⟨hv, ‹_›, rfl⟩
  right
  split
  · left; exact ⟨hv, by omega, by omega, rfl⟩
  right
  refine ⟨hv, by omega, ?_⟩
  split
  · left; exact ⟨‹_›, rfl⟩
  · right; exact ⟨‹_›, rfl⟩

/-- `READ_BITS` (R160, R161): three errors in their order, the fault of an impossible context, or the loop. -/
theorem execReadBits_cases (qh daddr dcap count : Nat) (s : State) :
    (transferInvalid s qh daddr dcap count ∧ execReadBits qh daddr dcap count s = raise .invalidArgument s) ∨
    (¬ transferInvalid s qh daddr dcap count ∧ count > (s.ctx qh).cap ∧
      execReadBits qh daddr dcap count s = raise .messageTooLarge s) ∨
    (¬ transferInvalid s qh daddr dcap count ∧ count ≤ (s.ctx qh).cap ∧ (s.ctx qh).validBits < count ∧
      execReadBits qh daddr dcap count s = raise .wouldBlock s) ∨
    (¬ transferInvalid s qh daddr dcap count ∧ count ≤ (s.ctx qh).cap ∧ count ≤ (s.ctx qh).validBits ∧
      ((s.ringOutsideRam qh ∧ execReadBits qh daddr dcap count s = .fault .ringOutsideRam) ∨
        (¬ s.ringOutsideRam qh ∧ execReadBits qh daddr dcap count s = readLoop qh daddr dcap count count 0 s))) := by
  simp only [transferInvalid, execReadBits, Ctx.hasData, bufAbsent, decide_eq_false_iff_not]
  split
  · left; exact ⟨by tauto, rfl⟩
  split
  · left; exact ⟨by tauto, rfl⟩
  split
  · left; exact ⟨by tauto, rfl⟩
  split
  · left; exact ⟨by tauto, rfl⟩
  right
  have hv : ¬ (¬ s.qPresent qh ∨ daddr = 0 ∨ count = 0 ∨ dcap * 8 < count ∨ (s.ctx qh).live = false) := by tauto
  split
  · left; exact ⟨hv, ‹_›, rfl⟩
  right
  split
  · left; exact ⟨hv, by omega, by omega, rfl⟩
  right
  refine ⟨hv, by omega, by omega, ?_⟩
  split
  · left; exact ⟨‹_›, rfl⟩
  · right; exact ⟨‹_›, rfl⟩

/-- A query (R170, R171): `InvalidArgument` without a live context, else the answer. -/
theorem query_cases (qh : Nat) (answer : Ctx → Bool) (s : State) :
    ((¬ s.qPresent qh ∨ (s.ctx qh).live = false) ∧ query qh answer s = raise .invalidArgument s) ∨
    (s.qPresent qh ∧ (s.ctx qh).live = true ∧ query qh answer s = respond { flag := answer (s.ctx qh) } s) := by
  simp only [query]
  split
  · left; exact ⟨Or.inl ‹_›, rfl⟩
  split
  · left; exact ⟨Or.inr ‹_›, rfl⟩
  · right; exact ⟨not_not.1 ‹_›, by simpa using ‹¬ (s.ctx qh).live = false›, rfl⟩

/-- `DESTROY` (R175): `InvalidArgument` without a live context, else the context back at its reset value. -/
theorem execDestroy_cases (qh : Nat) (s : State) :
    ((¬ s.qPresent qh ∨ (s.ctx qh).live = false) ∧ execDestroy qh s = raise .invalidArgument s) ∨
    (s.qPresent qh ∧ (s.ctx qh).live = true ∧
      execDestroy qh s = respond { rel := (s.ctx qh).release } (s.modifyCtx qh fun _ => Ctx.reset)) := by
  simp only [execDestroy]
  split
  · left; exact ⟨Or.inl ‹_›, rfl⟩
  split
  · left; exact ⟨Or.inr ‹_›, rfl⟩
  · right; exact ⟨not_not.1 ‹_›, by simpa using ‹¬ (s.ctx qh).live = false›, rfl⟩

/-! ## How a command ends -/

/-- A command that answers a next state by `respond` leaves that state with the response. -/
theorem respond_inj {r : Response} {t : State} (h : respond r s = .next t) : t = { s with resp := r } := by
  injection h with e; exact e.symm

theorem freeHandle_zero (h : ∀ h, s.qPresent h → (s.ctx h).live = true) : s.freeHandle = 0 := by
  rcases freeHandle_cases s with ⟨h0, -⟩ | ⟨hp, hd, -⟩
  · exact h0
  · simp [h _ hp] at hd

theorem freeHandle_present (h : s.freeHandle ≠ 0) : s.qPresent s.freeHandle := by
  rcases freeHandle_cases s with ⟨h0, -⟩ | ⟨hp, -, -⟩
  · exact absurd h0 h
  · exact hp

theorem not_transferInvalid {qh addr size count : Nat} (hp : s.qPresent qh) (ha : addr ≠ 0) (h1 : 1 ≤ count)
    (hcap : count ≤ size * 8) (hl : (s.ctx qh).live = true) : ¬ transferInvalid s qh addr size count := by
  rintro (h | h | h | h | h)
  · exact h hp
  · exact ha h
  · omega
  · omega
  · simp [hl] at h

/-- A sound live context is in no private RAM too small for it. -/
theorem Ctx.liveOk.ring_inside {qh : Nat} (h : (s.ctx qh).liveOk s.params.poolBytes) : ¬ s.ringOutsideRam qh := by
  rintro ⟨hb, hlt⟩
  have := (h.2.2.2.2.2 hb).1
  omega

/-- R157: `WRITE_BITS` from a sound live context with room. -/
theorem execWriteBits_ok {qh saddr scap count : Nat} (hp : s.qPresent qh) (hl : (s.ctx qh).live = true)
    (hok : (s.ctx qh).liveOk s.params.poolBytes) (ha : saddr ≠ 0) (h1 : 1 ≤ count) (hcap : count ≤ scap * 8)
    (hroom : (s.ctx qh).validBits + count ≤ (s.ctx qh).cap) :
    execWriteBits qh saddr scap count s = respond { count := count } (writeAll qh saddr count s) := by
  rcases execWriteBits_cases qh saddr scap count s with
    ⟨k1, k⟩ | ⟨k1, k2, k⟩ | ⟨k1, k2, k3, k⟩ | ⟨k1, k2, ⟨k3, k⟩ | ⟨k3, k⟩⟩
  · exact absurd k1 (not_transferInvalid hp ha h1 hcap hl)
  · omega
  · omega
  · exact absurd k3 hok.ring_inside
  · rw [k, writeLoop_all hp hok.2.2.2.1 h1 hcap (by omega)]

/-- R164: `READ_BITS` from a sound live context with enough data. -/
theorem execReadBits_ok {qh daddr dcap count : Nat} (hp : s.qPresent qh) (hl : (s.ctx qh).live = true)
    (hok : (s.ctx qh).liveOk s.params.poolBytes) (ha : daddr ≠ 0) (h1 : 1 ≤ count) (hcap : count ≤ dcap * 8)
    (hdata : count ≤ (s.ctx qh).validBits) :
    execReadBits qh daddr dcap count s = respond { count := count } (readAll qh daddr count s) := by
  have := hok.2.2.2.2.1.1
  rcases execReadBits_cases qh daddr dcap count s with
    ⟨k1, k⟩ | ⟨k1, k2, k⟩ | ⟨k1, k2, k3, k⟩ | ⟨k1, k2, k4, ⟨k3, k⟩ | ⟨k3, k⟩⟩
  · exact absurd k1 (not_transferInvalid hp ha h1 hcap hl)
  · omega
  · omega
  · exact absurd k3 hok.ring_inside
  · rw [k, readLoop_all hp hok.2.2.2.1 h1 hcap (by omega)]

/-- What survives byte writes to the ring, advances of the write cursor and a response survives `WRITE_BITS`, from any
state. -/
theorem execWriteBits_induct {P : State → Prop} {qh saddr scap count : Nat} {t : State}
    (ht : execWriteBits qh saddr scap count s = .next t) (h0 : P s)
    (hw : ∀ s i v, P s → i < (s.ctx qh).bufSize → P (bufWrite s (s.qbuf qh) i v))
    (hc : ∀ s k, P s → P (s.modifyCtx qh (Ctx.advanceWrite k))) (hr : ∀ s r, P s → P { s with resp := r }) : P t := by
  rcases execWriteBits_cases qh saddr scap count s with
    ⟨k1, k⟩ | ⟨k1, k2, k⟩ | ⟨k1, k2, k3, k⟩ | ⟨k1, k2, ⟨k3, k⟩ | ⟨k3, k⟩⟩
  · rw [respond_inj (k.symm.trans ht)]; exact hr _ _ h0
  · rw [respond_inj (k.symm.trans ht)]; exact hr _ _ h0
  · rw [respond_inj (k.symm.trans ht)]; exact hr _ _ h0
  · rw [k] at ht; cases ht
  · obtain ⟨u, hu, hP⟩ := writeLoop_induct (fuel := count) (moved := 0) (a := saddr) (cap := scap) (count := count)
      h0 hw hc hr
    rw [k, hu] at ht; injection ht with e; subst e; exact hP

/-- What survives byte writes to the destination, advances of the read cursor and a response survives `READ_BITS`, from
any state. -/
theorem execReadBits_induct {P : State → Prop} {qh daddr dcap count : Nat} {t : State}
    (ht : execReadBits qh daddr dcap count s = .next t) (h0 : P s)
    (hw : ∀ s i v, P s → i * 8 < count → P (bufWrite s (.ext daddr) i v))
    (hc : ∀ s k, P s → P (s.modifyCtx qh (Ctx.advanceRead k))) (hr : ∀ s r, P s → P { s with resp := r }) : P t := by
  rcases execReadBits_cases qh daddr dcap count s with
    ⟨k1, k⟩ | ⟨k1, k2, k⟩ | ⟨k1, k2, k3, k⟩ | ⟨k1, k2, k4, ⟨k3, k⟩ | ⟨k3, k⟩⟩
  · rw [respond_inj (k.symm.trans ht)]; exact hr _ _ h0
  · rw [respond_inj (k.symm.trans ht)]; exact hr _ _ h0
  · rw [respond_inj (k.symm.trans ht)]; exact hr _ _ h0
  · rw [k] at ht; cases ht
  · obtain ⟨u, hu, hP⟩ := readLoop_induct (fuel := count) (moved := 0) (a := daddr) (cap := dcap) (count := count)
      h0 hw hc hr
    rw [k, hu] at ht; injection ht with e; subst e; exact hP

/-! ## Contexts after the constructors -/

variable {h n a : Nat} {own : Bool}

theorem createIn_ctx (hp : s.qPresent h) (g : Nat) :
    (createIn h n s).ctx g = if h = g then Ctx.created n else s.ctx g := by
  rw [createIn, State.modifyCtx_ctx _ _ _ _ (by simpa [State.qPresent] using hp)]
  simp

theorem createIn_ram (hp : s.qPresent h) (g : Nat) :
    (createIn h n s).ram g = if h = g then (s.ram h).zeroBelow n else s.ram g := by
  rw [createIn, State.modifyCtx_ram, State.modifyRam_ram _ _ _ _ hp]

theorem createIn_queue_ne (g : Nat) (hne : h ≠ g) : (createIn h n s).queue g = s.queue g := by
  rw [createIn, State.modifyCtx_queue_ne _ _ _ _ hne, State.modifyRam_queue_ne _ _ _ _ hne]

@[simp] theorem createIn_params : (createIn h n s).params = s.params := by simp [createIn]
@[simp] theorem createIn_mem : (createIn h n s).mem = s.mem := by simp [createIn]
@[simp] theorem createIn_host : (createIn h n s).host = s.host := by simp [createIn]
@[simp] theorem createIn_nq : (createIn h n s).nq = s.nq := by simp [createIn]

theorem wrapIn_ctx (hp : s.qPresent h) (g : Nat) :
    (wrapIn h a n own s).ctx g = if h = g then Ctx.wrapped a n own else s.ctx g := by
  rw [wrapIn, State.modifyCtx_ctx _ _ _ _ hp]

@[simp] theorem wrapIn_ram (g : Nat) : (wrapIn h a n own s).ram g = s.ram g := by simp [wrapIn]
@[simp] theorem wrapIn_params : (wrapIn h a n own s).params = s.params := by simp [wrapIn]
@[simp] theorem wrapIn_mem : (wrapIn h a n own s).mem = s.mem := by simp [wrapIn]
@[simp] theorem wrapIn_host : (wrapIn h a n own s).host = s.host := by simp [wrapIn]
@[simp] theorem wrapIn_nq : (wrapIn h a n own s).nq = s.nq := by simp [wrapIn]

end

end Sys2Proof.Machine
end

