-- ==== Sys2Proof/Laws/Bisim.lean ====
section
/-! SUPPORT. Two transfers run side by side: a relation between states that the single operations of a transfer keep is
kept by the whole transfer, and the two answer alike. -/

namespace Sys2Proof.Machine

/-- A relation between states that a transfer on context `h` cannot tell apart: what it reads is equal, and what it
changes keeps the relation. -/
structure Bisim (h : Nat) (R : State → State → Prop) : Prop where
  params : ∀ t t', R t t' → t.params = t'.params
  nq : ∀ t t', R t t' → t.nq = t'.nq
  ctx : ∀ t t', R t t' → t.ctx h = t'.ctx h
  ring : ∀ t t' i, R t t' → i < (t.ctx h).bufSize → bufRead t (t.qbuf h) i = bufRead t' (t.qbuf h) i
  ext : ∀ t t' a i, R t t' → bufRead t (.ext a) i = bufRead t' (.ext a) i
  writeRing : ∀ t t' i v, R t t' → i < (t.ctx h).bufSize →
    R (bufWrite t (t.qbuf h) i v) (bufWrite t' (t.qbuf h) i v)
  writeExt : ∀ t t' a i v, R t t' → R (bufWrite t (.ext a) i v) (bufWrite t' (.ext a) i v)
  advanceWrite : ∀ t t' k, R t t' → R (t.modifyCtx h (Ctx.advanceWrite k)) (t'.modifyCtx h (Ctx.advanceWrite k))
  advanceRead : ∀ t t' k, R t t' → R (t.modifyCtx h (Ctx.advanceRead k)) (t'.modifyCtx h (Ctx.advanceRead k))
  respond : ∀ t t' r, R t t' → R { t with resp := r } { t' with resp := r }

/-- A copy keeps a relation that its reads respect and its writes keep. -/
theorem copyMove_bisim {R : State → State → Prop} {D S : Buf} {d p m : Nat} {s s' : State} (h0 : R s s')
    (hD : ∀ t t' q, R t t' → d ≤ q → q < d + m → bufRead t D (q / 8) = bufRead t' D (q / 8))
    (hS : ∀ t t' q, R t t' → p ≤ q → q < p + m → bufRead t S (q / 8) = bufRead t' S (q / 8))
    (hw : ∀ t t' q v, R t t' → d ≤ q → q < d + m → R (bufWrite t D (q / 8) v) (bufWrite t' D (q / 8) v)) :
    R (copyMove D d S p m s) (copyMove D d S p m s') := by
  have key : ∀ l : List Run, (∀ r ∈ l, (d ≤ r.dst ∧ r.dst < d + m) ∧ p ≤ r.src ∧ r.src < p + m) →
      ∀ t t', R t t' → R (l.foldl (copyRun D S) t) (l.foldl (copyRun D S) t') := by
    intro l
    induction l with
    | nil => exact fun _ _ _ h => h
    | cons r l ih =>
      intro hl t t' ht
      obtain ⟨h1, h2⟩ := hl r (by simp)
      refine ih (fun r hr => hl r (by simp [hr])) _ _ ?_
      simp only [copyRun]
      rw [hD t t' _ ht h1.1 h1.2, hS t t' _ ht h2.1 h2.2]
      exact hw t t' _ _ ht h1.1 h1.2
  refine key _ (fun r hr => ?_) s s' h0
  obtain ⟨hf, h1, h2, h3⟩ := mem_copyRuns hr
  have := hf.pos
  omega

/-- A clear keeps a relation that its reads respect and its writes keep. -/
theorem clearBits_bisim {R : State → State → Prop} {B : Buf} {byte bit k : Nat} {s s' : State} (h0 : R s s')
    (hB : ∀ t t' q, R t t' → linear byte bit ≤ q → q < linear byte bit + k →
      bufRead t B (q / 8) = bufRead t' B (q / 8))
    (hw : ∀ t t' q v, R t t' → linear byte bit ≤ q → q < linear byte bit + k →
      R (bufWrite t B (q / 8) v) (bufWrite t' B (q / 8) v)) :
    R (clearBits B byte bit k s) (clearBits B byte bit k s') := by
  have key : ∀ l : List (Nat × Nat), (∀ r ∈ l, linear byte bit ≤ r.1 ∧ r.1 < linear byte bit + k) →
      ∀ t t', R t t' → R (l.foldl (clearRun B) t) (l.foldl (clearRun B) t') := by
    intro l
    induction l with
    | nil => exact fun _ _ _ h => h
    | cons r l ih =>
      intro hl t t' ht
      obtain ⟨h1, h2⟩ := hl r (by simp)
      refine ih (fun r hr => hl r (by simp [hr])) _ _ ?_
      simp only [clearRun]
      rw [hB t t' _ ht h1 h2]
      exact hw t t' _ _ ht h1 h2
  exact key _ (fun r hr => mem_clearRuns hr) s s' h0

section
variable {h a cap count : Nat} {R : State → State → Prop} {s s' : State}

/-- The relation beside the parts of the context that no transfer changes. -/
theorem Bisim.qbuf (hb : Bisim h R) (h0 : R s s') : s.qbuf h = s'.qbuf h := by
  simp only [State.qbuf, hb.ctx _ _ h0]

/-- The ring of a state related to another whose ring and size are `B` and `n`. -/
def RingIs (h : Nat) (B : Buf) (n : Nat) (t : State) : Prop := t.qbuf h = B ∧ (t.ctx h).bufSize = n

theorem RingIs.bufWrite {B B' : Buf} {n i : Nat} {v : Byte} (hr : RingIs h B n s) : RingIs h B n (bufWrite s B' i v) :=
  ⟨by rw [bufWrite_qbuf]; exact hr.1, by rw [bufWrite_ctx]; exact hr.2⟩

/-- One invocation of `WRITE_BITS` gives the same result and keeps the relation. -/
theorem Bisim.writeInvocation_alike (hb : Bisim h R) (h0 : R s s') (moved : Nat) :
    (writeInvocation h a cap count moved s).1 = (writeInvocation h a cap count moved s').1 ∧
      R (writeInvocation h a cap count moved s).2 (writeInvocation h a cap count moved s').2 := by
  have hroom : ∀ k, (s.ctx h).writeChunk k = 0 ∨
      linear (s.ctx h).wrByte (s.ctx h).wrBit + (s.ctx h).writeChunk k ≤ (s.ctx h).bufSize * 8 := by
    intro k; simp only [Ctx.writeChunk, linear]; omega
  let Q : State → State → Prop := fun t t' => R t t' ∧ RingIs h (s.qbuf h) (s.ctx h).bufSize t
  have h0Q : Q s s' := ⟨h0, rfl, rfl⟩
  have ring : ∀ t t' i, Q t t' → i < (s.ctx h).bufSize → bufRead t (s.qbuf h) i = bufRead t' (s.qbuf h) i := by
    rintro t t' i ⟨ht, hq, hn⟩ hi
    rw [← hq]
    exact hb.ring t t' i ht (by omega)
  have write : ∀ t t' i v, Q t t' → i < (s.ctx h).bufSize →
      Q (bufWrite t (s.qbuf h) i v) (bufWrite t' (s.qbuf h) i v) := by
    rintro t t' i v ⟨ht, hr⟩ hi
    refine ⟨?_, hr.bufWrite⟩
    rw [← hr.1]
    exact hb.writeRing t t' i v ht (by rw [hr.2]; exact hi)
  have hpre : ∀ k, Q (preclear h ((s.ctx h).writeChunk k) s) (preclear h ((s.ctx h).writeChunk k) s') := by
    intro k
    rw [preclear, preclear, ← hb.params _ _ h0, ← hb.ctx _ _ h0, ← hb.qbuf h0]
    split
    · refine clearBits_bisim (R := Q) h0Q (fun t t' q ht h1 h2 => ring t t' _ ht ?_)
        (fun t t' q v ht h1 h2 => write t t' _ v ht ?_) <;> rcases hroom k with hz | hz <;> omega
    · exact h0Q
  simp only [writeInvocation, ← hb.ctx _ _ h0, ← hb.qbuf h0]
  rcases copyBits_eq (s.qbuf h) (s.ctx h).wrByte (s.ctx h).wrBit (s.ctx h).bufSize (.ext a) (moved / 8) (moved % 8)
    cap ((s.ctx h).writeChunk (count - moved)) (preclear h ((s.ctx h).writeChunk (count - moved)) s)
    with ⟨k, hk, heq⟩ | ⟨m, hm, heq⟩
  · simp only [copyBits, hk]
    exact ⟨trivial, (hpre _).1⟩
  · simp only [copyBits, hm]
    have hm := copyPlan_transferred.1 hm
    refine ⟨trivial, (copyMove_bisim (R := Q) (hpre _) (fun t t' q ht h1 h2 => ring t t' _ ht (by omega))
      (fun t t' q ht _ _ => hb.ext t t' _ _ ht.1) (fun t t' q v ht h1 h2 => write t t' _ v ht (by omega))).1⟩

/-- The loop of `WRITE_BITS` answers alike and keeps the relation. -/
theorem Bisim.writeLoop_alike (hb : Bisim h R) {fuel moved : Nat} (h0 : R s s') :
    ∃ t t', writeLoop h a cap count fuel moved s = .next t ∧ writeLoop h a cap count fuel moved s' = .next t' ∧
      t.resp = t'.resp ∧ R t t' := by
  induction fuel generalizing moved s s' with
  | zero => exact ⟨_, _, rfl, rfl, rfl, hb.respond _ _ _ h0⟩
  | succ fuel ih =>
    rw [writeLoop, writeLoop]
    split
    · obtain ⟨h1, h2⟩ := hb.writeInvocation_alike (a := a) (cap := cap) (count := count) h0 moved
      generalize writeInvocation h a cap count moved s = x at *
      generalize writeInvocation h a cap count moved s' = x' at *
      obtain ⟨r, u⟩ := x
      obtain ⟨r', u'⟩ := x'
      obtain rfl : r = r' := h1
      cases r with
      | err k => exact ⟨_, _, rfl, rfl, rfl, hb.respond _ _ _ h2⟩
      | transferred k =>
        simp only
        split
        · exact ⟨_, _, rfl, rfl, rfl, hb.respond _ _ _ h2⟩
        · exact ih (hb.advanceWrite _ _ _ h2)
    · exact ⟨_, _, rfl, rfl, rfl, hb.respond _ _ _ h0⟩

/-- One invocation of `READ_BITS` gives the same result and keeps the relation. -/
theorem Bisim.readInvocation_alike (hb : Bisim h R) (h0 : R s s') (moved : Nat) :
    (readInvocation h a cap count moved s).1 = (readInvocation h a cap count moved s').1 ∧
      R (readInvocation h a cap count moved s).2 (readInvocation h a cap count moved s').2 := by
  let Q : State → State → Prop := fun t t' => R t t' ∧ RingIs h (s.qbuf h) (s.ctx h).bufSize t
  have h0Q : Q s s' := ⟨h0, rfl, rfl⟩
  simp only [readInvocation, ← hb.ctx _ _ h0, ← hb.qbuf h0]
  rcases copyBits_eq (.ext a) (moved / 8) (moved % 8) cap (s.qbuf h) (s.ctx h).rdByte (s.ctx h).rdBit
    (s.ctx h).bufSize (count - moved) s with ⟨k, hk, heq⟩ | ⟨m, hm, heq⟩
  · simp only [copyBits, hk]
    exact ⟨trivial, h0⟩
  · simp only [copyBits, hm]
    have hm := copyPlan_transferred.1 hm
    refine ⟨trivial, (copyMove_bisim (R := Q) h0Q (fun t t' q ht _ _ => hb.ext t t' _ _ ht.1) ?_ ?_).1⟩
    · rintro t t' q ⟨ht, hq, hn⟩ h1 h2
      rw [← hq]
      exact hb.ring t t' _ ht (by omega)
    · exact fun t t' q v ht _ _ => ⟨hb.writeExt t t' _ _ v ht.1, ht.2.bufWrite⟩

/-- The loop of `READ_BITS` answers alike and keeps the relation. -/
theorem Bisim.readLoop_alike (hb : Bisim h R) {fuel moved : Nat} (h0 : R s s') :
    ∃ t t', readLoop h a cap count fuel moved s = .next t ∧ readLoop h a cap count fuel moved s' = .next t' ∧
      t.resp = t'.resp ∧ R t t' := by
  induction fuel generalizing moved s s' with
  | zero => exact ⟨_, _, rfl, rfl, rfl, hb.respond _ _ _ h0⟩
  | succ fuel ih =>
    rw [readLoop, readLoop]
    split
    · obtain ⟨h1, h2⟩ := hb.readInvocation_alike (a := a) (cap := cap) (count := count) h0 moved
      generalize readInvocation h a cap count moved s = x at *
      generalize readInvocation h a cap count moved s' = x' at *
      obtain ⟨r, u⟩ := x
      obtain ⟨r', u'⟩ := x'
      obtain rfl : r = r' := h1
      cases r with
      | err k => exact ⟨_, _, rfl, rfl, rfl, hb.respond _ _ _ h2⟩
      | transferred k =>
        simp only
        split
        · exact ⟨_, _, rfl, rfl, rfl, hb.respond _ _ _ h2⟩
        · exact ih (hb.advanceRead _ _ _ h2)
    · exact ⟨_, _, rfl, rfl, rfl, hb.respond _ _ _ h0⟩

end

end Sys2Proof.Machine
end

