-- ==== Sys2Proof/Laws/Decode.lean ====
section
/-! SUPPORT. The fields of a packed descriptor, and a descriptor's way through bytes and back. -/

namespace Sys2Proof

section
variable {op qh dbit sbit own : Nat}

/-- `W0` gives back the fields packed into it when each fits (R81). -/
theorem packHeader_bits (h1 : op < 2 ^ 8) (h2 : qh < 2 ^ 8) (h3 : dbit < 2 ^ 4) (h4 : sbit < 2 ^ 4) (h5 : own < 2) :
    wordBits (packHeader op qh dbit sbit own) 0 8 = op ∧ wordBits (packHeader op qh dbit sbit own) 8 8 = qh ∧
      wordBits (packHeader op qh dbit sbit own) 16 4 = dbit ∧ wordBits (packHeader op qh dbit sbit own) 20 4 = sbit ∧
      wordBits (packHeader op qh dbit sbit own) 24 1 = own ∧ wordBits (packHeader op qh dbit sbit own) 25 7 = 0 := by
  simp only [wordBits, packHeader, BitVec.toNat_ofNat]
  omega

end

/-- A word is its four little-endian bytes (R83). -/
theorem wordOfBytes_bytesOfWord (w : Word) :
    wordOfBytes (BitVec.ofNat 8 (wordBits w 0 8)) (BitVec.ofNat 8 (wordBits w 8 8)) (BitVec.ofNat 8 (wordBits w 16 8))
      (BitVec.ofNat 8 (wordBits w 24 8)) = w := by
  apply BitVec.eq_of_toNat_eq
  have := w.isLt
  simp only [wordOfBytes, wordBits, BitVec.toNat_ofNat]
  omega

theorem wordsOfBytes_bytes (w : Word) (rest : List Byte) :
    wordsOfBytes (bytesOfWord w ++ rest) = w :: wordsOfBytes rest := by
  simp only [bytesOfWord, List.cons_append, List.nil_append, wordsOfBytes, wordOfBytes_bytesOfWord]

/-- Decoding a descriptor's 32 bytes is decoding the descriptor (R83). -/
theorem decodeBytes_bytes (d : Descriptor) : decodeBytes d.bytes = decode d := by
  have hlen : d.bytes.length = 32 := by simp [Descriptor.bytes, bytesOfWord]
  have hw : wordsOfBytes d.bytes = [d.w0, d.w1, d.w2, d.w3, d.w4, d.w5, d.w6, d.w7] := by
    simp only [Descriptor.bytes, List.append_assoc, wordsOfBytes_bytes]
    rw [← List.append_nil (bytesOfWord d.w7), wordsOfBytes_bytes]
    rfl
  simp only [decodeBytes, hlen, if_true, hw]

/-- The nine cases of decoding (R85, R90). -/
theorem decode_cases (d : Descriptor) :
    (d.get .op = 1 ∧ decode d = .ok (.copyBits (d.get .daddr) (d.get .dbyte) (d.get .dbit) (d.get .dcap) (d.get .saddr)
      (d.get .sbyte) (d.get .sbit) (d.get .scap) (d.get .count))) ∨
    (d.get .op = 2 ∧ decode d = .ok (.createOwned (d.get .dcap))) ∨
    (d.get .op = 3 ∧ decode d = .ok (.wrapBuffer (d.get .daddr) (d.get .dcap) (d.get .own == 1))) ∨
    (d.get .op = 4 ∧ decode d = .ok (.writeBits (d.get .qh) (d.get .saddr) (d.get .scap) (d.get .count))) ∨
    (d.get .op = 5 ∧ decode d = .ok (.readBits (d.get .qh) (d.get .daddr) (d.get .dcap) (d.get .count))) ∨
    (d.get .op = 6 ∧ decode d = .ok (.hasSpace (d.get .qh) (d.get .count))) ∨
    (d.get .op = 7 ∧ decode d = .ok (.hasData (d.get .qh) (d.get .count))) ∨
    (d.get .op = 8 ∧ decode d = .ok (.destroy (d.get .qh))) ∨
    ((d.get .op = 0 ∨ 9 ≤ d.get .op) ∧ decode d = .error (.illegalOp (d.get .op))) := by
  unfold decode
  split <;> simp_all
  omega

/-- The width of each field (R81, R82). -/
theorem Descriptor.get_lt (d : Descriptor) :
    d.get .op < 2 ^ 8 ∧ d.get .qh < 2 ^ 8 ∧ d.get .dbit < 2 ^ 4 ∧ d.get .sbit < 2 ^ 4 ∧ d.get .own < 2 ∧
      d.get .count < 2 ^ 32 ∧ d.get .daddr < 2 ^ 32 ∧ d.get .dbyte < 2 ^ 32 ∧ d.get .dcap < 2 ^ 32 ∧
      d.get .saddr < 2 ^ 32 ∧ d.get .sbyte < 2 ^ 32 ∧ d.get .scap < 2 ^ 32 := by
  simp only [Descriptor.get, wordBits]
  have := d.w1.isLt; have := d.w2.isLt; have := d.w3.isLt; have := d.w4.isLt; have := d.w5.isLt
  have := d.w6.isLt; have := d.w7.isLt
  omega

/-- `decodeTableWord` is the descriptor decoder on the numbered word. -/
theorem decodeTableWord_eq (nbits w : Nat) (i : Instr) :
    decodeTableWord nbits w = some i ↔ decode (Descriptor.ofNat (w % 2 ^ nbits)) = .ok i := by
  rw [decodeTableWord, decodeBytes_bytes]
  cases decode (Descriptor.ofNat (w % 2 ^ nbits)) <;> simp [Except.toOption]

end Sys2Proof
end

