-- ==== Sys2Proof/Laws/Inv.lean ====
section
/-! SUPPORT. The invariant by its parts: what each operation keeps of it. -/

namespace Sys2Proof.Machine

/-- Every memory of the state canonical and inside its address space. -/
structure State.MemOk (s : State) : Prop where
  ram : ∀ h, s.qPresent h → (s.ram h).wf ∧ (s.ram h).within s.params.poolBytes
  wf : s.mem.wf
  within : s.mem.within (2 ^ AW)

/-- The invariant by handles: parameters, contexts, memories, response. -/
theorem State.inv_iff (s : State) :
    s.Inv ↔ (1 ≤ s.params.poolBytes ∧ s.params.poolBytes < 2 ^ SW) ∧ (1 ≤ s.nq ∧ s.nq ≤ maxNQ) ∧
      (∀ h, s.qPresent h → (s.ctx h).ok s.params.poolBytes) ∧ s.MemOk ∧ s.resp.fitsWords := by
  rw [State.Inv, State.forall_queues s fun q => q.ok s.params.poolBytes]
  constructor
  · rintro ⟨h1, h2, h3, h4, h5, h6⟩
    exact ⟨h1, h2, fun h hp => (h3 h hp).1, ⟨fun h hp => (h3 h hp).2, h4, h5⟩, h6⟩
  · rintro ⟨h1, h2, h3, ⟨h4, h5, h6⟩, h7⟩
    exact ⟨h1, h2, fun h hp => ⟨h3 h hp, h4 h hp⟩, h5, h6, h7⟩

section
variable {s : State}

theorem State.Inv.ctx_ok (hi : s.Inv) {h : Nat} (hp : s.qPresent h) : (s.ctx h).ok s.params.poolBytes :=
  ((State.inv_iff s).1 hi).2.2.1 h hp

theorem State.Inv.live_ok (hi : s.Inv) {h : Nat} (hp : s.qPresent h) (hl : (s.ctx h).live = true) :
    (s.ctx h).liveOk s.params.poolBytes := (hi.ctx_ok hp).1 hl

theorem State.Inv.memOk (hi : s.Inv) : s.MemOk := ((State.inv_iff s).1 hi).2.2.2.1

/-- From a sound state no transfer faults (R52). -/
theorem State.Inv.ring_inside (hi : s.Inv) {h : Nat} (hp : s.qPresent h) (hl : (s.ctx h).live = true) :
    ¬ s.ringOutsideRam h := by
  rintro ⟨hb, hlt⟩
  have := ((hi.live_ok hp hl).2.2.2.2.2 hb).1
  omega

/-- What keeps the invariant: the parameters and the number of contexts, sound contexts, sound memories, a response
within its widths. -/
theorem State.Inv.of_parts (hi : s.Inv) {t : State} (hpar : t.params = s.params) (hn : t.nq = s.nq)
    (hc : ∀ h, s.qPresent h → (t.ctx h).ok s.params.poolBytes) (hm : t.MemOk) (hr : t.resp.fitsWords) : t.Inv := by
  obtain ⟨h1, h2, -⟩ := (State.inv_iff s).1 hi
  refine (State.inv_iff t).2 ⟨by rwa [hpar], by rwa [hn], fun h hp => ?_, hm, hr⟩
  rw [hpar]
  exact hc h (by simpa only [State.qPresent, hn] using hp)

/-- A response within its widths keeps the invariant. -/
theorem State.Inv.withResp (hi : s.Inv) (r : Response) (hr : r.fitsWords) : State.Inv { s with resp := r } :=
  ⟨hi.1, hi.2.1, hi.2.2.1, hi.2.2.2.1, hi.2.2.2.2.1, hr⟩

theorem State.Inv.withHost (hi : s.Inv) (es : List HostEvent) : State.Inv { s with host := es } := hi

theorem State.MemOk.congr (hm : s.MemOk) {t : State} (hpar : t.params = s.params) (hn : t.nq = s.nq)
    (hmem : t.mem = s.mem) (hr : ∀ h, t.ram h = s.ram h) : t.MemOk :=
  ⟨fun h hp => by rw [hr, hpar]; exact hm.ram h (by simpa only [State.qPresent, hn] using hp), by rw [hmem]; exact hm.wf,
    by rw [hmem]; exact hm.within⟩

theorem State.MemOk.modifyCtx (hm : s.MemOk) (h : Nat) (f : Ctx → Ctx) : (s.modifyCtx h f).MemOk :=
  hm.congr (by simp) (by simp) (by simp) (by simp)

/-- A byte write inside its space keeps the memories sound. -/
theorem State.MemOk.writeLoc (hm : s.MemOk) (l : Loc) (v : Byte)
    (hl : match l with | .mem a => a < 2 ^ AW | .ram _ i => i < s.params.poolBytes) : (s.writeLoc l v).MemOk := by
  cases l with
  | mem a =>
    refine ⟨fun h hp => ?_, Memory.wf_write _ _ _ hm.wf, Memory.within_write _ _ _ _ hm.within hl⟩
    have : (s.writeLoc (.mem a) v).ram h = s.ram h := by cases h <;> rfl
    rw [this]
    exact hm.ram h hp
  | ram g i =>
    refine ⟨fun h hp => ?_, by rw [State.writeLoc_mem_ram]; exact hm.wf, by rw [State.writeLoc_mem_ram]; exact hm.within⟩
    rw [State.writeLoc_params]
    have hp' : s.qPresent h := by simpa [State.qPresent] using hp
    have hok := hm.ram h hp'
    by_cases hg : s.qPresent g
    · rw [State.writeLoc, State.modifyRam_ram _ _ _ _ hg]
      split
      · subst_vars
        exact ⟨Memory.wf_write _ _ _ hok.1, Memory.within_write _ _ _ _ hok.2 hl⟩
      · exact hok
    · rw [State.writeLoc, State.modifyRam, State.modifyQueue_absent _ _ _ hg]
      exact hok

theorem State.MemOk.bufWrite_ext (hm : s.MemOk) (a i : Nat) (v : Byte) : (bufWrite s (.ext a) i v).MemOk :=
  hm.writeLoc _ _ (Nat.mod_lt _ (by simp [AW]))

/-- A write to the ring of a context whose ring fits its RAM keeps the memories sound. -/
theorem State.MemOk.bufWrite_qbuf (hm : s.MemOk) {h i : Nat} (v : Byte) (hin : ¬ s.ringOutsideRam h)
    (hi : i < (s.ctx h).bufSize) : (bufWrite s (s.qbuf h) i v).MemOk := by
  rw [State.qbuf]
  split
  · refine hm.writeLoc _ _ ?_
    show i < s.params.poolBytes
    simp only [State.ringOutsideRam, ‹(s.ctx h).bufInt = true›, true_and, Nat.not_lt] at hin
    omega
  · exact hm.bufWrite_ext _ _ _

/-- A copy into `M` keeps the memories sound. -/
theorem State.MemOk.copyMove_ext (hm : s.MemOk) (a d p m : Nat) (S : Buf) : (copyMove (.ext a) d S p m s).MemOk :=
  copyMove_induct hm fun _ _ _ ht _ _ => ht.bufWrite_ext _ _ _

end

/-! ## Contexts -/

theorem Ctx.reset_ok (pool : Nat) : Ctx.reset.ok pool := ⟨fun h => by simp [Ctx.reset] at h, fun _ => rfl⟩

/-- R143: a fresh owned queue is sound. -/
theorem Ctx.created_ok {pool n : Nat} (h0 : n ≠ 0) (hn : n ≤ pool) (hp : pool < 2 ^ SW) : (Ctx.created n).ok pool := by
  refine ⟨fun _ => ?_, fun h => by simp [Ctx.created] at h⟩
  simp only [Ctx.liveOk, Ctx.cursorsInRing, Ctx.countIsDistance, Ctx.created, Ctx.cap, Ctx.wrPos, Ctx.rdPos, linear, AW]
  refine ⟨by omega, by omega, by omega, by omega, ⟨by omega, by simp⟩, by simp; omega⟩

/-- R143, R31: a fresh wrapped queue is sound. -/
theorem Ctx.wrapped_ok {pool a n : Nat} {own : Bool} (h0 : n ≠ 0) (ha : a < 2 ^ AW) (hn : n < 2 ^ SW) :
    (Ctx.wrapped a n own).ok pool := by
  refine ⟨fun _ => ?_, fun h => by simp [Ctx.wrapped] at h⟩
  simp only [Ctx.liveOk, Ctx.cursorsInRing, Ctx.countIsDistance, Ctx.wrapped, Ctx.cap, Ctx.wrPos, Ctx.rdPos, linear]
  refine ⟨by omega, by omega, by omega, by omega, ⟨by omega, by simp⟩, by simp⟩

/-- R158: a successful write leaves a sound context. -/
theorem Ctx.liveOk_write {pool count : Nat} {c : Ctx} (hc : c.liveOk pool) (hcount : c.validBits + count ≤ c.cap) :
    Ctx.liveOk pool { c with
      wrByte := (c.wrPos + count) % c.cap / 8
      wrBit := (c.wrPos + count) % c.cap % 8
      validBits := c.validBits + count } := by
  obtain ⟨h1, h2, h3, h4, h5, h6⟩ := hc
  have hw := Ctx.wrPos_lt_cap h4
  have hr := Ctx.rdPos_lt_cap h4
  obtain ⟨-, hd⟩ := (Ctx.countIsDistance_iff h4).1 h5
  have hmod : (c.wrPos + count) % c.cap = c.wrPos + count ∨ (c.wrPos + count) % c.cap + c.cap = c.wrPos + count := by
    rcases Nat.lt_or_ge (c.wrPos + count) c.cap with hlt | hge
    · left; exact Nat.mod_eq_of_lt hlt
    · right
      rw [Nat.mod_eq_sub_mod hge, Nat.mod_eq_of_lt (by omega)]
      omega
  have hlt : (c.wrPos + count) % c.cap < c.cap := Nat.mod_lt _ (by omega)
  generalize (c.wrPos + count) % c.cap = p at *
  have hcur : Ctx.cursorsInRing { c with wrByte := p / 8, wrBit := p % 8, validBits := c.validBits + count } := by
    refine ⟨?_, ?_, h4.2.2.1, h4.2.2.2⟩ <;> simp only [Ctx.cap] at * <;> omega
  refine ⟨h1, h2, h3, hcur, (Ctx.countIsDistance_iff hcur).2 ⟨hcount, ?_⟩, h6⟩
  simp only [Ctx.wrPos, Ctx.rdPos, Ctx.cap, linear] at *
  omega

/-- R165: a successful read leaves a sound context. -/
theorem Ctx.liveOk_read {pool count : Nat} {c : Ctx} (hc : c.liveOk pool) (hcount : count ≤ c.validBits) :
    Ctx.liveOk pool { c with
      rdByte := (c.rdPos + count) % c.cap / 8
      rdBit := (c.rdPos + count) % c.cap % 8
      validBits := c.validBits - count } := by
  obtain ⟨h1, h2, h3, h4, h5, h6⟩ := hc
  have hw := Ctx.wrPos_lt_cap h4
  have hr := Ctx.rdPos_lt_cap h4
  obtain ⟨hv, hd⟩ := (Ctx.countIsDistance_iff h4).1 h5
  have hmod : (c.rdPos + count) % c.cap = c.rdPos + count ∨ (c.rdPos + count) % c.cap + c.cap = c.rdPos + count := by
    rcases Nat.lt_or_ge (c.rdPos + count) c.cap with hlt | hge
    · left; exact Nat.mod_eq_of_lt hlt
    · right
      rw [Nat.mod_eq_sub_mod hge, Nat.mod_eq_of_lt (by omega)]
      omega
  have hlt : (c.rdPos + count) % c.cap < c.cap := Nat.mod_lt _ (by omega)
  generalize (c.rdPos + count) % c.cap = p at *
  have hcur : Ctx.cursorsInRing { c with rdByte := p / 8, rdBit := p % 8, validBits := c.validBits - count } := by
    refine ⟨h4.1, h4.2.1, ?_, ?_⟩ <;> simp only [Ctx.cap] at * <;> omega
  refine ⟨h1, h2, h3, hcur, (Ctx.countIsDistance_iff hcur).2 ⟨?_, ?_⟩, h6⟩
  · simp only [Ctx.cap] at *; omega
  · simp only [Ctx.wrPos, Ctx.rdPos, Ctx.cap, linear] at *
    omega

/-! ## The transfers -/

section
variable {s : State} {h a count : Nat}

/-- A successful write keeps the memories sound. -/
theorem writeAll_memOk (hi : s.Inv) (hp : s.qPresent h) (hl : (s.ctx h).live = true) (cap : Nat) (h0 : 1 ≤ count)
    (hcap : count ≤ cap * 8) (hcount : count ≤ (s.ctx h).cap) : (writeAll h a count s).MemOk := by
  have hring := hi.ring_inside hp hl
  obtain ⟨t, ht, hok, -⟩ := writeLoop_induct (h := h) (a := a) (cap := cap) (count := count) (fuel := count) (moved := 0)
    (P := fun t => t.MemOk ∧ t.qPresent h ∧ ¬ t.ringOutsideRam h) (s := s) ⟨hi.memOk, hp, hring⟩
    (fun t i v ht hi => ⟨ht.1.bufWrite_qbuf v ht.2.2 hi, by simpa [State.qPresent] using ht.2.1,
      by simpa [State.ringOutsideRam] using ht.2.2⟩)
    (fun t k ht => ⟨ht.1.modifyCtx _ _, by simpa [State.qPresent] using ht.2.1, by
      rw [State.ringOutsideRam, State.modifyCtx_ctx _ _ _ _ ht.2.1]
      simpa [State.ringOutsideRam, Ctx.advanceWrite] using ht.2.2⟩)
    (fun t r ht => ⟨ht.1.congr rfl rfl rfl (by simp), ht.2.1, by simpa [State.ringOutsideRam] using ht.2.2⟩)
  rw [writeLoop_all hp (hi.live_ok hp hl).2.2.2.1 h0 hcap hcount, respond, Host.Outcome.next.injEq] at ht
  subst ht
  exact hok.congr rfl rfl rfl (fun g => by cases g <;> rfl)

/-- A read keeps the memories sound. -/
theorem readAll_memOk (hm : s.MemOk) : (readAll h a count s).MemOk := by
  have once : ∀ moved k t, State.MemOk t → (readOnce h a moved k t).MemOk := fun moved k t ht =>
    (ht.copyMove_ext a moved _ k _).modifyCtx _ _
  rw [readAll]
  split
  · exact once _ _ _ hm
  · exact once _ _ _ (once _ _ _ hm)

end

/-! ## The commands from a sound state -/

section
variable {s : State} {a n h : Nat} {own : Bool}

theorem createIn_inv (hi : s.Inv) (h0 : n ≠ 0) (hn : n ≤ s.params.poolBytes) (hf : s.freeHandle ≠ 0) :
    State.Inv { createIn s.freeHandle n s with resp := { qh := s.freeHandle } } := by
  have hp := freeHandle_present hf
  refine hi.of_parts (by simp) (by rw [State.withResp_nq, createIn_nq]) (fun h hh => ?_) ?_ ?_
  · rw [State.withResp_ctx, createIn_ctx hp]
    split
    · exact Ctx.created_ok h0 hn hi.1.2
    · exact hi.ctx_ok hh
  · refine ⟨fun h hh => ?_, ?_, ?_⟩
    · have hh' : s.qPresent h := by rw [State.qPresent, State.withResp_nq] at hh; simpa using hh
      rw [State.withResp_ram, createIn_ram hp, createIn_params]
      split
      · exact ⟨Memory.wf_zeroBelow _ _ (hi.memOk.ram _ hp).1, Memory.within_zeroBelow _ _ _ (hi.memOk.ram _ hp).2⟩
      · exact hi.memOk.ram _ hh'
    · rw [createIn_mem]; exact hi.memOk.wf
    · rw [createIn_mem]; exact hi.memOk.within
  · have h1 := hi.2.1.2
    have := hp.2
    simp only [Response.fitsWords, HW, CW, maxNQ] at *
    omega

theorem wrapIn_inv (hi : s.Inv) (h0 : n ≠ 0) (ha : a < 2 ^ AW) (hn : n < 2 ^ SW) (hf : s.freeHandle ≠ 0) :
    State.Inv { wrapIn s.freeHandle a n own s with resp := { qh := s.freeHandle } } := by
  have hp := freeHandle_present hf
  refine hi.of_parts (by simp) (by rw [State.withResp_nq, wrapIn_nq]) (fun h hh => ?_) ?_ ?_
  · rw [State.withResp_ctx, wrapIn_ctx hp]
    split
    · exact Ctx.wrapped_ok h0 ha hn
    · exact hi.ctx_ok hh
  · exact hi.memOk.congr (by simp) (by rw [State.withResp_nq, wrapIn_nq]) (by simp) fun h => by
      rw [State.withResp_ram, wrapIn_ram]
  · have h1 := hi.2.1.2
    have := hp.2
    simp only [Response.fitsWords, HW, CW, maxNQ] at *
    omega

/-- `WRITE_BITS` from a sound state: an error of its own checks, or the whole transfer. -/
theorem State.Inv.execWriteBits_cases (hi : s.Inv) (qh saddr scap count : Nat) :
    (∃ k, (k = .invalidArgument ∨ k = .messageTooLarge ∨ k = .wouldBlock) ∧
      execWriteBits qh saddr scap count s = raise k s) ∨
    (s.qPresent qh ∧ (s.ctx qh).live = true ∧ saddr ≠ 0 ∧ 1 ≤ count ∧ count ≤ scap * 8 ∧
      (s.ctx qh).validBits + count ≤ (s.ctx qh).cap ∧
      execWriteBits qh saddr scap count s = respond { count := count } (writeAll qh saddr count s)) := by
  rcases Sys2Proof.Machine.execWriteBits_cases qh saddr scap count s with
    ⟨k1, k⟩ | ⟨k1, k2, k⟩ | ⟨k1, k2, k3, k⟩ | ⟨k1, k2, k3⟩
  · exact Or.inl ⟨_, by simp, k⟩
  · exact Or.inl ⟨_, by simp, k⟩
  · exact Or.inl ⟨_, by simp, k⟩
  · simp only [transferInvalid, not_or, Bool.not_eq_false] at k1
    obtain ⟨h1, h2, h3, h4, hl⟩ := k1
    have hp : s.qPresent qh := not_not.1 h1
    exact Or.inr ⟨hp, hl, h2, by omega, by omega, k2,
      execWriteBits_ok hp hl (hi.live_ok hp hl) h2 (by omega) (by omega) k2⟩

/-- `READ_BITS` from a sound state: an error of its own checks, or the whole transfer. -/
theorem State.Inv.execReadBits_cases (hi : s.Inv) (qh daddr dcap count : Nat) :
    (∃ k, (k = .invalidArgument ∨ k = .messageTooLarge ∨ k = .wouldBlock) ∧
      execReadBits qh daddr dcap count s = raise k s) ∨
    (s.qPresent qh ∧ (s.ctx qh).live = true ∧ daddr ≠ 0 ∧ 1 ≤ count ∧ count ≤ dcap * 8 ∧
      count ≤ (s.ctx qh).validBits ∧
      execReadBits qh daddr dcap count s = respond { count := count } (readAll qh daddr count s)) := by
  rcases Sys2Proof.Machine.execReadBits_cases qh daddr dcap count s with
    ⟨k1, k⟩ | ⟨k1, k2, k⟩ | ⟨k1, k2, k3, k⟩ | ⟨k1, k2, k4, k3⟩
  · exact Or.inl ⟨_, by simp, k⟩
  · exact Or.inl ⟨_, by simp, k⟩
  · exact Or.inl ⟨_, by simp, k⟩
  · simp only [transferInvalid, not_or, Bool.not_eq_false] at k1
    obtain ⟨h1, h2, h3, h4, hl⟩ := k1
    have hp : s.qPresent qh := not_not.1 h1
    exact Or.inr ⟨hp, hl, h2, by omega, by omega, k4,
      execReadBits_ok hp hl (hi.live_ok hp hl) h2 (by omega) (by omega) k4⟩

end

end Sys2Proof.Machine
end

