-- ==== Sys2Proof/Laws/PerInstr.lean ====
section
/-! SUPPORT. Facts stated for every command, one lemma per constructor. -/

namespace Sys2Proof.Laws.EncodedOp

/-- The `OP` field of a command's encoding is its opcode, and no reserved bit of `W0` is set (30_encoding R85, R87). -/
def Statement (i : Instr) : Prop :=
  i.wellFormed = true → (encode i).get .op = i.opcode ∧ wordBits (encode i).w0 25 7 = 0

theorem copyBits (daddr dbyte dbit dcap saddr sbyte sbit scap count : Nat) :
    Statement (.copyBits daddr dbyte dbit dcap saddr sbyte sbit scap count) := by
  intro h
  simp only [Instr.wellFormed, fits, OFFW, Bool.and_eq_true, decide_eq_true_eq] at h
  have := packHeader_bits (op := 1) (qh := 0) (dbit := dbit) (sbit := sbit) (own := 0) (by omega) (by omega) (by omega)
    (by omega) (by omega)
  exact ⟨this.1, this.2.2.2.2.2⟩

theorem createOwned (dcap : Nat) : Statement (.createOwned dcap) := fun _ => by
  show wordBits (packHeader 2 0 0 0 0) 0 8 = 2 ∧ wordBits (packHeader 2 0 0 0 0) 25 7 = 0
  decide

theorem wrapBuffer (daddr dcap : Nat) (own : Bool) : Statement (.wrapBuffer daddr dcap own) := by
  intro _
  show wordBits (packHeader 3 0 0 0 own.toNat) 0 8 = 3 ∧ wordBits (packHeader 3 0 0 0 own.toNat) 25 7 = 0
  cases own <;> decide

/-- `W0` of a command that names a queue and no bit offset. -/
theorem packHeader_handle {op qh : Nat} (ho : op < 2 ^ 8) (hq : fits HW qh = true) :
    wordBits (packHeader op qh 0 0 0) 0 8 = op ∧ wordBits (packHeader op qh 0 0 0) 25 7 = 0 := by
  simp only [fits, HW, decide_eq_true_eq] at hq
  have := packHeader_bits (op := op) (qh := qh) (dbit := 0) (sbit := 0) (own := 0) ho hq (by omega) (by omega) (by omega)
  exact ⟨this.1, this.2.2.2.2.2⟩

theorem writeBits (qh saddr scap count : Nat) : Statement (.writeBits qh saddr scap count) := by
  intro h
  simp only [Instr.wellFormed, Bool.and_eq_true] at h
  exact packHeader_handle (by omega) h.1.1.1

theorem readBits (qh daddr dcap count : Nat) : Statement (.readBits qh daddr dcap count) := by
  intro h
  simp only [Instr.wellFormed, Bool.and_eq_true] at h
  exact packHeader_handle (by omega) h.1.1.1

theorem hasSpace (qh count : Nat) : Statement (.hasSpace qh count) := by
  intro h
  simp only [Instr.wellFormed, Bool.and_eq_true] at h
  exact packHeader_handle (by omega) h.1

theorem hasData (qh count : Nat) : Statement (.hasData qh count) := by
  intro h
  simp only [Instr.wellFormed, Bool.and_eq_true] at h
  exact packHeader_handle (by omega) h.1

theorem destroy (qh : Nat) : Statement (.destroy qh) := fun h => packHeader_handle (by omega) h

end Sys2Proof.Laws.EncodedOp
end

