-- ==== Sys2Proof/Tests/Slice0.lean ====
section
/-! SUPPORT. The model's own tests. Every expected result is taken from the spec: the worked encodings of 30_encoding,
the vectors of 95_test_vectors, the worked examples of the rules, or arithmetic done by hand from a rule. Then, for
every statement of Certificates that has hypotheses, a concrete state and operands that meet them. -/

namespace Sys2Proof.Tests

open Sys2Proof.Machine

/-! ## Helpers -/

/-- The answer is a next state with this property. -/
def holds (r : Result) (p : State → Bool) : Bool :=
  match r with
  | .next t => p t
  | .fault _ => false
  | .refused _ => false

/-- A live owned ring of 2 bytes in its private RAM (the contexts of 95_test_vectors 2.4). -/
def ring (wrByte wrBit rdByte rdBit validBits : Nat) : Ctx :=
  ⟨true, true, true, 0, 2, wrByte, wrBit, rdByte, rdBit, validBits⟩

/-- A live borrowed ring of 2 bytes at `0x5000`, full. -/
def borrowed : Ctx := ⟨true, false, false, 0x5000, 2, 0, 0, 0, 0, 16⟩

/-- A block with one context. -/
def one (c : Ctx) (ram mem : Memory) : State :=
  { params := Config.defaultParams, queues := [⟨c, ram⟩], mem := mem, resp := {}, host := [] }

/-- The start of V-W1: 4 unread bits, room for 12. -/
def w1 : State := one (ring 1 3 0 7 4) [(0, 0xD6), (1, 0x05)] [(0x3010, 0x5B), (0x3011, 0x01)]

/-- The start of V-R1: 13 unread bits. -/
def r1 : State := one (ring 0 4 0 7 13) [(0, 0xDA), (1, 0xDD)] []

/-- The source bytes of the `COPY_BITS` vectors. -/
def x1 : State := one Ctx.reset [] [(0x4000, 0xB5), (0x4001, 0x3C), (0x4002, 0xF0), (0x4011, 0x21)]

/-- A context no run reaches: a ring larger than its private RAM. -/
def bad : State := one { ring 0 0 0 0 16 with bufSize := 17 } [] []

/-! ## WellFormed: a term each check refuses (30_encoding R81, R82) -/

theorem test_wf_max : (Instr.copyBits (2 ^ 32 - 1) (2 ^ 32 - 1) 15 (2 ^ 32 - 1) (2 ^ 32 - 1) (2 ^ 32 - 1) 15
    (2 ^ 32 - 1) (2 ^ 32 - 1)).wellFormed = true := by decide
theorem test_wf_copy_daddr : (Instr.copyBits (2 ^ 32) 0 0 1 1 0 0 1 1).wellFormed = false := by decide
theorem test_wf_copy_dbyte : (Instr.copyBits 1 (2 ^ 32) 0 1 1 0 0 1 1).wellFormed = false := by decide
theorem test_wf_copy_dbit : (Instr.copyBits 1 0 16 1 1 0 0 1 1).wellFormed = false := by decide
theorem test_wf_copy_dcap : (Instr.copyBits 1 0 0 (2 ^ 32) 1 0 0 1 1).wellFormed = false := by decide
theorem test_wf_copy_saddr : (Instr.copyBits 1 0 0 1 (2 ^ 32) 0 0 1 1).wellFormed = false := by decide
theorem test_wf_copy_sbyte : (Instr.copyBits 1 0 0 1 1 (2 ^ 32) 0 1 1).wellFormed = false := by decide
theorem test_wf_copy_sbit : (Instr.copyBits 1 0 0 1 1 0 16 1 1).wellFormed = false := by decide
theorem test_wf_copy_scap : (Instr.copyBits 1 0 0 1 1 0 0 (2 ^ 32) 1).wellFormed = false := by decide
theorem test_wf_copy_count : (Instr.copyBits 1 0 0 1 1 0 0 1 (2 ^ 32)).wellFormed = false := by decide
theorem test_wf_create_dcap : (Instr.createOwned (2 ^ 32)).wellFormed = false := by decide
theorem test_wf_wrap_daddr : (Instr.wrapBuffer (2 ^ 32) 1 true).wellFormed = false := by decide
theorem test_wf_wrap_dcap : (Instr.wrapBuffer 1 (2 ^ 32) true).wellFormed = false := by decide
theorem test_wf_write_qh : (Instr.writeBits 256 1 1 1).wellFormed = false := by decide
theorem test_wf_write_saddr : (Instr.writeBits 1 (2 ^ 32) 1 1).wellFormed = false := by decide
theorem test_wf_write_scap : (Instr.writeBits 1 1 (2 ^ 32) 1).wellFormed = false := by decide
theorem test_wf_write_count : (Instr.writeBits 1 1 1 (2 ^ 32)).wellFormed = false := by decide
theorem test_wf_read_qh : (Instr.readBits 256 1 1 1).wellFormed = false := by decide
theorem test_wf_read_daddr : (Instr.readBits 1 (2 ^ 32) 1 1).wellFormed = false := by decide
theorem test_wf_read_dcap : (Instr.readBits 1 1 (2 ^ 32) 1).wellFormed = false := by decide
theorem test_wf_read_count : (Instr.readBits 1 1 1 (2 ^ 32)).wellFormed = false := by decide
theorem test_wf_space_qh : (Instr.hasSpace 256 1).wellFormed = false := by decide
theorem test_wf_space_count : (Instr.hasSpace 1 (2 ^ 32)).wellFormed = false := by decide
theorem test_wf_data_qh : (Instr.hasData 256 1).wellFormed = false := by decide
theorem test_wf_data_count : (Instr.hasData 1 (2 ^ 32)).wellFormed = false := by decide
theorem test_wf_destroy_qh : (Instr.destroy 256).wellFormed = false := by decide

/-! ## Decode: every constructor from words written out from the encoding (R81, R82, R85) -/

/-- R96 and V-X1. -/
theorem test_decode_copyBits :
    decode ⟨0x00360001, 0x0000000D, 0x00004010, 0x00000001, 0x00000004, 0x00004000, 0x00000000, 0x00000003⟩ =
      .ok (.copyBits 0x4010 1 6 4 0x4000 0 3 3 13) := by decide
/-- V-X14b, an SBIT above its DBIT and a second field order: `W0 = 0x00500001` has SBIT 5, DBIT 0. -/
theorem test_decode_copyBits_sbit :
    decode ⟨0x00500001, 1, 0x4020, 0, 4, 0x4000, 3, 3⟩ = .ok (.copyBits 0x4020 0 0 4 0x4000 3 5 3 1) := by decide
/-- P1 step 4. -/
theorem test_decode_createOwned : decode ⟨0x00000002, 0, 0, 0, 0x00000002, 0, 0, 0⟩ = .ok (.createOwned 2) := by decide
/-- P3 step 1: OWN is bit 24 of `W0`. -/
theorem test_decode_wrapBuffer :
    decode ⟨0x01000003, 0, 0x00005000, 0, 0x00000002, 0, 0, 0⟩ = .ok (.wrapBuffer 0x5000 2 true) := by decide
/-- P1 step 1. -/
theorem test_decode_wrapBuffer_borrowed :
    decode ⟨0x00000003, 0, 0x00001000, 0, 0x00000002, 0, 0, 0⟩ = .ok (.wrapBuffer 0x1000 2 false) := by decide
/-- P1 step 5. -/
theorem test_decode_writeBits :
    decode ⟨0x00000104, 0x00000010, 0, 0, 0, 0x00001000, 0, 0x00000002⟩ = .ok (.writeBits 1 0x1000 2 16) := by decide
/-- P4 step 4. -/
theorem test_decode_readBits :
    decode ⟨0x00000205, 0x00000006, 0x00007010, 0, 0x00000001, 0, 0, 0⟩ = .ok (.readBits 2 0x7010 1 6) := by decide
/-- P2 step 3. -/
theorem test_decode_hasSpace : decode ⟨0x00000106, 0x00000005, 0, 0, 0, 0, 0, 0⟩ = .ok (.hasSpace 1 5) := by decide
/-- P2 step 8. -/
theorem test_decode_hasData : decode ⟨0x00000107, 0x0000000D, 0, 0, 0, 0, 0, 0⟩ = .ok (.hasData 1 13) := by decide
/-- V-E30. -/
theorem test_decode_destroy : decode ⟨0x00000208, 0, 0, 0, 0, 0, 0, 0⟩ = .ok (.destroy 2) := by decide
/-- R90: 0x00, 0x09 and 0xFF name no command. -/
theorem test_decode_illegal :
    decode ⟨0, 0, 0, 0, 0, 0, 0, 0⟩ = .error (.illegalOp 0) ∧
      decode ⟨0x00000109, 0, 0, 0, 0, 0, 0, 0⟩ = .error (.illegalOp 9) ∧
      decode ⟨0xFFFFFFFF, 0, 0, 0, 0, 0, 0, 0⟩ = .error (.illegalOp 255) := by decide
/-- R83: the bytes of `READ_BITS q=1, dst=0x2001, size=1, n=5` (R96) lie little-endian. -/
theorem test_decode_bytes :
    decodeBytes [0x05, 0x01, 0x00, 0x00, 0x05, 0, 0, 0, 0x01, 0x20, 0, 0, 0, 0, 0, 0, 0x01, 0, 0, 0, 0, 0, 0, 0,
      0, 0, 0, 0, 0, 0, 0, 0] = .ok (.readBits 1 0x2001 1 5) := by decide
/-- R93: no other length is a descriptor. -/
theorem test_decode_bytes_length :
    decodeBytes [0x05, 0x01, 0x00, 0x00] = .error (.badLength 4) ∧ decodeBytes [] = .error (.badLength 0) := by decide
/-- The table's numbering: `OP` at bits 7..0, `COUNT` at 63..32, `DADDR` at 95..64, `DCAP` at 159..128. -/
theorem test_tableWord :
    decodeTableWord 256 (0x105 + 5 * 2 ^ 32 + 0x2001 * 2 ^ 64 + 2 ^ 128) = some (.readBits 1 0x2001 1 5) ∧
      decodeTableWord 8 0x05 = some (.readBits 0 0 0 0) ∧ decodeTableWord 256 0 = none := by decide

/-! ## One step of each command -/

/-- V-X1. -/
theorem test_copyBits :
    holds (exec (.copyBits 0x4010 1 6 4 0x4000 0 3 3 13) x1) (fun t => t.resp = { count := 13 } ∧
      (List.range 4).map (fun i => t.mem.read (0x4010 + i)) = [0x00, 0xA1, 0xE5, 0x01]) = true := by decide
/-- V-X2: clipped to the 4 bits left in the source. -/
theorem test_copyBits_clipped :
    holds (exec (.copyBits 0x4020 0 0 4 0x4000 2 4 3 16) x1) (fun t => t.resp = { count := 4 } ∧
      t.mem.read 0x4020 = 0x0F ∧ t.mem.read 0x4021 = 0) = true := by decide
/-- P1 step 4, over a RAM that held other bytes: byte 2 is not touched (R141). -/
theorem test_createOwned :
    holds (exec (.createOwned 2) (one Ctx.reset [(0, 0xAA), (1, 0xAA), (2, 0x77)] []))
      (fun t => t.resp = { qh := 1 } ∧ t.queues = [⟨ring 0 0 0 0 0, [(2, 0x77)]⟩]) = true := by decide
/-- R141: `DCAP = POOL_BYTES` succeeds, one more is `AllocationFailure`. -/
theorem test_createOwned_pool :
    holds (exec (.createOwned 16) (one Ctx.reset [] [])) (fun t => t.resp = { qh := 1 }) = true ∧
      holds (exec (.createOwned 17) (one Ctx.reset [] [])) (fun t => t.resp = { status := .allocationFailure }) = true
      := by decide
/-- The worked example of R142. -/
theorem test_wrapBuffer :
    holds (exec (.wrapBuffer 0x1000 2 false) (one Ctx.reset [] [(0x1000, 0xAA), (0x1001, 0xAA)]))
      (fun t => t.resp = { qh := 1 } ∧ t.ctx 1 = ⟨true, false, false, 0x1000, 2, 0, 0, 0, 0, 16⟩ ∧
        t.mem = [(0x1000, 0xAA), (0x1001, 0xAA)]) = true := by decide
/-- P4 step 2: the least free context is the second. -/
theorem test_wrapBuffer_second :
    holds (exec (.wrapBuffer 0x7000 3 true) { one (ring 0 0 0 0 0) [] [] with
        queues := [⟨ring 0 0 0 0 0, []⟩, Queue.reset] })
      (fun t => t.resp = { qh := 2 } ∧ t.ctx 2 = ⟨true, true, false, 0x7000, 3, 0, 0, 0, 0, 24⟩) = true := by decide
/-- V-W1 and R159: across the wrap, pre-cleared. -/
theorem test_writeBits :
    holds (exec (.writeBits 1 0x3010 2 9) w1) (fun t => t.resp = { count := 9 } ∧
      t.queues = [⟨ring 0 4 0 7 13, [(0, 0xDA), (1, 0xDD)]⟩]) = true := by decide
/-- V-W2: without the pre-clear the stale bits stay. -/
theorem test_writeBits_noPreclear :
    holds (exec (.writeBits 1 0x3010 2 9) { w1 with params := ⟨16, false⟩ }) (fun t => t.resp = { count := 9 } ∧
      t.queues = [⟨ring 0 4 0 7 13, [(0, 0xDE), (1, 0xDD)]⟩]) = true := by decide
/-- V-R1 and R166: across the wrap. -/
theorem test_readBits :
    holds (exec (.readBits 1 0x3030 2 13) r1) (fun t => t.resp = { count := 13 } ∧ t.ctx 1 = ring 0 4 0 4 0 ∧
      t.mem = [(0x3030, 0xBB), (0x3031, 0x15)] ∧ t.ram 1 = r1.ram 1) = true := by decide
/-- V-R2: OR-ed into the destination. -/
theorem test_readBits_or :
    holds (exec (.readBits 1 0x3030 2 13) { r1 with mem := [(0x3030, 0x40), (0x3031, 0xE0)] })
      (fun t => t.mem = [(0x3030, 0xFB), (0x3031, 0xF5)]) = true := by decide
/-- The worked example of R170: 11 of 16 bits held. -/
theorem test_hasSpace :
    holds (exec (.hasSpace 1 5) (one (ring 1 3 0 0 11) [] [])) (fun t => t.resp = { flag := true }) = true ∧
      holds (exec (.hasSpace 1 6) (one (ring 1 3 0 0 11) [] [])) (fun t => t.resp = {}) = true := by decide
/-- The worked example of R171. -/
theorem test_hasData :
    holds (exec (.hasData 1 13) r1) (fun t => t.resp = { flag := true }) = true ∧
      holds (exec (.hasData 1 14) r1) (fun t => t.resp = {}) = true := by decide
/-- P3 step 7: an owned external buffer is handed back. -/
theorem test_destroy :
    holds (exec (.destroy 1) (one { borrowed with owned := true } [] []))
      (fun t => t.resp = { rel := true } ∧ t.ctx 1 = Ctx.reset) = true := by decide
/-- P1 steps 8 and 3: neither an internal nor a borrowed buffer is; the RAM keeps its bytes. -/
theorem test_destroy_noRelease :
    holds (exec (.destroy 1) r1) (fun t => t.resp = {} ∧ t.queues = [⟨Ctx.reset, [(0, 0xDA), (1, 0xDD)]⟩]) = true ∧
      holds (exec (.destroy 1) (one borrowed [] [])) (fun t => t.resp = {}) = true := by decide
/-- R90, R91: the response words of an illegal descriptor. -/
theorem test_illegal :
    holds (step { x1 with host := [.command ⟨0xFFFFFFFF, 1, 1, 1, 1, 1, 1, 1⟩] })
      (fun t => t.resp.r0 = 6 ∧ t.resp.r1 = 0 ∧ t.queues = x1.queues ∧ t.mem = x1.mem ∧ t.host = []) = true := by decide
/-- R57: a host write past the top of `M` lands at its bottom; writing 0 removes the entry. -/
theorem test_memWrite :
    holds (step { w1 with host := [.memWrite (2 ^ 32 + 0x3010) 0] }) (fun t => t.mem = [(0x3011, 0x01)]) = true := by
  decide
/-- `withFetchWord`: the very next step runs the word. -/
theorem test_withFetchWord :
    holds (step (State.reset.withFetchWord 256 (2 + 2 * 2 ^ 128))) (fun t => t.resp = { qh := 1 } ∧ t.host = []) = true
      := by decide
/-- R51, log 5: the memory after reset is in canonical form. -/
theorem test_reset_mem : State.reset.mem.wf := by decide

/-! ## Witnesses: states and operands that meet the hypotheses of the statements -/

theorem witness_ResponseFieldsStandInTheirBits :
    Response.fitsWords { status := .illegalCommand, qh := 255, flag := true, rel := true, count := 2 ^ 32 - 1 } := by
  decide
theorem witness_EncodedCommandDecodesToItself : (Instr.wrapBuffer (2 ^ 32 - 1) 1 true).wellFormed = true ∧
    (Instr.destroy 255).wellFormed = true ∧ (Instr.copyBits 0 0 8 0 0 0 9 0 0).wellFormed = true := by decide
theorem witness_DecodedCommandCarriesTheUsedFields :
    decode ⟨0xFE360105, 7, 1, 2, 3, 4, 5, 6⟩ = .ok (.readBits 1 1 3 7) := by decide
/-- One descriptor per clause. -/
theorem witness_OpcodeSelectsTheCommandAndItsOperands : ∀ op : Fin 8,
    Descriptor.get ⟨BitVec.ofNat 32 (0xAB00 + (op.val + 1)), 0, 0, 0, 0, 0, 0, 0⟩ .op = op.val + 1 ∧
      Descriptor.get ⟨0, 0, 0, 0, 0, 0, 0, 0⟩ .op = 0 ∧ 9 ≤ Descriptor.get ⟨0x09, 0, 0, 0, 0, 0, 0, 0⟩ .op := by decide
/-- Two descriptors of `HAS_DATA` that differ in every unused field. -/
theorem witness_UnusedFieldsAreIgnored :
    (Descriptor.get ⟨0x00000107, 5, 0, 0, 0, 0, 0, 0⟩ .op = Descriptor.get ⟨0xFFFF0107, 5, 1, 2, 3, 4, 5, 6⟩ .op ∧
      ∀ f ∈ fieldsUsed 7, Descriptor.get ⟨0x00000107, 5, 0, 0, 0, 0, 0, 0⟩ f =
        Descriptor.get ⟨0xFFFF0107, 5, 1, 2, 3, 4, 5, 6⟩ f) ∧
    (Instr.hasData 1 5).wellFormed = true ∧ Field.own ∉ fieldsUsed (Instr.hasData 1 5).opcode := by decide
theorem witness_IllegalOpcodeIsAnsweredAndChangesNothing :
    (Descriptor.get ⟨0x00000100, 0, 0, 0, 0, 0, 0, 0⟩ .op = 0 ∧ 9 ≤ Descriptor.get ⟨0x00000109, 0, 0, 0, 0, 0, 0, 0⟩ .op) ∧
    State.host { x1 with host := [.command ⟨0x00000109, 0, 0, 0, 0, 0, 0, 0⟩] } =
      [.command ⟨0x00000109, 0, 0, 0, 0, 0, 0, 0⟩] := by decide
theorem witness_StepRunsTheDecodedCommand :
    State.host { r1 with host := [.command ⟨0x107, 13, 0, 0, 0, 0, 0, 0⟩, .reset] } =
      [.command ⟨0x107, 13, 0, 0, 0, 0, 0, 0⟩, .reset] ∧
    decode ⟨0x107, 13, 0, 0, 0, 0, 0, 0⟩ = .ok (.hasData 1 13) := by decide
theorem witness_TableWordIsRunByTheNextStep : decodeTableWord 256 (0x108) = some (.destroy 1) := by decide
theorem witness_HostWriteChangesOneByteOfMemory :
    State.host { w1 with host := [.memWrite (2 ^ 32) 5] } = [.memWrite (2 ^ 32) 5] ∧ w1.host = [] := by decide
theorem witness_ResetClearsContextsAndKeepsMemory :
    State.host { w1 with host := [.reset] } = [.reset] ∧ w1.qPresent 1 ∧ State.reset.qPresent 1 := by decide
/-- Clause by clause, at the edges: a zero count; a destination one bit short; one exactly full; nothing to move. -/
theorem witness_PrimitiveOutcomeFollowsItsTests :
    (0 = 0 ∨ 3 > 4 ∨ 0 > 3 ∨ 0 ≥ 8 ∨ 0 ≥ 8 ∨ 0 > 3 * 8) ∧
      (¬ (8 = 0 ∨ 3 > 4 ∨ 0 > 3 ∨ 1 ≥ 8 ∨ 0 ≥ 8 ∨ 8 > 3 * 8) ∧ ((4 : Int) - 3) * 8 - 1 < 8) ∧
      (¬ (8 = 0 ∨ 3 > 4 ∨ 0 > 3 ∨ 0 ≥ 8 ∨ 0 ≥ 8 ∨ 8 > 3 * 8) ∧ (8 : Int) ≤ ((4 : Int) - 3) * 8 - 0) ∧
      ¬ (1 = 0 ∨ 0 > 4 ∨ 3 > 3 ∨ 0 ≥ 8 ∨ 5 ≥ 8 ∨ 1 > 3 * 8) ∧ (1 : Int) ≤ ((4 : Int) - 0) * 8 - 0 ∧
      ((0 : Nat) : Int) = min 1 (max (((3 : Int) - 3) * 8 - 5) 0) := by decide
/-- V-X6 and V-X13. -/
theorem witness_CopyBitsErrorsAndTheirOrder :
    (0x4020 = 0 ∨ 0x4000 = 0 ∨ 1 = 0 ∨ 0 > 4 ∨ 0 > 3 ∨ 8 ≥ 8 ∨ 0 ≥ 8 ∨ 1 > 3 * 8) ∧ ¬ (0x4020 = 0 ∨ 0x4000 = 0 ∨ 1 = 0 ∨ 4 > 4 ∨ 0 > 3 ∨ 0 ≥ 8 ∨ 0 ≥ 8 ∨ 1 > 3 * 8) ∧
      ((4 : Int) - 4) * 8 - 0 < 1 := by decide
/-- V-X4: a destination exactly full, and no overlap. -/
theorem witness_CopyBitsMovesTheClippedBits :
    0x4020 ≠ 0 ∧ 0x4000 ≠ 0 ∧ 1 ≤ 8 ∧ 3 ≤ 4 ∧ 0 ≤ 3 ∧ 0 ≤ 7 ∧ 0 ≤ 7 ∧ 8 ≤ 3 * 8 ∧
      (8 : Int) ≤ ((4 : Int) - 3) * 8 - 0 ∧ 4 < 2 ^ SW ∧ ((8 : Nat) : Int) = min 8 (max (((3 : Int) - 0) * 8 - 0) 0) ∧
      NoOverlap (.ext 0x4020) (3 * 8 + 0) (.ext 0x4000) (0 * 8 + 0) 8 := by
  unfold NoOverlap
  decide
theorem witness_CopyBitsChangesOnlyCountedDestinationBytes :
    ∀ j < 13, Loc.mem 0x4014 ≠ (Buf.ext 0x4010).loc ((1 * 8 + 6 + j) / 8) := by decide
/-- V-X1: the first run is 2 bits of 13. -/
theorem witness_CopyBitsIsSequentialRunByRun :
    0x4010 ≠ 0 ∧ 0x4000 ≠ 0 ∧ 6 ≤ 7 ∧ 3 ≤ 7 ∧ 1 * 8 + 6 + 13 ≤ 4 * 8 ∧ 0 * 8 + 3 + 13 ≤ 3 * 8 ∧ 2 = min (8 - 6) (min (8 - 3) 13) ∧ 2 < 13 := by decide
theorem witness_OverlappingCopyReadsChangedBytes :
    (one Ctx.reset [] [(0x4040, 0x0F)]).mem.read 0x4040 = 0x0F ∧ (one Ctx.reset [] [(0x4040, 0x0F)]).mem.read 0x4041 = 0 ∧
      (one Ctx.reset [] [(0x4040, 0x0F)]).mem.read 0x4042 = 0 := by decide
/-- V-X1, and a transfer of no bits. -/
theorem witness_RunsAreBoundedAndInsideTheBuffers :
    copyPlan 1 6 4 0 3 3 13 = .transferred 13 ∧ copyPlan 0 0 4 3 0 3 1 = .transferred 0 := by decide
/-- Clause by clause: every context live; `POOL_BYTES + 1`; `POOL_BYTES` with a free context. -/
theorem witness_CreateOwnedClaimsTheLeastFreeContext :
    (∀ h ≤ w1.nq, 1 ≤ h → (w1.ctx h).live = true) ∧ 17 ≠ 0 ∧ 17 > x1.params.poolBytes ∧ 16 ≠ 0 ∧
      16 ≤ x1.params.poolBytes ∧ (∀ g < 1, 1 ≤ g → (x1.ctx g).live = true) ∧
      x1.qPresent 1 ∧ (x1.ctx 1).live = false ∧ Descriptor.get ⟨2, 0, 0, 0, 1, 0, 0, 0⟩ .op = 2 := by decide
theorem witness_WrapBufferClaimsTheLeastFreeContext :
    (∀ h ≤ w1.nq, 1 ≤ h → (w1.ctx h).live = true) ∧ 0x5000 ≠ 0 ∧ 2 ≠ 0 ∧ x1.qPresent 1 ∧ (x1.ctx 1).live = false ∧
      ∀ g < 1, 1 ≤ g → (x1.ctx g).live = true := by decide
/-- A request of exactly the ring's size. -/
theorem witness_WrappedQueueStartsFullOwnedQueueStartsEmpty :
    holds (exec (.wrapBuffer 0x5000 2 false) x1) (fun t => t.resp = { qh := 1 }) = true ∧
      holds (exec (.createOwned 2) x1) (fun t => t.resp = { qh := 1 }) = true ∧
      0x6000 ≠ 0 ∧ 1 ≤ 16 ∧ 16 ≤ 2 * 8 := by decide
/-- Clause by clause on V-W1's state: a handle above `NQ`; one bit more than the ring; one bit more than the room. -/
theorem witness_WriteBitsErrorsAndTheirOrder :
    ¬ w1.qPresent 2 ∧ ¬ (¬ w1.qPresent 1 ∨ 0x3010 = 0 ∨ 17 = 0 ∨ 3 * 8 < 17 ∨ (w1.ctx 1).live = false) ∧
      17 > (w1.ctx 1).bufSize * 8 ∧ 13 ≤ (w1.ctx 1).bufSize * 8 ∧
      ((w1.ctx 1).bufSize * 8 : Int) - (w1.ctx 1).validBits < 13 := by decide
theorem witness_ReadBitsErrorsAndTheirOrder :
    ¬ r1.qPresent 0 ∧ ¬ (¬ r1.qPresent 1 ∨ 0x3030 = 0 ∨ 17 = 0 ∨ 3 * 8 < 17 ∨ (r1.ctx 1).live = false) ∧
      17 > (r1.ctx 1).bufSize * 8 ∧ 14 ≤ (r1.ctx 1).bufSize * 8 ∧ (r1.ctx 1).validBits < 14 := by decide
/-- One byte beyond `POOL_BYTES`; both clauses at the edge of what the ring holds. -/
theorem witness_RingOutsideItsRamFaults :
    bad.qPresent 1 ∧ 0x3010 ≠ 0 ∧ 120 ≤ 15 * 8 ∧ (bad.ctx 1).live = true ∧ bad.ringOutsideRam 1 ∧ (bad.ctx 1).validBits + 120 ≤ (bad.ctx 1).cap ∧
      120 ≤ (bad.ctx 1).cap ∧ 16 ≤ (bad.ctx 1).validBits := by decide
/-- V-W1's state, a write of exactly the room, and its source apart from the ring. -/
theorem witness_WriteBitsAppendsTheSourceBits :
    w1.qPresent 1 ∧ (w1.ctx 1).live = true ∧ (w1.ctx 1).liveOk w1.params.poolBytes ∧ 0x3010 ≠ 0 ∧ 1 ≤ 12 ∧ 12 ≤ 2 * 8 ∧
      (w1.ctx 1).validBits + 12 ≤ (w1.ctx 1).cap ∧
      ∀ i < 2, ∀ j < 12, (w1.qbuf 1).loc i ≠ (Buf.ext 0x3010).loc (j / 8) := by decide
/-- V-R1's state, a read of everything, and its destination apart from the ring. -/
theorem witness_ReadBitsDeliversTheOldestBits :
    r1.qPresent 1 ∧ (r1.ctx 1).live = true ∧ (r1.ctx 1).liveOk r1.params.poolBytes ∧ 0x3030 ≠ 0 ∧ 1 ≤ 13 ∧ 13 ≤ 2 * 8 ∧
      13 ≤ (r1.ctx 1).validBits ∧ ∀ i < 2, ∀ j < 13, (r1.qbuf 1).loc i ≠ (Buf.ext 0x3030).loc (j / 8) := by decide
/-- V-W1's state: a write that ends exactly at the end of the ring, and one that passes it. -/
theorem witness_WriteBitsMakesAtMostTwoInvocations :
    (w1.qPresent 1 ∧ (w1.ctx 1).cursorsInRing ∧ 8 < 9 ∧ 9 ≤ 2 * 8) ∧ (w1.ctx 1).wrPos + 5 = (w1.ctx 1).cap ∧
      (w1.writeReady 1 0x3010 2 5 ∧ 5 ≤ 5) ∧ w1.writeReady 1 0x3010 2 6 ∧ 5 < 6 := by decide
/-- V-R1's state: a read that ends exactly at the end of the ring, and one that passes it. -/
theorem witness_ReadBitsMakesAtMostTwoInvocations :
    (r1.qPresent 1 ∧ (r1.ctx 1).cursorsInRing ∧ 12 < 13 ∧ 13 ≤ 2 * 8 ∧ 13 ≤ (r1.ctx 1).cap) ∧
      (r1.ctx 1).rdPos + 9 = (r1.ctx 1).cap ∧ (r1.readReady 1 0x3030 2 9 ∧ 9 ≤ 9) ∧ r1.readReady 1 0x3030 2 10 ∧
      9 < 10 := by decide
theorem witness_WriteBitsFrame : holds (exec (.writeBits 1 0x3010 2 9) w1) (fun _ => true) = true ∧
    ∀ i < (w1.ctx 1).bufSize, Loc.ram 1 2 ≠ (w1.qbuf 1).loc i := by decide
theorem witness_ReadBitsFrame : holds (exec (.readBits 1 0x3030 2 13) r1) (fun _ => true) = true ∧
    ∀ j < 13, Loc.mem 0x3032 ≠ (Buf.ext 0x3030).loc (j / 8) := by decide
/-- Both clauses: V-W1 and V-R1. -/
theorem witness_QueueIsFirstInFirstOut :
    (w1.Inv ∧ w1.qPresent 1 ∧ w1.params.preclearOnWrite = true ∧
      holds (exec (.writeBits 1 0x3010 2 9) w1) (fun t => t.resp.status = .ok) = true ∧
      ∀ i < (w1.ctx 1).bufSize, ∀ j < 9, (w1.qbuf 1).loc i ≠ (Buf.ext 0x3010).loc (j / 8)) ∧
    (r1.Inv ∧ r1.qPresent 1 ∧ holds (exec (.readBits 1 0x3030 2 13) r1) (fun t => t.resp.status = .ok) = true ∧
      (∀ j < 13, bitAt r1 (.ext 0x3030) j = false) ∧
      ∀ i < (r1.ctx 1).bufSize, ∀ j < 13, (r1.qbuf 1).loc i ≠ (Buf.ext 0x3030).loc (j / 8)) :=
  ⟨⟨by decide, by decide⟩, by decide, by decide⟩
/-- Both clauses, for both queries. -/
theorem witness_HasSpaceAnswers_HasDataAnswers :
    (¬ w1.qPresent 2 ∨ (x1.ctx 1).live = false) ∧ w1.qPresent 1 ∧ (w1.ctx 1).live = true ∧
      Descriptor.get ⟨6, 0, 0, 0, 0, 0, 0, 0⟩ .op = 6 ∧ Descriptor.get ⟨7, 0, 0, 0, 0, 0, 0, 0⟩ .op = 7 := by decide
theorem witness_QueriesPredictTransfers :
    w1.Inv ∧ w1.qPresent 1 ∧ (w1.ctx 1).live = true ∧ 0x3010 ≠ 0 ∧ 1 ≤ 16 ∧ 16 ≤ 2 * 8 ∧ 16 ≤ (w1.ctx 1).cap := by decide
theorem witness_DestroyFreesTheContext :
    (¬ w1.qPresent 0 ∨ (x1.ctx 1).live = false) ∧ w1.qPresent 1 ∧ (w1.ctx 1).live = true ∧
      Descriptor.get ⟨8, 0, 0, 0, 0, 0, 0, 0⟩ .op = 8 := by decide
theorem witness_SecondDestroyIsInvalid :
    (x1.ctx 1).live = false ∧ holds (exec (.destroy 1) w1) (fun _ => true) = true := by decide
theorem witness_ReleaseFollowsOwnership :
    holds (exec (.createOwned 2) x1) (fun t => t.resp = { qh := 1 }) = true ∧
      holds (exec (.wrapBuffer 0x5000 2 true) x1) (fun t => t.resp = { qh := 1 }) = true := by decide
/-- Dead, and absent on either side of the range. -/
theorem witness_DeadContextAnswersInvalidArgument :
    (x1.ctx 1).live = false ∧ (w1.ctx 0).live = false ∧ (w1.ctx 2).live = false := by decide
theorem witness_StepKeepsTheInvariant :
    State.Inv { w1 with host := [.command (encode (.writeBits 1 0x3010 2 9))] } ∧
      holds (step { w1 with host := [.command (encode (.writeBits 1 0x3010 2 9))] })
        (fun t => t.resp = { count := 9 }) = true := by decide
theorem witness_StepNeverStops : w1.Inv ∧ r1.Inv ∧ x1.Inv :=
  ⟨by decide, by decide, by decide⟩
/-- Both clauses: a refused transfer, an illegal descriptor. -/
theorem witness_ErrorsLeaveTheStateUnchanged :
    w1.Inv ∧ holds (exec (.writeBits 1 0x3010 2 13) w1) (fun t => t.resp.status = .wouldBlock) = true ∧
      holds (runDescriptor ⟨9, 0, 0, 0, 0, 0, 0, 0⟩ w1) (fun t => t.resp.status = .illegalCommand) = true := by decide
theorem witness_SuccessfulTransferMovesTheWholeCount :
    (w1.Inv ∧ holds (exec (.writeBits 1 0x3010 2 12) w1) (fun t => t.resp.status = .ok) = true) ∧
      r1.Inv ∧ holds (exec (.readBits 1 0x3030 2 13) r1) (fun t => t.resp.status = .ok) = true :=
  ⟨by decide, by decide, by decide⟩
/-- Each kind occurs. -/
theorem witness_ErrorKindsByCommand :
    w1.Inv ∧ x1.Inv ∧
      holds (exec (.writeBits 1 0x3010 3 17) w1) (fun t => t.resp.status = .messageTooLarge) = true ∧
      holds (exec (.readBits 1 0x3030 2 5) w1) (fun t => t.resp.status = .wouldBlock) = true ∧
      holds (exec (.createOwned 1) w1) (fun t => t.resp.status = .allocationFailure) = true ∧
      holds (exec (.copyBits 0x4020 4 0 4 0x4000 0 0 3 1) x1) (fun t => t.resp.status = .insufficientSpace) = true :=
  ⟨by decide, by decide, by decide⟩
/-- A case of each kind of command. -/
theorem witness_LifecycleOfAContext :
    holds (exec (.createOwned 2) x1) (fun t => (t.ctx 1).live) = true ∧
      holds (exec (.destroy 1) w1) (fun t => !(t.ctx 1).live) = true ∧
      holds (exec (.readBits 1 0x3030 2 13) r1) (fun t => (t.ctx 1).rdBit = 4) = true ∧
      holds (exec (.hasData 1 1) r1) (fun t => t.ctx 1 = r1.ctx 1) = true := by decide
theorem witness_MemoriesChangeOnlyByTheirCommands :
    holds (exec (.copyBits 0x4010 1 6 4 0x4000 0 3 3 13) x1) (fun t => t.mem ≠ x1.mem) = true ∧
      holds (exec (.writeBits 1 0x3010 2 9) w1) (fun t => t.ram 1 ≠ w1.ram 1 ∧ t.mem = w1.mem) = true := by decide
/-- Two blocks that differ in the other context and in its RAM. -/
theorem witness_QueueCommandsDependOnTheirContextOnly :
    let s := { w1 with queues := w1.queues ++ [Queue.reset] }
    let s' := { w1 with queues := w1.queues ++ [⟨borrowed, [(0, 1)]⟩] }
    s.params = s'.params ∧ s.nq = s'.nq ∧ s.mem = s'.mem ∧ s.queue 1 = s'.queue 1 ∧ s ≠ s' ∧
      holds (exec (.writeBits 1 0x3010 2 9) s) (fun t => t.resp = { count := 9 }) = true := by decide
/-- Two states that differ in a RAM byte outside the ring, and a step from the first. -/
theorem witness_UnusedRamContentIsNeverObserved :
    SameButUnusedRam { w1 with host := [.command (encode (.readBits 1 0x3030 2 4))] }
      { w1 with
        queues := [⟨ring 1 3 0 7 4, [(0, 0xD6), (1, 0x05), (2, 0x99)]⟩]
        host := [.command (encode (.readBits 1 0x3030 2 4))] } ∧
    holds (step { w1 with host := [.command (encode (.readBits 1 0x3030 2 4))] }) (fun t => t.resp = { count := 4 }) =
      true := by
  refine ⟨⟨by decide, by decide, by decide, by decide, by decide, fun h => ?_⟩, by decide⟩
  rcases h with _ | _ | h
  · exact ⟨rfl, fun hl => absurd hl (by decide)⟩
  · exact ⟨rfl, by decide⟩
  · exact ⟨rfl, fun hl => absurd hl (by simp [State.ctx, State.queue, w1, one, Queue.reset, Ctx.reset])⟩

end Sys2Proof.Tests
end

/-! ## Scope: the commands the host issues (00_scope) -/

section

namespace Sys2Proof.Machine

/-- The step with a descriptor first on the command port (30_encoding R80). -/
theorem step_of_command {s : State} {d : Descriptor} {rest : List HostEvent} (hhost : s.host = .command d :: rest) :
    step s = runDescriptor d { s with host := rest } := by
  rw [step, hhost]

/-- The engine's answer to a descriptor that decodes (00_scope R6). -/
theorem runDescriptor_of_decode_ok {d : Descriptor} {i : Instr} (hd : decode d = .ok i) (s : State) :
    runDescriptor d s = exec i s := by
  rw [runDescriptor, hd]

/-- Settles O8: the step hands the descriptor on the port to `runDescriptor`, which runs the command it decodes to. -/
theorem stepRunsTheDecodedCommand : Obligations.StepRunsTheDecodedCommand := by
  intro d rest i s hhost hd
  calc step s = runDescriptor d { s with host := rest } := step_of_command hhost
    _ = exec i { s with host := rest } := runDescriptor_of_decode_ok hd _

end Sys2Proof.Machine

end

/-! ## State: the invariant of the whole block (10_state R29, R30, R33, R40) -/

section

namespace Sys2Proof

/-- The decoder reads every operand from the field that carries it, so the operand fits (30_encoding R81, R82, R86). -/
theorem decode_wellFormed {d : Descriptor} {i : Instr} (hd : decode d = .ok i) : i.wellFormed = true := by
  obtain ⟨-, hqh, hdbit, hsbit, -, hcount, hdaddr, hdbyte, hdcap, hsaddr, hsbyte, hscap⟩ := d.get_lt
  rcases decode_cases d with ⟨-, h⟩ | ⟨-, h⟩ | ⟨-, h⟩ | ⟨-, h⟩ | ⟨-, h⟩ | ⟨-, h⟩ | ⟨-, h⟩ | ⟨-, h⟩ | ⟨-, h⟩ <;>
    cases h.symm.trans hd <;>
    simp only [Instr.wellFormed, fits, AW, SW, CW, HW, OFFW, Bool.and_eq_true, decide_eq_true_eq] <;>
    omega

end Sys2Proof

namespace Sys2Proof.Machine

section
variable {s t u : State} {h count : Nat}

/-- A command that ends in a sound state with a response within its widths keeps the invariant. -/
theorem State.Inv.of_respond {r : Response} (hi : u.Inv) (hr : r.fitsWords) (ht : respond r u = .next t) : t.Inv := by
  rw [respond_inj ht]
  exact hi.withResp r hr

/-- An error keeps the invariant: it changes only the response (R14, R187). -/
theorem State.Inv.of_raise {k : Status} (hi : s.Inv) (ht : raise k s = .next t) : t.Inv :=
  hi.of_respond ⟨by simp, by simp⟩ ht

/-- A transfer on `h` that leaves its context and the memories sound, and every other context alone, keeps the
invariant with its count in the response. -/
theorem State.Inv.of_transfer (hi : s.Inv) (hpar : u.params = s.params) (hn : u.nq = s.nq)
    (hne : ∀ g, h ≠ g → u.queue g = s.queue g) (hc : (u.ctx h).ok s.params.poolBytes) (hm : u.MemOk)
    (hcount : count < 2 ^ CW) (ht : respond { count := count } u = .next t) : t.Inv := by
  rw [respond_inj ht]
  refine hi.of_parts hpar (by simpa using hn) (fun g hg => ?_) (hm.congr rfl rfl rfl (by simp)) ⟨by simp, hcount⟩
  rw [State.withResp_ctx]
  by_cases hgh : h = g
  · exact hgh ▸ hc
  · rw [State.ctx, hne g hgh]
    exact hi.ctx_ok hg

theorem State.Inv.resp_fitsWords (hi : s.Inv) : s.resp.fitsWords := ((State.inv_iff s).1 hi).2.2.2.2

/-- A copy into `M` keeps the invariant. -/
theorem State.Inv.copyMove_ext (hi : s.Inv) (a d p m : Nat) (S : Buf) : (copyMove (.ext a) d S p m s).Inv :=
  hi.of_parts (copyMove_params ..) (copyMove_nq ..) (fun g hg => by rw [copyMove_ctx]; exact hi.ctx_ok hg)
    (hi.memOk.copyMove_ext ..) (by rw [copyMove_resp]; exact hi.resp_fitsWords)

/-! ### Each command keeps it -/

theorem execCopyBits_inv {daddr dbyte dbit dcap saddr sbyte sbit scap : Nat} (hi : s.Inv) (hcount : count < 2 ^ CW)
    (ht : execCopyBits daddr dbyte dbit dcap saddr sbyte sbit scap count s = .next t) : t.Inv := by
  rcases execCopyBits_cases daddr dbyte dbit dcap saddr sbyte sbit scap count s with ⟨-, k⟩ | ⟨-, -, k⟩ | ⟨-, -, k⟩
  · exact hi.of_raise (k.symm.trans ht)
  · exact hi.of_raise (k.symm.trans ht)
  · exact (hi.copyMove_ext ..).of_respond ⟨by simp, by simp only; omega⟩ (k.symm.trans ht)

theorem execCreateOwned_inv {n : Nat} (hi : s.Inv) (ht : execCreateOwned n s = .next t) : t.Inv := by
  rcases execCreateOwned_cases n s with ⟨-, k⟩ | ⟨-, -, k⟩ | ⟨h0, hf, hn, k⟩
  · exact hi.of_raise (k.symm.trans ht)
  · exact hi.of_raise (k.symm.trans ht)
  · rw [respond_inj (k.symm.trans ht)]
    exact createIn_inv hi h0 hn hf

theorem execWrapBuffer_inv {a n : Nat} {own : Bool} (hi : s.Inv) (ha : a < 2 ^ AW) (hn : n < 2 ^ SW)
    (ht : execWrapBuffer a n own s = .next t) : t.Inv := by
  rcases execWrapBuffer_cases a n own s with ⟨-, k⟩ | ⟨-, -, k⟩ | ⟨h0, hf, k⟩
  · exact hi.of_raise (k.symm.trans ht)
  · exact hi.of_raise (k.symm.trans ht)
  · rw [respond_inj (k.symm.trans ht)]
    exact wrapIn_inv hi (fun h => h0 (Or.inr h)) ha hn hf

theorem execWriteBits_inv {saddr scap : Nat} (hi : s.Inv) (hcount : count < 2 ^ CW)
    (ht : execWriteBits h saddr scap count s = .next t) : t.Inv := by
  rcases hi.execWriteBits_cases h saddr scap count with ⟨_, -, k⟩ | ⟨hp, hl, -, h1, hcap, hroom, k⟩
  · exact hi.of_raise (k.symm.trans ht)
  · have hok := hi.live_ok hp hl
    have hfits : count ≤ (s.ctx h).cap := by omega
    have hctx := writeAll_ctx (a := saddr) hp hok.2.2.2.1 hfits
    refine hi.of_transfer (h := h) (by simp) (by simp) (fun g hne => writeAll_queue_ne g hne) ?_
      (writeAll_memOk hi hp hl scap h1 hcap hfits) hcount (k.symm.trans ht)
    rw [hctx]
    exact ⟨fun _ => Ctx.liveOk_write hok hroom, fun hd => absurd (hl.symm.trans hd) (by decide)⟩

theorem execReadBits_inv {daddr dcap : Nat} (hi : s.Inv) (hcount : count < 2 ^ CW)
    (ht : execReadBits h daddr dcap count s = .next t) : t.Inv := by
  rcases hi.execReadBits_cases h daddr dcap count with ⟨_, -, k⟩ | ⟨hp, hl, -, -, -, hdata, k⟩
  · exact hi.of_raise (k.symm.trans ht)
  · have hok := hi.live_ok hp hl
    have hctx := readAll_ctx (a := daddr) hp hok.2.2.2.1 (hdata.trans hok.2.2.2.2.1.1)
    refine hi.of_transfer (h := h) (by simp) (by simp) (fun g hne => readAll_queue_ne g hne) ?_
      (readAll_memOk hi.memOk) hcount (k.symm.trans ht)
    rw [hctx]
    exact ⟨fun _ => Ctx.liveOk_read hok hdata, fun hd => absurd (hl.symm.trans hd) (by decide)⟩

theorem query_inv {answer : Ctx → Bool} (hi : s.Inv) (ht : query h answer s = .next t) : t.Inv := by
  rcases query_cases h answer s with ⟨-, k⟩ | ⟨-, -, k⟩
  · exact hi.of_raise (k.symm.trans ht)
  · exact hi.of_respond ⟨by simp, by simp⟩ (k.symm.trans ht)

/-- A context that goes back to its reset value keeps the invariant (R40, R175). -/
theorem State.Inv.resetCtx (hi : s.Inv) (hp : s.qPresent h) : (s.modifyCtx h fun _ => Ctx.reset).Inv := by
  refine hi.of_parts (by simp) (by simp) (fun g hg => ?_) (hi.memOk.modifyCtx ..) ?_
  · rw [State.modifyCtx_ctx _ _ _ _ hp]
    split
    · exact Ctx.reset_ok _
    · exact hi.ctx_ok hg
  · rw [State.modifyCtx_resp]
    exact hi.resp_fitsWords

theorem execDestroy_inv (hi : s.Inv) (ht : execDestroy h s = .next t) : t.Inv := by
  rcases execDestroy_cases h s with ⟨-, k⟩ | ⟨hp, -, k⟩
  · exact hi.of_raise (k.symm.trans ht)
  · exact (hi.resetCtx hp).of_respond ⟨by simp, by simp⟩ (k.symm.trans ht)

/-- Every well-formed command keeps the invariant. -/
theorem exec_inv {i : Instr} (hw : i.wellFormed = true) (hi : s.Inv) (ht : exec i s = .next t) : t.Inv := by
  cases i with
  | copyBits daddr dbyte dbit dcap saddr sbyte sbit scap count =>
    simp only [Instr.wellFormed, fits, Bool.and_eq_true, decide_eq_true_eq] at hw
    exact execCopyBits_inv hi hw.2 ht
  | createOwned dcap => exact execCreateOwned_inv hi ht
  | wrapBuffer daddr dcap own =>
    simp only [Instr.wellFormed, fits, Bool.and_eq_true, decide_eq_true_eq] at hw
    exact execWrapBuffer_inv hi hw.1 hw.2 ht
  | writeBits qh saddr scap count =>
    simp only [Instr.wellFormed, fits, Bool.and_eq_true, decide_eq_true_eq] at hw
    exact execWriteBits_inv hi hw.2 ht
  | readBits qh daddr dcap count =>
    simp only [Instr.wellFormed, fits, Bool.and_eq_true, decide_eq_true_eq] at hw
    exact execReadBits_inv hi hw.2 ht
  | hasSpace qh count => exact query_inv (answer := fun c => c.hasSpace count) hi ht
  | hasData qh count => exact query_inv (answer := fun c => c.hasData count) hi ht
  | destroy qh => exact execDestroy_inv hi ht

/-! ### Each host action keeps it -/

/-- A descriptor, legal or not, keeps the invariant. -/
theorem runDescriptor_inv {d : Descriptor} (hi : s.Inv) (ht : runDescriptor d s = .next t) : t.Inv := by
  cases hd : decode d with
  | ok i => exact exec_inv (decode_wellFormed hd) hi ((runDescriptor_of_decode_ok hd s).symm.trans ht)
  | error e =>
    rw [runDescriptor, hd] at ht
    exact hi.of_raise ht

/-- A byte the host writes lands inside `M` (R12, R69). -/
theorem hostWrite_inv (hi : s.Inv) (a : Nat) (v : Byte) : (hostWrite a v s).Inv := by
  have hm : (hostWrite a v s).MemOk := hi.memOk.writeLoc _ _ (Nat.mod_lt _ (by simp [AW]))
  refine hi.of_parts (State.writeLoc_params ..) (State.writeLoc_nq ..) (fun g hg => ?_) hm ?_
  · rw [hostWrite, State.writeLoc_ctx]
    exact hi.ctx_ok hg
  · rw [hostWrite, State.writeLoc_resp]
    exact hi.resp_fitsWords

theorem Queue.reset_ok (pool : Nat) : Queue.reset.ok pool :=
  ⟨Ctx.reset_ok pool, ⟨.nil, by simp [Queue.reset]⟩, by simp [Queue.reset]⟩

/-- The reset event leaves every context and RAM at its reset value and `M` alone (R211, R213). -/
theorem resetBlock_inv (hi : s.Inv) : (resetBlock s).Inv := by
  obtain ⟨hpar, hn, -, hwf, hwithin, -⟩ := hi
  refine ⟨hpar, by simpa [resetBlock, State.nq] using hn, fun q hq => ?_, hwf, hwithin,
    (by decide : Response.fitsWords {})⟩
  obtain ⟨-, -, rfl⟩ := List.mem_map.1 hq
  exact Queue.reset_ok _

end

/-! ### The step by the host's next action (10_state R38) -/

section
variable {s : State} {rest : List HostEvent}

theorem step_of_nil (hhost : s.host = []) : step s = .next s := by
  rw [step, hhost]

theorem step_of_memWrite {a : Nat} {v : Byte} (hhost : s.host = .memWrite a v :: rest) :
    step s = .next (hostWrite a v { s with host := rest }) := by
  rw [step, hhost]

theorem step_of_reset (hhost : s.host = .reset :: rest) : step s = .next (resetBlock { s with host := rest }) := by
  rw [step, hhost]

end

/-- Settles O37, by the kinds of the host's next action: a descriptor (`runDescriptor_inv`, command by command), a byte
written to `M`, the reset event. -/
theorem stepKeepsTheInvariant : Obligations.StepKeepsTheInvariant := by
  intro s t hi ht
  cases hhost : s.host with
  | nil =>
    cases (step_of_nil hhost).symm.trans ht
    exact hi
  | cons e rest =>
    have hi' : State.Inv { s with host := rest } := hi.withHost rest
    cases e with
    | command d => exact runDescriptor_inv hi' ((step_of_command hhost).symm.trans ht)
    | memWrite a v =>
      cases (step_of_memWrite hhost).symm.trans ht
      exact hostWrite_inv hi' a v
    | reset =>
      cases (step_of_reset hhost).symm.trans ht
      exact resetBlock_inv hi'

end Sys2Proof.Machine

end

/-! ## State: what each command leaves of contexts and memories (10_state R20, R23, R31, R32, R34) -/

section

namespace Sys2Proof.Machine

section
variable {s t : State} {h a n : Nat} {own : Bool}

/-! ### The states a command can leave -/

/-- `CREATE_OWNED` ends with an error response and nothing else, or with a dead context made an empty owned queue whose
handle it answers (R141). -/
theorem execCreateOwned_next (ht : execCreateOwned n s = .next t) :
    (∃ k, k ≠ .ok ∧ t = { s with resp := { status := k } }) ∨
      ∃ h, s.qPresent h ∧ (s.ctx h).live = false ∧ t = { createIn h n s with resp := { qh := h } } := by
  rcases execCreateOwned_cases n s with ⟨-, k⟩ | ⟨-, -, k⟩ | ⟨-, hf, -, k⟩
  · exact Or.inl ⟨_, by decide, respond_inj (k.symm.trans ht)⟩
  · exact Or.inl ⟨_, by decide, respond_inj (k.symm.trans ht)⟩
  · rcases freeHandle_cases s with ⟨h0, -⟩ | ⟨hp, hd, -⟩
    · exact absurd h0 hf
    · exact Or.inr ⟨_, hp, hd, respond_inj (k.symm.trans ht)⟩

/-- `WRAP_BUFFER` ends with an error response and nothing else, or with a dead context made a full queue whose handle it
answers (R142). -/
theorem execWrapBuffer_next (ht : execWrapBuffer a n own s = .next t) :
    (∃ k, k ≠ .ok ∧ t = { s with resp := { status := k } }) ∨
      ∃ h, s.qPresent h ∧ (s.ctx h).live = false ∧ t = { wrapIn h a n own s with resp := { qh := h } } := by
  rcases execWrapBuffer_cases a n own s with ⟨-, k⟩ | ⟨-, -, k⟩ | ⟨-, hf, k⟩
  · exact Or.inl ⟨_, by decide, respond_inj (k.symm.trans ht)⟩
  · exact Or.inl ⟨_, by decide, respond_inj (k.symm.trans ht)⟩
  · rcases freeHandle_cases s with ⟨h0, -⟩ | ⟨hp, hd, -⟩
    · exact absurd h0 hf
    · exact Or.inr ⟨_, hp, hd, respond_inj (k.symm.trans ht)⟩

/-- The queue a `CREATE_OWNED` has answered with handle `h` (R143). -/
theorem execCreateOwned_handle (ht : execCreateOwned n s = .next t) (hr : t.resp = { qh := h }) :
    t.qPresent h ∧ t.ctx h = Ctx.created n := by
  rcases execCreateOwned_next ht with ⟨k, hk, rfl⟩ | ⟨g, hp, -, rfl⟩
  · exact absurd (congrArg Response.status hr) hk
  · obtain rfl : g = h := congrArg Response.qh hr
    exact ⟨by simpa only [State.qPresent, State.withResp_nq, createIn_nq] using hp,
      by rw [State.withResp_ctx, createIn_ctx hp, if_pos rfl]⟩

/-- The queue a `WRAP_BUFFER` has answered with handle `h` (R143). -/
theorem execWrapBuffer_handle (ht : execWrapBuffer a n own s = .next t) (hr : t.resp = { qh := h }) :
    t.qPresent h ∧ t.ctx h = Ctx.wrapped a n own := by
  rcases execWrapBuffer_next ht with ⟨k, hk, rfl⟩ | ⟨g, hp, -, rfl⟩
  · exact absurd (congrArg Response.status hr) hk
  · obtain rfl : g = h := congrArg Response.qh hr
    exact ⟨by simpa only [State.qPresent, State.withResp_nq, wrapIn_nq] using hp,
      by rw [State.withResp_ctx, wrapIn_ctx hp, if_pos rfl]⟩

/-- A query leaves everything but the response (R170, R171). -/
theorem query_next {answer : Ctx → Bool} (ht : query h answer s = .next t) : ∃ r, t = { s with resp := r } := by
  rcases query_cases h answer s with ⟨-, k⟩ | ⟨-, -, k⟩ <;>
    exact ⟨_, respond_inj (k.symm.trans ht)⟩

/-- `DESTROY` ends with an error response and nothing else, or with the live context it names at its reset value
(R175). -/
theorem execDestroy_next (ht : execDestroy h s = .next t) :
    (∃ r, t = { s with resp := r }) ∨
      (s.qPresent h ∧ (s.ctx h).live = true ∧
        ∃ r, t = { s.modifyCtx h (fun _ => Ctx.reset) with resp := r }) := by
  rcases execDestroy_cases h s with ⟨-, k⟩ | ⟨hp, hl, k⟩
  · exact Or.inl ⟨_, respond_inj (k.symm.trans ht)⟩
  · exact Or.inr ⟨hp, hl, _, respond_inj (k.symm.trans ht)⟩

/-- A query of an absent or dead context. -/
theorem query_invalid {answer : Ctx → Bool} (hd : ¬ s.qPresent h ∨ (s.ctx h).live = false) :
    query h answer s = raise .invalidArgument s := by
  rcases query_cases h answer s with ⟨-, k⟩ | ⟨hp, hl, -⟩
  · exact k
  · exact absurd hd (by simp [hp, hl])

/-- A query of a live context. -/
theorem query_live {answer : Ctx → Bool} (hp : s.qPresent h) (hl : (s.ctx h).live = true) :
    query h answer s = respond { flag := answer (s.ctx h) } s := by
  rcases query_cases h answer s with ⟨hd, -⟩ | ⟨-, -, k⟩
  · exact absurd hd (by simp [hp, hl])
  · exact k

/-- `DESTROY` of an absent or dead context. -/
theorem execDestroy_invalid (hd : ¬ s.qPresent h ∨ (s.ctx h).live = false) :
    execDestroy h s = raise .invalidArgument s := by
  rcases execDestroy_cases h s with ⟨-, k⟩ | ⟨hp, hl, -⟩
  · exact k
  · exact absurd hd (by simp [hp, hl])

/-- `DESTROY` of a live context. -/
theorem execDestroy_live (hp : s.qPresent h) (hl : (s.ctx h).live = true) :
    execDestroy h s = respond { rel := (s.ctx h).release } (s.modifyCtx h fun _ => Ctx.reset) := by
  rcases execDestroy_cases h s with ⟨hd, -⟩ | ⟨-, -, k⟩
  · exact absurd hd (by simp [hp, hl])
  · exact k

/-- `COPY_BITS` leaves the parameters and every context with its RAM (R127). -/
theorem execCopyBits_frame {daddr dbyte dbit dcap saddr sbyte sbit scap count : Nat}
    (ht : execCopyBits daddr dbyte dbit dcap saddr sbyte sbit scap count s = .next t) :
    t.params = s.params ∧ t.queues = s.queues := by
  rcases execCopyBits_cases daddr dbyte dbit dcap saddr sbyte sbit scap count s with ⟨-, k⟩ | ⟨-, -, k⟩ | ⟨-, -, k⟩ <;>
    rw [respond_inj (k.symm.trans ht)]
  · exact ⟨rfl, rfl⟩
  · exact ⟨rfl, rfl⟩
  · exact ⟨copyMove_params .., copyMove_ext_queues ..⟩

theorem State.queue_congr (hq : t.queues = s.queues) (g : Nat) : t.queue g = s.queue g := by
  cases g <;> simp [State.queue, hq]

/-! ### The errors of the transfers -/

variable {addr size count : Nat}

theorem execWriteBits_invalid (hv : transferInvalid s h addr size count) :
    execWriteBits h addr size count s = raise .invalidArgument s := by
  rcases execWriteBits_cases h addr size count s with ⟨-, k⟩ | ⟨hn, -⟩ | ⟨hn, -⟩ | ⟨hn, -⟩
  · exact k
  all_goals exact absurd hv hn

theorem execReadBits_invalid (hv : transferInvalid s h addr size count) :
    execReadBits h addr size count s = raise .invalidArgument s := by
  rcases execReadBits_cases h addr size count s with ⟨-, k⟩ | ⟨hn, -⟩ | ⟨hn, -⟩ | ⟨hn, -⟩
  · exact k
  all_goals exact absurd hv hn

/-- R151: a write of more bits than the ring has. -/
theorem execWriteBits_messageTooLarge (hv : ¬ transferInvalid s h addr size count) (hbig : (s.ctx h).cap < count) :
    execWriteBits h addr size count s = raise .messageTooLarge s := by
  rcases execWriteBits_cases h addr size count s with ⟨hi, -⟩ | ⟨-, -, k⟩ | ⟨-, hfit, -⟩ | ⟨-, hok, -⟩
  · exact absurd hi hv
  · exact k
  · omega
  · omega

/-- R161: a read of more bits than the ring has. -/
theorem execReadBits_messageTooLarge (hv : ¬ transferInvalid s h addr size count) (hbig : (s.ctx h).cap < count) :
    execReadBits h addr size count s = raise .messageTooLarge s := by
  rcases execReadBits_cases h addr size count s with ⟨hi, -⟩ | ⟨-, -, k⟩ | ⟨-, hfit, -⟩ | ⟨-, hfit, -⟩
  · exact absurd hi hv
  · exact k
  · omega
  · omega

/-- R151: a write that fits the ring and not its free space. -/
theorem execWriteBits_wouldBlock (hv : ¬ transferInvalid s h addr size count) (hfit : count ≤ (s.ctx h).cap)
    (hroom : (s.ctx h).cap < (s.ctx h).validBits + count) :
    execWriteBits h addr size count s = raise .wouldBlock s := by
  rcases execWriteBits_cases h addr size count s with ⟨hi, -⟩ | ⟨-, hbig, -⟩ | ⟨-, -, -, k⟩ | ⟨-, hok, -⟩
  · exact absurd hi hv
  · omega
  · exact k
  · omega

/-- R161: a read that fits the ring and not the bits it holds. -/
theorem execReadBits_wouldBlock (hv : ¬ transferInvalid s h addr size count) (hfit : count ≤ (s.ctx h).cap)
    (hdata : (s.ctx h).validBits < count) :
    execReadBits h addr size count s = raise .wouldBlock s := by
  rcases execReadBits_cases h addr size count s with ⟨hi, -⟩ | ⟨-, hbig, -⟩ | ⟨-, -, -, k⟩ | ⟨-, -, hok, -⟩
  · exact absurd hi hv
  · omega
  · exact k
  · omega

/-- A write that passes every check runs its loop (R150). -/
theorem execWriteBits_loop (hv : ¬ transferInvalid s h addr size count)
    (hroom : (s.ctx h).validBits + count ≤ (s.ctx h).cap) (hin : ¬ s.ringOutsideRam h) :
    execWriteBits h addr size count s = writeLoop h addr size count count 0 s := by
  rcases execWriteBits_cases h addr size count s with
    ⟨hi, -⟩ | ⟨-, hbig, -⟩ | ⟨-, -, hfull, -⟩ | ⟨-, -, ⟨hout, -⟩ | ⟨-, k⟩⟩
  · exact absurd hi hv
  · omega
  · omega
  · exact absurd hout hin
  · exact k

/-- A read that passes every check runs its loop (R160). -/
theorem execReadBits_loop (hv : ¬ transferInvalid s h addr size count) (hfit : count ≤ (s.ctx h).cap)
    (hdata : count ≤ (s.ctx h).validBits) (hin : ¬ s.ringOutsideRam h) :
    execReadBits h addr size count s = readLoop h addr size count count 0 s := by
  rcases execReadBits_cases h addr size count s with
    ⟨hi, -⟩ | ⟨-, hbig, -⟩ | ⟨-, -, hempty, -⟩ | ⟨-, -, -, ⟨hout, -⟩ | ⟨-, k⟩⟩
  · exact absurd hi hv
  · omega
  · omega
  · exact absurd hout hin
  · exact k

end

/-- Settles O21: a fresh wrapped queue holds as many bits as its ring has, a fresh owned queue none, so the transfer
passes every check but the last. -/
theorem wrappedQueueStartsFullOwnedQueueStartsEmpty : Obligations.WrappedQueueStartsFullOwnedQueueStartsEmpty := by
  constructor
  · intro a n h saddr scap count own s t ht hr ha h1 hcap hfit
    obtain ⟨hp, hc⟩ := execWrapBuffer_handle ht hr
    refine execWriteBits_wouldBlock (not_transferInvalid hp ha h1 hcap (by rw [hc]; rfl)) ?_ ?_ <;>
      simp only [hc, Ctx.cap, Ctx.wrapped] <;> omega
  · intro n h daddr dcap count s t ht hr ha h1 hcap hfit
    obtain ⟨hp, hc⟩ := execCreateOwned_handle ht hr
    refine execReadBits_wouldBlock (not_transferInvalid hp ha h1 hcap (by rw [hc]; rfl)) ?_ ?_ <;>
      simp only [hc, Ctx.cap, Ctx.created] <;> omega

/-! ### The frames of the transfers -/

/-- The context with another write cursor and count, nothing else changed (R150 lines 17, 18). -/
def Ctx.WriteAdvanced (c c' : Ctx) : Prop :=
  ∃ wrByte wrBit validBits, c' = { c with wrByte := wrByte, wrBit := wrBit, validBits := validBits }

/-- The context with another read cursor and count, nothing else changed (R160 lines 14, 15). -/
def Ctx.ReadAdvanced (c c' : Ctx) : Prop :=
  ∃ rdByte rdBit validBits, c' = { c with rdByte := rdByte, rdBit := rdBit, validBits := validBits }

section
variable {c c' : Ctx}

theorem Ctx.WriteAdvanced.refl (c : Ctx) : c.WriteAdvanced c := ⟨_, _, _, rfl⟩
theorem Ctx.ReadAdvanced.refl (c : Ctx) : c.ReadAdvanced c := ⟨_, _, _, rfl⟩

theorem Ctx.WriteAdvanced.advance (hc : c.WriteAdvanced c') (k : Nat) : c.WriteAdvanced (c'.advanceWrite k) := by
  obtain ⟨_, _, _, rfl⟩ := hc
  exact ⟨_, _, _, rfl⟩

theorem Ctx.ReadAdvanced.advance (hc : c.ReadAdvanced c') (k : Nat) : c.ReadAdvanced (c'.advanceRead k) := by
  obtain ⟨_, _, _, rfl⟩ := hc
  exact ⟨_, _, _, rfl⟩

theorem Ctx.WriteAdvanced.bufInt_eq (hc : c.WriteAdvanced c') : c'.bufInt = c.bufInt := by
  obtain ⟨_, _, _, rfl⟩ := hc
  rfl

theorem Ctx.WriteAdvanced.eq (hc : c.WriteAdvanced c') :
    c' = { c with wrByte := c'.wrByte, wrBit := c'.wrBit, validBits := c'.validBits } := by
  obtain ⟨_, _, _, rfl⟩ := hc
  rfl

theorem Ctx.ReadAdvanced.eq (hc : c.ReadAdvanced c') :
    c' = { c with rdByte := c'.rdByte, rdBit := c'.rdBit, validBits := c'.validBits } := by
  obtain ⟨_, _, _, rfl⟩ := hc
  rfl

end

/-- What `WRITE_BITS` on `h` leaves, whatever it answers: of its context all but the write cursor and the count, of the
memories all but the one its ring is in (R150, R68). -/
structure WriteFrame (h : Nat) (s t : State) : Prop where
  params : t.params = s.params
  nq : t.nq = s.nq
  host : t.host = s.host
  queue_ne : ∀ g, g ≠ h → t.queue g = s.queue g
  ctx : (s.ctx h).WriteAdvanced (t.ctx h)
  mem : (s.ctx h).bufInt = true → t.mem = s.mem
  ram : (s.ctx h).bufInt = false → t.ram h = s.ram h

/-- What `READ_BITS` on `h` leaves, whatever it answers: every RAM, and of its context all but the read cursor
and the count (R160, R68). -/
structure ReadFrame (h : Nat) (s t : State) : Prop where
  params : t.params = s.params
  nq : t.nq = s.nq
  host : t.host = s.host
  queue_ne : ∀ g, g ≠ h → t.queue g = s.queue g
  ctx : (s.ctx h).ReadAdvanced (t.ctx h)
  ram : ∀ g, t.ram g = s.ram g

section
variable {s t u : State} {h addr size count : Nat}

theorem State.qbuf_of_internal (hb : (s.ctx h).bufInt = true) : s.qbuf h = .int h := if_pos hb

theorem State.qbuf_of_external (hb : (s.ctx h).bufInt = false) : s.qbuf h = .ext (s.ctx h).bufBase := by
  simp [State.qbuf, hb]

/-- A byte written to a buffer of `M` changes no context and no RAM. -/
@[simp] theorem bufWrite_ext_queue (s : State) (a i g : Nat) (v : Byte) :
    (bufWrite s (.ext a) i v).queue g = s.queue g :=
  State.writeLoc_queue_ne _ _ _ _ (by simp [Buf.loc, memLoc])

/-- A byte written to a RAM leaves `M`. -/
@[simp] theorem bufWrite_int_mem (s : State) (g i : Nat) (v : Byte) : (bufWrite s (.int g) i v).mem = s.mem :=
  State.writeLoc_mem_ram ..

theorem bufWrite_int_queue_ne (s : State) {g h : Nat} (hne : g ≠ h) (i : Nat) (v : Byte) :
    (bufWrite s (.int h) i v).queue g = s.queue g :=
  State.writeLoc_queue_ne _ _ _ _ (by simp [Buf.loc, hne.symm])

/-- A byte written to the ring of `h` changes no other context and no other RAM. -/
theorem bufWrite_qbuf_queue_ne (s : State) {g h : Nat} (hne : g ≠ h) (i : Nat) (v : Byte) :
    (bufWrite s (s.qbuf h) i v).queue g = s.queue g := by
  cases hb : (s.ctx h).bufInt with
  | true => rw [State.qbuf_of_internal hb, bufWrite_int_queue_ne s hne]
  | false => rw [State.qbuf_of_external hb, bufWrite_ext_queue]

theorem WriteFrame.refl (h : Nat) (s : State) : WriteFrame h s s :=
  ⟨rfl, rfl, rfl, fun _ _ => rfl, .refl _, fun _ => rfl, fun _ => rfl⟩

theorem ReadFrame.refl (h : Nat) (s : State) : ReadFrame h s s :=
  ⟨rfl, rfl, rfl, fun _ _ => rfl, .refl _, fun _ => rfl⟩

theorem WriteFrame.withResp (hf : WriteFrame h s u) (r : Response) : WriteFrame h s { u with resp := r } :=
  ⟨hf.params, hf.nq, hf.host, by simpa using hf.queue_ne, by simpa using hf.ctx, hf.mem, by simpa using hf.ram⟩

theorem ReadFrame.withResp (hf : ReadFrame h s u) (r : Response) : ReadFrame h s { u with resp := r } :=
  ⟨hf.params, hf.nq, hf.host, by simpa using hf.queue_ne, by simpa using hf.ctx, by simpa using hf.ram⟩

theorem WriteFrame.bufWrite_qbuf (hf : WriteFrame h s u) (i : Nat) (v : Byte) :
    WriteFrame h s (bufWrite u (u.qbuf h) i v) where
  params := (bufWrite_params ..).trans hf.params
  nq := (bufWrite_nq ..).trans hf.nq
  host := (bufWrite_host ..).trans hf.host
  queue_ne g hne := (bufWrite_qbuf_queue_ne u hne i v).trans (hf.queue_ne g hne)
  ctx := by rw [bufWrite_ctx]; exact hf.ctx
  mem hb := by rw [State.qbuf_of_internal (hf.ctx.bufInt_eq.trans hb), bufWrite_int_mem]; exact hf.mem hb
  ram hb := by
    rw [State.qbuf_of_external (hf.ctx.bufInt_eq.trans hb), State.ram, bufWrite_ext_queue]; exact hf.ram hb

theorem ReadFrame.bufWrite_ext (hf : ReadFrame h s u) (a i : Nat) (v : Byte) :
    ReadFrame h s (bufWrite u (.ext a) i v) where
  params := (bufWrite_params ..).trans hf.params
  nq := (bufWrite_nq ..).trans hf.nq
  host := (bufWrite_host ..).trans hf.host
  queue_ne g hne := (bufWrite_ext_queue ..).trans (hf.queue_ne g hne)
  ctx := by rw [bufWrite_ctx]; exact hf.ctx
  ram g := by rw [State.ram, bufWrite_ext_queue]; exact hf.ram g

/-- What a change of a context keeps of it is kept, whether or not its handle names a context. -/
theorem State.modifyCtx_ctx_of {p : Ctx → Prop} {f : Ctx → Ctx} (hf : ∀ c, p c → p (f c)) (hp : p (s.ctx h)) :
    p ((s.modifyCtx h f).ctx h) := by
  by_cases hq : s.qPresent h
  · rw [State.modifyCtx_ctx _ _ _ _ hq, if_pos rfl]
    exact hf _ hp
  · rwa [State.modifyCtx, State.modifyQueue_absent _ _ _ hq]

theorem WriteFrame.advance (hf : WriteFrame h s u) (k : Nat) :
    WriteFrame h s (u.modifyCtx h (Ctx.advanceWrite k)) where
  params := (State.modifyCtx_params ..).trans hf.params
  nq := (State.modifyCtx_nq ..).trans hf.nq
  host := (State.modifyCtx_host ..).trans hf.host
  queue_ne g hne := (State.modifyCtx_queue_ne _ _ _ _ hne.symm).trans (hf.queue_ne g hne)
  ctx := State.modifyCtx_ctx_of (fun _ hc => hc.advance k) hf.ctx
  mem hb := (State.modifyCtx_mem ..).trans (hf.mem hb)
  ram hb := (State.modifyCtx_ram ..).trans (hf.ram hb)

theorem ReadFrame.advance (hf : ReadFrame h s u) (k : Nat) :
    ReadFrame h s (u.modifyCtx h (Ctx.advanceRead k)) where
  params := (State.modifyCtx_params ..).trans hf.params
  nq := (State.modifyCtx_nq ..).trans hf.nq
  host := (State.modifyCtx_host ..).trans hf.host
  queue_ne g hne := (State.modifyCtx_queue_ne _ _ _ _ hne.symm).trans (hf.queue_ne g hne)
  ctx := State.modifyCtx_ctx_of (fun _ hc => hc.advance k) hf.ctx
  ram g := (State.modifyCtx_ram ..).trans (hf.ram g)

/-- `WRITE_BITS` is made of ring writes, cursor advances and a response, each of which stays in the frame. -/
theorem execWriteBits_frame (ht : execWriteBits h addr size count s = .next t) : WriteFrame h s t :=
  execWriteBits_induct (P := WriteFrame h s) ht (.refl h s) (fun _ i v hf _ => hf.bufWrite_qbuf i v)
    (fun _ k hf => hf.advance k) (fun _ r hf => hf.withResp r)

/-- `READ_BITS` is made of writes to `M`, cursor advances and a response, each of which stays in the frame. -/
theorem execReadBits_frame (ht : execReadBits h addr size count s = .next t) : ReadFrame h s t :=
  execReadBits_induct (P := ReadFrame h s) ht (.refl h s) (fun _ i v hf _ => hf.bufWrite_ext addr i v)
    (fun _ k hf => hf.advance k) (fun _ r hf => hf.withResp r)

/-! ### The lifecycle of a context -/

/-- `WRITE_BITS` leaves every context alone but the live one it names, whose write cursor and count it may change. -/
theorem execWriteBits_ctx (ht : execWriteBits h addr size count s = .next t) (g : Nat) :
    t.ctx g = s.ctx g ∨ (g = h ∧ (s.ctx g).live = true ∧ (s.ctx g).WriteAdvanced (t.ctx g)) := by
  have hf := execWriteBits_frame ht
  by_cases hg : g = h
  · subst hg
    cases hl : (s.ctx g).live with
    | true => exact Or.inr ⟨rfl, rfl, hf.ctx⟩
    | false =>
      left
      rw [respond_inj ((execWriteBits_invalid (by simp [transferInvalid, hl])).symm.trans ht), State.withResp_ctx]
  · exact Or.inl (congrArg Queue.ctx (hf.queue_ne g hg))

/-- `READ_BITS` leaves every context alone but the live one it names, whose read cursor and count it may change. -/
theorem execReadBits_ctx (ht : execReadBits h addr size count s = .next t) (g : Nat) :
    t.ctx g = s.ctx g ∨ (g = h ∧ (s.ctx g).live = true ∧ (s.ctx g).ReadAdvanced (t.ctx g)) := by
  have hf := execReadBits_frame ht
  by_cases hg : g = h
  · subst hg
    cases hl : (s.ctx g).live with
    | true => exact Or.inr ⟨rfl, rfl, hf.ctx⟩
    | false =>
      left
      rw [respond_inj ((execReadBits_invalid (by simp [transferInvalid, hl])).symm.trans ht), State.withResp_ctx]
  · exact Or.inl (congrArg Queue.ctx (hf.queue_ne g hg))

/-- A state that differs from `s` in one dead context, made live, whose handle it answers. -/
theorem ctx_eq_or_claimed {c : Ctx} (hu : ∀ g, u.ctx g = if h = g then c else s.ctx g) (hd : (s.ctx h).live = false)
    (hl : c.live = true) (ht : t = { u with resp := { qh := h } }) (g : Nat) :
    t.ctx g = s.ctx g ∨ ((s.ctx g).live = false ∧ (t.ctx g).live = true ∧ t.resp = { qh := g }) := by
  subst ht
  rw [State.withResp_ctx, hu]
  split
  · subst_vars
    exact Or.inr ⟨hd, hl, rfl⟩
  · exact Or.inl rfl

/-- A constructor leaves every context alone but the dead one it makes live and whose handle it answers. -/
theorem execCreateOwned_ctx {n : Nat} (ht : execCreateOwned n s = .next t) (g : Nat) :
    t.ctx g = s.ctx g ∨ ((s.ctx g).live = false ∧ (t.ctx g).live = true ∧ t.resp = { qh := g }) := by
  rcases execCreateOwned_next ht with ⟨k, -, rfl⟩ | ⟨h, hp, hd, hu⟩
  · exact Or.inl (State.withResp_ctx ..)
  · exact ctx_eq_or_claimed (createIn_ctx hp) hd rfl hu g

theorem execWrapBuffer_ctx {a n : Nat} {own : Bool} (ht : execWrapBuffer a n own s = .next t) (g : Nat) :
    t.ctx g = s.ctx g ∨ ((s.ctx g).live = false ∧ (t.ctx g).live = true ∧ t.resp = { qh := g }) := by
  rcases execWrapBuffer_next ht with ⟨k, -, rfl⟩ | ⟨h, hp, hd, hu⟩
  · exact Or.inl (State.withResp_ctx ..)
  · exact ctx_eq_or_claimed (wrapIn_ctx hp) hd rfl hu g

theorem query_ctx {answer : Ctx → Bool} (ht : query h answer s = .next t) (g : Nat) : t.ctx g = s.ctx g := by
  obtain ⟨r, rfl⟩ := query_next ht
  exact State.withResp_ctx ..

/-- `DESTROY` leaves every context alone but the live one it names, which it takes to the reset value. -/
theorem execDestroy_ctx (ht : execDestroy h s = .next t) (g : Nat) :
    t.ctx g = s.ctx g ∨ (g = h ∧ (s.ctx g).live = true ∧ t.ctx g = Ctx.reset) := by
  rcases execDestroy_next ht with ⟨r, rfl⟩ | ⟨hp, hl, r, rfl⟩
  · exact Or.inl (State.withResp_ctx ..)
  · rw [State.withResp_ctx, State.modifyCtx_ctx _ _ _ _ hp]
    split
    · subst_vars
      exact Or.inr ⟨rfl, hl, rfl⟩
    · exact Or.inl rfl

end

/-- Settles O43, command by command. -/
theorem lifecycleOfAContext : Obligations.LifecycleOfAContext := by
  intro i s t g ht
  cases i with
  | copyBits => exact congrArg Queue.ctx (State.queue_congr (execCopyBits_frame ht).2 g)
  | createOwned => exact execCreateOwned_ctx ht g
  | wrapBuffer => exact execWrapBuffer_ctx ht g
  | writeBits =>
    exact (execWriteBits_ctx ht g).imp_right fun ⟨hg, hl, hc⟩ => ⟨hg, hl, hc.eq⟩
  | readBits =>
    exact (execReadBits_ctx ht g).imp_right fun ⟨hg, hl, hc⟩ => ⟨hg, hl, hc.eq⟩
  | hasSpace _ count => exact query_ctx (answer := fun c => c.hasSpace count) ht g
  | hasData _ count => exact query_ctx (answer := fun c => c.hasData count) ht g
  | destroy => exact execDestroy_ctx ht g

/-! ### The memories -/

section
variable {s t : State} {h : Nat}

/-- What a command leaves when it changes no memory. -/
structure MemoriesKept (s t : State) : Prop where
  params : t.params = s.params
  nq : t.nq = s.nq
  mem : t.mem = s.mem
  ram : ∀ g, t.ram g = s.ram g

theorem MemoriesKept.of_withResp (s : State) (r : Response) : MemoriesKept s { s with resp := r } :=
  ⟨rfl, rfl, rfl, fun _ => State.withResp_ram ..⟩

theorem MemoriesKept.of_modifyCtx (s : State) (h : Nat) (f : Ctx → Ctx) (r : Response) :
    MemoriesKept s { s.modifyCtx h f with resp := r } :=
  ⟨State.modifyCtx_params .., State.modifyCtx_nq .., State.modifyCtx_mem .., fun _ =>
    (State.withResp_ram ..).trans (State.modifyCtx_ram ..)⟩

theorem execWrapBuffer_memories {a n : Nat} {own : Bool} (ht : execWrapBuffer a n own s = .next t) :
    MemoriesKept s t := by
  rcases execWrapBuffer_next ht with ⟨k, -, rfl⟩ | ⟨h, -, -, rfl⟩
  · exact .of_withResp ..
  · exact .of_modifyCtx ..

theorem query_memories {answer : Ctx → Bool} (ht : query h answer s = .next t) : MemoriesKept s t := by
  obtain ⟨r, rfl⟩ := query_next ht
  exact .of_withResp ..

theorem execDestroy_memories (ht : execDestroy h s = .next t) : MemoriesKept s t := by
  rcases execDestroy_next ht with ⟨r, rfl⟩ | ⟨-, -, r, rfl⟩
  · exact .of_withResp ..
  · exact .of_modifyCtx ..

/-- `CREATE_OWNED` changes no memory but the RAM of the context it answers (R141, R68). -/
theorem execCreateOwned_memories {n : Nat} (ht : execCreateOwned n s = .next t) :
    t.params = s.params ∧ t.nq = s.nq ∧ t.mem = s.mem ∧ ∀ g, t.ram g ≠ s.ram g → t.resp = { qh := g } := by
  rcases execCreateOwned_next ht with ⟨k, -, rfl⟩ | ⟨h, hp, -, rfl⟩
  · exact ⟨rfl, rfl, rfl, fun g hne => absurd (State.withResp_ram ..) hne⟩
  · refine ⟨createIn_params, createIn_nq, createIn_mem, fun g hne => ?_⟩
    rw [State.withResp_ram, createIn_ram hp] at hne
    split at hne
    · subst_vars; rfl
    · exact absurd rfl hne

/-- A command that keeps every memory meets any claim about which memories may change. -/
theorem MemoriesKept.changes {p : Prop} {q : Nat → Prop} (hk : MemoriesKept s t) :
    t.params = s.params ∧ t.nq = s.nq ∧ (t.mem ≠ s.mem → p) ∧ ∀ g, t.ram g ≠ s.ram g → q g :=
  ⟨hk.params, hk.nq, fun hne => absurd hk.mem hne, fun g hne => absurd (hk.ram g) hne⟩

/-- The RAM `WRITE_BITS` may change is that of its own internal ring. -/
theorem WriteFrame.ram_ne {g : Nat} (hf : WriteFrame h s t) (hne : t.ram g ≠ s.ram g) :
    g = h ∧ (s.ctx h).bufInt = true := by
  obtain rfl : g = h := by
    by_contra hg
    exact hne (congrArg Queue.ram (hf.queue_ne g hg))
  exact ⟨rfl, by by_contra hb; exact hne (hf.ram (Bool.eq_false_of_not_eq_true hb))⟩

/-- `WRITE_BITS` may change `M` only when its ring is there. -/
theorem WriteFrame.mem_ne (hf : WriteFrame h s t) (hne : t.mem ≠ s.mem) : (s.ctx h).bufInt = false :=
  Bool.eq_false_of_not_eq_true fun hb => hne (hf.mem hb)

end

/-- Settles O44, command by command, from the frames. -/
theorem memoriesChangeOnlyByTheirCommands : Obligations.MemoriesChangeOnlyByTheirCommands := by
  intro i s t ht
  cases i with
  | copyBits =>
    obtain ⟨hpar, hq⟩ := execCopyBits_frame ht
    exact ⟨hpar, congrArg List.length hq, fun _ => Or.inl ⟨_, _, _, _, _, _, _, _, _, rfl⟩,
      fun g hne => absurd (congrArg Queue.ram (State.queue_congr hq g)) hne⟩
  | createOwned n =>
    obtain ⟨hpar, hn, hmem, hram⟩ := execCreateOwned_memories ht
    exact ⟨hpar, hn, fun hne => absurd hmem hne, fun g hne => Or.inl ⟨n, rfl, hram g hne⟩⟩
  | wrapBuffer => exact (execWrapBuffer_memories ht).changes
  | writeBits =>
    have hf := execWriteBits_frame ht
    refine ⟨hf.params, hf.nq, fun hne => Or.inr (Or.inr ⟨_, _, _, _, rfl, hf.mem_ne hne⟩), fun g hne => ?_⟩
    obtain ⟨rfl, hb⟩ := hf.ram_ne hne
    exact Or.inr ⟨_, _, _, rfl, hb⟩
  | readBits =>
    have hf := execReadBits_frame ht
    exact ⟨hf.params, hf.nq, fun _ => Or.inr (Or.inl ⟨_, _, _, _, rfl⟩), fun g hne => absurd (hf.ram g) hne⟩
  | hasSpace _ count => exact (query_memories (answer := fun c => c.hasSpace count) ht).changes
  | hasData _ count => exact (query_memories (answer := fun c => c.hasData count) ht).changes
  | destroy => exact (execDestroy_memories ht).changes

/-! ### A queue command's own context (R20) -/

/-- Two states a command on queue `h` cannot tell apart: the same parameters, number of contexts, `M` and queue `h` with
its RAM. -/
structure SameFor (h : Nat) (s s' : State) : Prop where
  params : s.params = s'.params
  nq : s.nq = s'.nq
  mem : s.mem = s'.mem
  queue : s.queue h = s'.queue h

section
variable {s s' t : State} {h addr size count : Nat}

theorem SameFor.ctx (hs : SameFor h s s') : s.ctx h = s'.ctx h := congrArg Queue.ctx hs.queue

theorem SameFor.qbuf (hs : SameFor h s s') : s.qbuf h = s'.qbuf h := by
  rw [State.qbuf, State.qbuf, hs.ctx]

theorem SameFor.qPresent (hs : SameFor h s s') : s.qPresent h ↔ s'.qPresent h := by
  rw [State.qPresent, State.qPresent, hs.nq]

theorem SameFor.withResp (hs : SameFor h s s') (r : Response) :
    SameFor h { s with resp := r } { s' with resp := r } :=
  ⟨hs.params, hs.nq, hs.mem, by simpa using hs.queue⟩

/-- The same change of queue `h` leaves it the same in both. -/
theorem SameFor.modifyQueue (hs : SameFor h s s') (f : Queue → Queue) :
    SameFor h (s.modifyQueue h f) (s'.modifyQueue h f) := by
  refine ⟨by simpa using hs.params, by simpa using hs.nq, by simpa using hs.mem, ?_⟩
  by_cases hp : s.qPresent h
  · rw [State.modifyQueue_queue _ _ _ _ hp, State.modifyQueue_queue _ _ _ _ (hs.qPresent.1 hp), hs.queue]
  · rw [State.modifyQueue_absent _ _ _ hp, State.modifyQueue_absent _ _ _ (mt hs.qPresent.2 hp), hs.queue]

/-- The same byte of `M` reads the same in both. -/
theorem SameFor.bufRead_ext (hs : SameFor h s s') (a i : Nat) : bufRead s (.ext a) i = bufRead s' (.ext a) i :=
  congrArg (Memory.read · _) hs.mem

/-- The same byte of the ring of `h` reads the same in both. -/
theorem SameFor.bufRead_qbuf (hs : SameFor h s s') (i : Nat) :
    bufRead s (s.qbuf h) i = bufRead s' (s.qbuf h) i := by
  cases hb : (s.ctx h).bufInt with
  | true =>
    rw [State.qbuf_of_internal hb]
    exact congrArg (fun q => q.ram.read i) hs.queue
  | false =>
    rw [State.qbuf_of_external hb]
    exact hs.bufRead_ext _ i

/-- The same byte written to `M` leaves both the same. -/
theorem SameFor.bufWrite_ext (hs : SameFor h s s') (a i : Nat) (v : Byte) :
    SameFor h (bufWrite s (.ext a) i v) (bufWrite s' (.ext a) i v) :=
  ⟨by simpa using hs.params, by simpa using hs.nq, congrArg (Memory.write · _ v) hs.mem, by simpa using hs.queue⟩

/-- The same byte written to the ring of `h` leaves both the same. -/
theorem SameFor.bufWrite_qbuf (hs : SameFor h s s') (i : Nat) (v : Byte) :
    SameFor h (bufWrite s (s.qbuf h) i v) (bufWrite s' (s.qbuf h) i v) := by
  cases hb : (s.ctx h).bufInt with
  | true =>
    rw [State.qbuf_of_internal hb]
    exact hs.modifyQueue _
  | false =>
    rw [State.qbuf_of_external hb]
    exact hs.bufWrite_ext _ i v

/-- No transfer on `h` can tell two such states apart. -/
theorem SameFor.bisim (h : Nat) : Bisim h (SameFor h) where
  params _ _ hs := hs.params
  nq _ _ hs := hs.nq
  ctx _ _ hs := hs.ctx
  ring _ _ i hs _ := hs.bufRead_qbuf i
  ext _ _ a i hs := hs.bufRead_ext a i
  writeRing _ _ i v hs _ := hs.bufWrite_qbuf i v
  writeExt _ _ a i v hs := hs.bufWrite_ext a i v
  advanceWrite _ _ _ hs := hs.modifyQueue _
  advanceRead _ _ _ hs := hs.modifyQueue _
  respond _ _ r hs := hs.withResp r

end

/-- The second state answers as `t`, and what it is left as is related to `t`. -/
def AnswersAlike (R : State → State → Prop) (t : State) (answer : Result) : Prop :=
  ∃ t', answer = .next t' ∧ t.resp = t'.resp ∧ R t t'

section
variable {R : State → State → Prop} {s s' u u' t : State} {h addr size count : Nat}

/-- Two commands that end with the same response in related states answer alike. -/
theorem AnswersAlike.of_respond {r : Response} {answer answer' : Result} (hk : answer = respond r u)
    (hk' : answer' = respond r u') (hR : R { u with resp := r } { u' with resp := r }) (ht : answer = .next t) :
    AnswersAlike R t answer' := by
  rw [respond_inj (hk.symm.trans ht), hk']
  exact ⟨_, rfl, rfl, hR⟩

/-- The checks of the transfers see only what a `Bisim` holds equal. -/
theorem Bisim.transferInvalid_iff (hb : Bisim h R) (h0 : R s s') :
    transferInvalid s h addr size count ↔ transferInvalid s' h addr size count := by
  simp only [transferInvalid, State.qPresent, hb.nq _ _ h0, hb.ctx _ _ h0]

theorem Bisim.ringOutsideRam_iff (hb : Bisim h R) (h0 : R s s') : s.ringOutsideRam h ↔ s'.ringOutsideRam h := by
  simp only [State.ringOutsideRam, hb.params _ _ h0, hb.ctx _ _ h0]

/-- `WRITE_BITS` answers alike from related states: the same check decides, or the loop keeps the relation. -/
theorem Bisim.execWriteBits_alike (hb : Bisim h R) (h0 : R s s') (ht : execWriteBits h addr size count s = .next t) :
    AnswersAlike R t (execWriteBits h addr size count s') := by
  have hctx := hb.ctx _ _ h0
  have hinv := hb.transferInvalid_iff (addr := addr) (size := size) (count := count) h0
  rcases execWriteBits_cases h addr size count s with
    ⟨hv, k⟩ | ⟨hv, hbig, k⟩ | ⟨hv, hfit, hroom, k⟩ | ⟨hv, hroom, ⟨-, k⟩ | ⟨hin, k⟩⟩
  · exact .of_respond k (execWriteBits_invalid (hinv.1 hv)) (hb.respond _ _ _ h0) ht
  · exact .of_respond k (execWriteBits_messageTooLarge (mt hinv.2 hv) (hctx ▸ hbig)) (hb.respond _ _ _ h0) ht
  · exact .of_respond k (execWriteBits_wouldBlock (mt hinv.2 hv) (hctx ▸ hfit) (by rw [← hctx]; omega))
      (hb.respond _ _ _ h0) ht
  · cases k.symm.trans ht
  · obtain ⟨v, v', hv1, hv2, hresp, hR⟩ := hb.writeLoop_alike (a := addr) (cap := size) (count := count)
      (fuel := count) (moved := 0) h0
    cases (k.trans hv1).symm.trans ht
    exact ⟨v', (execWriteBits_loop (mt hinv.2 hv) (hctx ▸ hroom) (mt (hb.ringOutsideRam_iff h0).2 hin)).trans hv2,
      hresp, hR⟩

/-- `READ_BITS` answers alike from related states: the same check decides, or the loop keeps the relation. -/
theorem Bisim.execReadBits_alike (hb : Bisim h R) (h0 : R s s') (ht : execReadBits h addr size count s = .next t) :
    AnswersAlike R t (execReadBits h addr size count s') := by
  have hctx := hb.ctx _ _ h0
  have hinv := hb.transferInvalid_iff (addr := addr) (size := size) (count := count) h0
  rcases execReadBits_cases h addr size count s with
    ⟨hv, k⟩ | ⟨hv, hbig, k⟩ | ⟨hv, hfit, hdata, k⟩ | ⟨hv, hfit, hdata, ⟨-, k⟩ | ⟨hin, k⟩⟩
  · exact .of_respond k (execReadBits_invalid (hinv.1 hv)) (hb.respond _ _ _ h0) ht
  · exact .of_respond k (execReadBits_messageTooLarge (mt hinv.2 hv) (hctx ▸ hbig)) (hb.respond _ _ _ h0) ht
  · exact .of_respond k (execReadBits_wouldBlock (mt hinv.2 hv) (hctx ▸ hfit) (hctx ▸ hdata)) (hb.respond _ _ _ h0) ht
  · cases k.symm.trans ht
  · obtain ⟨v, v', hv1, hv2, hresp, hR⟩ := hb.readLoop_alike (a := addr) (cap := size) (count := count)
      (fuel := count) (moved := 0) h0
    cases (k.trans hv1).symm.trans ht
    exact ⟨v', (execReadBits_loop (mt hinv.2 hv) (hctx ▸ hfit) (hctx ▸ hdata)
      (mt (hb.ringOutsideRam_iff h0).2 hin)).trans hv2, hresp, hR⟩

/-- A query answers alike from states that are the same for its queue: it reads the context only. -/
theorem SameFor.query_alike {answer : Ctx → Bool} (hs : SameFor h s s') (ht : query h answer s = .next t) :
    AnswersAlike (SameFor h) t (query h answer s') := by
  rcases query_cases h answer s with ⟨hd, k⟩ | ⟨hp, hl, k⟩
  · rw [hs.qPresent, hs.ctx] at hd
    exact .of_respond k (query_invalid hd) (hs.withResp _) ht
  · rw [hs.qPresent] at hp
    rw [hs.ctx] at hl k
    exact .of_respond k (query_live hp hl) (hs.withResp _) ht

/-- `DESTROY` answers alike from states that are the same for its queue. -/
theorem SameFor.execDestroy_alike (hs : SameFor h s s') (ht : execDestroy h s = .next t) :
    AnswersAlike (SameFor h) t (execDestroy h s') := by
  rcases execDestroy_cases h s with ⟨hd, k⟩ | ⟨hp, hl, k⟩
  · rw [hs.qPresent, hs.ctx] at hd
    exact .of_respond k (execDestroy_invalid hd) (hs.withResp _) ht
  · rw [hs.qPresent] at hp
    rw [hs.ctx] at hl k
    exact .of_respond k (execDestroy_live hp hl) ((hs.modifyQueue _).withResp _) ht

/-- A command on queue `h` that answers alike answers with the same response, `M` and queue `h`. -/
theorem AnswersAlike.same {answer : Result} (ha : AnswersAlike (SameFor h) t answer) :
    ∃ t', answer = .next t' ∧ t'.resp = t.resp ∧ t'.mem = t.mem ∧ t'.queue h = t.queue h := by
  obtain ⟨t', hk, hresp, hs⟩ := ha
  exact ⟨t', hk, hresp.symm, hs.mem.symm, hs.queue.symm⟩

end

/-- Settles O46: `SameFor` is a relation no queue command can tell apart, for the transfers a `Bisim`. -/
theorem queueCommandsDependOnTheirContextOnly : Obligations.QueueCommandsDependOnTheirContextOnly := by
  intro qh addr size count i s s' hi hpar hn hmem hq t ht
  have hs : SameFor qh s s' := ⟨hpar, hn, hmem, hq⟩
  simp only [List.mem_cons, List.not_mem_nil, or_false] at hi
  rcases hi with rfl | rfl | rfl | rfl | rfl
  · exact ((SameFor.bisim qh).execWriteBits_alike hs ht).same
  · exact ((SameFor.bisim qh).execReadBits_alike hs ht).same
  · exact (hs.query_alike (answer := fun c => c.hasSpace count) ht).same
  · exact (hs.query_alike (answer := fun c => c.hasData count) ht).same
  · exact (hs.execDestroy_alike ht).same

end Sys2Proof.Machine

end

/-! ## Memory: what a copy and the host change, and where a step could stop (20_memory R51, R52, R57, R68, R69) -/

section

namespace Sys2Proof.Machine

/-! ### The bytes a copy leaves -/

section
variable {D S : Buf} {d p m : Nat} {s : State} {l : Loc}

/-- A copy changes no byte that holds none of its destination positions, whatever overlaps (R119). -/
theorem copyMove_readLoc_ne (hne : ∀ j < m, l ≠ D.loc ((d + j) / 8)) :
    (copyMove D d S p m s).readLoc l = s.readLoc l :=
  State.readLoc_ext fun b hb => copyRuns_locBit_ne l b hb fun j hj hat => hne j hj hat.1

end

/-- Settles O15: an error changes the response only and counts no bit; a transfer moves the bits it counts, and
`copyMove` leaves every byte outside their positions. -/
theorem copyBitsChangesOnlyCountedDestinationBytes : Obligations.CopyBitsChangesOnlyCountedDestinationBytes := by
  intro daddr dbyte dbit dcap saddr sbyte sbit scap count s
  rcases execCopyBits_cases daddr dbyte dbit dcap saddr sbyte sbit scap count s with ⟨-, k⟩ | ⟨-, -, k⟩ | ⟨-, -, k⟩
  · exact ⟨_, k, rfl, rfl, rfl, fun _ _ => rfl⟩
  · exact ⟨_, k, rfl, rfl, rfl, fun _ _ => rfl⟩
  · exact ⟨_, k, copyMove_params .., copyMove_ext_queues .., copyMove_host .., fun a hne =>
      copyMove_readLoc_ne (l := .mem a) hne⟩

/-! ### No step stops -/

section
variable {s : State}

/-- Every command answers a next state from a sound state. Each way a command can end is a response, but for the fault of
the two transfers on a queue, which a sound state rules out (R52, R202). -/
theorem State.Inv.exec_exists_next (hi : s.Inv) (i : Instr) : ∃ t, exec i s = .next t := by
  cases i with
  | copyBits daddr dbyte dbit dcap saddr sbyte sbit scap count =>
    obtain ⟨-, k⟩ | ⟨-, -, k⟩ | ⟨-, -, k⟩ := execCopyBits_cases daddr dbyte dbit dcap saddr sbyte sbit scap count s <;>
      exact ⟨_, k⟩
  | createOwned dcap =>
    obtain ⟨-, k⟩ | ⟨-, -, k⟩ | ⟨-, -, -, k⟩ := execCreateOwned_cases dcap s <;> exact ⟨_, k⟩
  | wrapBuffer daddr dcap own =>
    obtain ⟨-, k⟩ | ⟨-, -, k⟩ | ⟨-, -, k⟩ := execWrapBuffer_cases daddr dcap own s <;> exact ⟨_, k⟩
  | writeBits qh saddr scap count =>
    obtain ⟨_, -, k⟩ | ⟨-, -, -, -, -, -, k⟩ := hi.execWriteBits_cases qh saddr scap count <;> exact ⟨_, k⟩
  | readBits qh daddr dcap count =>
    obtain ⟨_, -, k⟩ | ⟨-, -, -, -, -, -, k⟩ := hi.execReadBits_cases qh daddr dcap count <;> exact ⟨_, k⟩
  | hasSpace qh count =>
    obtain ⟨-, k⟩ | ⟨-, -, k⟩ := query_cases qh (fun c => c.hasSpace count) s <;> exact ⟨_, k⟩
  | hasData qh count =>
    obtain ⟨-, k⟩ | ⟨-, -, k⟩ := query_cases qh (fun c => c.hasData count) s <;> exact ⟨_, k⟩
  | destroy qh =>
    obtain ⟨-, k⟩ | ⟨-, -, k⟩ := execDestroy_cases qh s <;> exact ⟨_, k⟩

/-- Every descriptor, legal or not, is answered from a sound state (R90, R202). -/
theorem State.Inv.runDescriptor_exists_next (hi : s.Inv) (d : Descriptor) : ∃ t, runDescriptor d s = .next t := by
  rw [runDescriptor]
  cases decode d with
  | ok i => exact hi.exec_exists_next i
  | error e => exact ⟨_, rfl⟩

end

/-- Settles O39, by the kinds of the host's next action; only a descriptor could stop, and from a sound state none
does. -/
theorem stepNeverStops : Obligations.StepNeverStops := by
  intro s hi
  cases hhost : s.host with
  | nil => exact ⟨_, step_of_nil hhost⟩
  | cons e rest =>
    cases e with
    | command d =>
      rw [step_of_command hhost]
      exact (hi.withHost rest).runDescriptor_exists_next d
    | memWrite a v => exact ⟨_, step_of_memWrite hhost⟩
    | reset => exact ⟨_, step_of_reset hhost⟩

/-! ### The host's write -/

/-- What `M` reads after a write of the host (R69, R12). -/
theorem hostWrite_read (a b : Nat) (v : Byte) (s : State) :
    (hostWrite a v s).mem.read b = if b = a % 2 ^ AW then v else s.mem.read b := by
  simp only [eq_comm (a := b)]
  exact Memory.read_write s.mem (a % 2 ^ AW) b v

/-- Settles O10: the step is `hostWrite`, which writes `M` at one address and no other field. -/
theorem hostWriteChangesOneByteOfMemory : Obligations.HostWriteChangesOneByteOfMemory := by
  constructor
  · intro a v rest s hhost
    exact ⟨_, step_of_memWrite hhost, State.writeLoc_host .., State.writeLoc_params .., rfl, State.writeLoc_resp ..,
      fun b => hostWrite_read a b v _⟩
  · exact fun s hhost => step_of_nil hhost

/-! ### The one fault -/

section
variable {s : State} {h addr size count : Nat}

/-- A write that passes every check on a ring that its RAM cannot hold (R52, log 7). -/
theorem execWriteBits_fault (hv : ¬ transferInvalid s h addr size count)
    (hroom : (s.ctx h).validBits + count ≤ (s.ctx h).cap) (hout : s.ringOutsideRam h) :
    execWriteBits h addr size count s = .fault .ringOutsideRam := by
  rcases execWriteBits_cases h addr size count s with
    ⟨hi, -⟩ | ⟨-, hbig, -⟩ | ⟨-, -, hfull, -⟩ | ⟨-, -, ⟨-, k⟩ | ⟨hin, -⟩⟩
  · exact absurd hi hv
  · omega
  · omega
  · exact k
  · exact absurd hout hin

/-- A read that passes every check on a ring that its RAM cannot hold (R52, log 7). -/
theorem execReadBits_fault (hv : ¬ transferInvalid s h addr size count) (hfit : count ≤ (s.ctx h).cap)
    (hdata : count ≤ (s.ctx h).validBits) (hout : s.ringOutsideRam h) :
    execReadBits h addr size count s = .fault .ringOutsideRam := by
  rcases execReadBits_cases h addr size count s with
    ⟨hi, -⟩ | ⟨-, hbig, -⟩ | ⟨-, -, hempty, -⟩ | ⟨-, -, -, ⟨-, k⟩ | ⟨hin, -⟩⟩
  · exact absurd hi hv
  · omega
  · omega
  · exact k
  · exact absurd hout hin

end

/-- Settles O24: the arguments pass `transferInvalid`, the count passes the checks of the fill level, and the test of
the ring against its RAM is the last. -/
theorem ringOutsideItsRamFaults : Obligations.RingOutsideItsRamFaults := by
  intro qh addr size count s hp ha h1 hcap hl hfit hout
  have hv := not_transferInvalid hp ha h1 hcap hl
  exact ⟨fun hroom => execWriteBits_fault hv hroom hout, fun hdata => execReadBits_fault hv hfit hdata hout⟩

end Sys2Proof.Machine

end

/-! ## Encoding: the descriptor of a command and its fields (30_encoding R81 to R87, R90) -/

section

namespace Sys2Proof

/-! ### The fields of a command's descriptor -/

/-- The number of bits of a field (R81, R82). -/
def Field.width : Field → Nat
  | .op | .qh => 8
  | .dbit | .sbit => 4
  | .own => 1
  | .count | .daddr | .dbyte | .dcap | .saddr | .sbyte | .scap => 32

/-- What a command's descriptor holds in each field: the operand the field carries, and 0 in a field the command does
not use (R84, R87). The encoder writes these values (`encode_get`) and the decoder reads them (`decode_eq_ok_iff`). -/
def Instr.fieldValue : Instr → Field → Nat
  | .copyBits daddr dbyte dbit dcap saddr sbyte sbit scap count => fun
    | .op => 1
    | .daddr => daddr
    | .dbyte => dbyte
    | .dbit => dbit
    | .dcap => dcap
    | .saddr => saddr
    | .sbyte => sbyte
    | .sbit => sbit
    | .scap => scap
    | .count => count
    | .qh | .own => 0
  | .createOwned dcap => fun
    | .op => 2
    | .dcap => dcap
    | _ => 0
  | .wrapBuffer daddr dcap own => fun
    | .op => 3
    | .daddr => daddr
    | .dcap => dcap
    | .own => own.toNat
    | _ => 0
  | .writeBits qh saddr scap count => fun
    | .op => 4
    | .qh => qh
    | .saddr => saddr
    | .scap => scap
    | .count => count
    | _ => 0
  | .readBits qh daddr dcap count => fun
    | .op => 5
    | .qh => qh
    | .daddr => daddr
    | .dcap => dcap
    | .count => count
    | _ => 0
  | .hasSpace qh count => fun
    | .op => 6
    | .qh => qh
    | .count => count
    | _ => 0
  | .hasData qh count => fun
    | .op => 7
    | .qh => qh
    | .count => count
    | _ => 0
  | .destroy qh => fun
    | .op => 8
    | .qh => qh
    | _ => 0

@[simp] theorem Instr.fieldValue_op (i : Instr) : i.fieldValue .op = i.opcode := by cases i <;> rfl

/-- The fields a command does not use hold 0 (R84, R87). -/
theorem Instr.fieldValue_unused {i : Instr} {f : Field} (hop : f ≠ .op) (hf : f ∉ fieldsUsed i.opcode) :
    i.fieldValue f = 0 := by
  cases i <;> cases f <;> simp_all [fieldsUsed, Instr.opcode, Instr.fieldValue]

/-- Each operand of a well-formed command fits its field (R81, R82). -/
theorem Instr.fieldValue_lt {i : Instr} (hw : i.wellFormed = true) (f : Field) : i.fieldValue f < 2 ^ f.width := by
  cases i <;>
    simp only [Instr.wellFormed, fits, AW, SW, CW, HW, OFFW, Bool.and_eq_true, decide_eq_true_eq] at hw <;>
    cases f <;> simp only [Instr.fieldValue, Field.width]
  case wrapBuffer.own own => exact own.toNat_lt
  all_goals omega

/-- The descriptor with given values in its fields, the reserved bits 0 (R81, R82). -/
def Descriptor.ofFields (v : Field → Nat) : Descriptor :=
  packWords (packHeader (v .op) (v .qh) (v .dbit) (v .sbit) (v .own)) (v .count) (v .daddr) (v .dbyte) (v .dcap)
    (v .saddr) (v .sbyte) (v .scap)

theorem encode_eq_ofFields (i : Instr) : encode i = Descriptor.ofFields i.fieldValue := by cases i <;> rfl

section
variable {v : Field → Nat} (hv : ∀ f, v f < 2 ^ f.width)
include hv

/-- Values that fit are read back, and the reserved bits are 0 (R81, R82, R87). -/
theorem Descriptor.ofFields_get (f : Field) : (Descriptor.ofFields v).get f = v f := by
  obtain ⟨hop, hqh, hdbit, hsbit, hown, -⟩ := packHeader_bits (hv .op) (hv .qh) (hv .dbit) (hv .sbit) (hv .own)
  cases f with
  | op => exact hop
  | qh => exact hqh
  | dbit => exact hdbit
  | sbit => exact hsbit
  | own => exact hown
  | count | daddr | dbyte | dcap | saddr | sbyte | scap => exact Nat.mod_eq_of_lt (hv _)

theorem Descriptor.ofFields_reserved : wordBits (Descriptor.ofFields v).w0 25 7 = 0 := by
  obtain ⟨-, -, -, -, -, hreserved⟩ := packHeader_bits (hv .op) (hv .qh) (hv .dbit) (hv .sbit) (hv .own)
  exact hreserved

end

/-- The encoder writes each operand of a well-formed command in its field, and 0 in the others (R84, R87). -/
theorem encode_get {i : Instr} (hw : i.wellFormed = true) (f : Field) : (encode i).get f = i.fieldValue f := by
  rw [encode_eq_ofFields, Descriptor.ofFields_get (Instr.fieldValue_lt hw)]

/-! ### What the decoder reads -/

/-- `OWN` is one bit, so the decoder's truth value loses nothing of it (R81, R86). -/
theorem Descriptor.get_own_beq_toNat (d : Descriptor) : (d.get .own == 1).toNat = d.get .own := by
  obtain ⟨-, -, -, -, hown, -⟩ := d.get_lt
  interval_cases d.get .own <;> rfl

/-- The decoder answers a command exactly when the descriptor has its opcode and, in the fields the command uses, its
operands; it looks at nothing else (R84 to R87). -/
theorem decode_eq_ok_iff (d : Descriptor) (i : Instr) :
    decode d = .ok i ↔ d.get .op = i.opcode ∧ ∀ f ∈ fieldsUsed i.opcode, d.get f = i.fieldValue f := by
  constructor
  · intro hd
    rcases decode_cases d with ⟨hop, h⟩ | ⟨hop, h⟩ | ⟨hop, h⟩ | ⟨hop, h⟩ | ⟨hop, h⟩ | ⟨hop, h⟩ | ⟨hop, h⟩ | ⟨hop, h⟩ |
      ⟨-, h⟩ <;> cases h.symm.trans hd
    all_goals
      refine ⟨hop, ?_⟩
      simp [fieldsUsed, Instr.opcode, Instr.fieldValue, Descriptor.get_own_beq_toNat]
  · rintro ⟨hop, hf⟩
    cases i <;> simp_all [decode, fieldsUsed, Instr.opcode, Instr.fieldValue]

/-- The decoder rejects exactly the descriptors whose `OP` is 0 or at least 9, and names that `OP` (R85, R90). -/
theorem decode_eq_error_iff (d : Descriptor) (e : Reject) :
    decode d = .error e ↔ (d.get .op = 0 ∨ 9 ≤ d.get .op) ∧ e = .illegalOp (d.get .op) := by
  constructor
  · intro hd
    rcases decode_cases d with ⟨-, h⟩ | ⟨-, h⟩ | ⟨-, h⟩ | ⟨-, h⟩ | ⟨-, h⟩ | ⟨-, h⟩ | ⟨-, h⟩ | ⟨-, h⟩ | ⟨hop, h⟩ <;>
      cases h.symm.trans hd
    exact ⟨hop, rfl⟩
  · rintro ⟨hop, rfl⟩
    unfold decode
    split
    case h_9 => rfl
    all_goals omega

/-- Every opcode is one of 1 to 8 (R85). -/
theorem Instr.opcode_range (i : Instr) : 1 ≤ i.opcode ∧ i.opcode ≤ 8 := by
  cases i <;> simp [Instr.opcode]

/-- Exactly `OP` 1 to 8 names a command (R85, R90). -/
theorem decode_isOk_iff (d : Descriptor) : (∃ i, decode d = .ok i) ↔ 1 ≤ d.get .op ∧ d.get .op ≤ 8 := by
  constructor
  · rintro ⟨i, hd⟩
    rw [((decode_eq_ok_iff d i).1 hd).1]
    exact i.opcode_range
  · rintro ⟨h1, h8⟩
    cases hd : decode d with
    | ok i => exact ⟨i, rfl⟩
    | error e =>
      have := ((decode_eq_error_iff d e).1 hd).1
      omega

/-- Descriptors that agree on `OP` and on the fields that `OP` uses decode alike (R87). -/
theorem decode_congr {d d' : Descriptor} (hop : d.get .op = d'.get .op)
    (hf : ∀ f ∈ fieldsUsed (d.get .op), d.get f = d'.get f) : decode d = decode d' := by
  cases hd : decode d with
  | ok i =>
    obtain ⟨hi, hv⟩ := (decode_eq_ok_iff d i).1 hd
    exact ((decode_eq_ok_iff d' i).2 ⟨hop ▸ hi, fun f h => (hf f (hi ▸ h)).symm.trans (hv f h)⟩).symm
  | error e =>
    rw [decode_eq_error_iff, hop] at hd
    exact ((decode_eq_error_iff d' e).2 hd).symm

/-- The encoder's descriptor decodes to the command (R81 to R86). -/
theorem decode_encode {i : Instr} (hw : i.wellFormed = true) : decode (encode i) = .ok i :=
  (decode_eq_ok_iff _ i).2 ⟨by rw [encode_get hw, Instr.fieldValue_op], fun f _ => encode_get hw f⟩

/-! ### The statements about encoder and decoder -/

/-- Settles O3: the decoder reads the fields the encoder wrote (`decode_encode`), and a descriptor's bytes are decoded
as the descriptor (`decodeBytes_bytes`). -/
theorem encodedCommandDecodesToItself : Obligations.EncodedCommandDecodesToItself := by
  intro i hw
  exact ⟨decode_encode hw, (decodeBytes_bytes _).trans (decode_encode hw)⟩

/-- Settles O4: the operands of the decoded command are the descriptor's fields (`decode_eq_ok_iff`), they fit, and the
encoder writes them back in the same fields (`encode_get`). -/
theorem decodedCommandCarriesTheUsedFields : Obligations.DecodedCommandCarriesTheUsedFields := by
  intro d i hd
  obtain ⟨hop, hf⟩ := (decode_eq_ok_iff d i).1 hd
  have hw := decode_wellFormed hd
  refine ⟨hw, hop.symm, by rw [encode_get hw, Instr.fieldValue_op, hop], fun f h => ?_⟩
  rw [encode_get hw, hf f (hop ▸ h)]

/-- Settles O5: the branches of the decoder, one by one. -/
theorem opcodeSelectsTheCommandAndItsOperands : Obligations.OpcodeSelectsTheCommandAndItsOperands := by
  intro d
  refine ⟨?_, ?_, ?_, ?_, ?_, ?_, ?_, ?_, fun hop => (decode_eq_error_iff d _).2 ⟨hop, rfl⟩⟩ <;>
    intro hop <;> simp [decode, hop, beq_eq_decide]

/-- A worked encoding: the words are the encoder's, so they decode to the command. -/
theorem decode_and_encode_of_encode_eq {i : Instr} {d : Descriptor} (hw : i.wellFormed = true) (he : encode i = d) :
    decode d = .ok i ∧ encode i = d :=
  ⟨he ▸ decode_encode hw, he⟩

/-- Settles O1: the encoder's words are the spec's, which by `decode_encode` decode to the commands; then the words of
four responses. -/
theorem workedDescriptorsAndResponses : Obligations.WorkedDescriptorsAndResponses :=
  ⟨decode_and_encode_of_encode_eq (by decide) (by decide), decode_and_encode_of_encode_eq (by decide) (by decide),
    decode_and_encode_of_encode_eq (by decide) (by decide), by decide⟩

end Sys2Proof

namespace Sys2Proof.Machine

/-! ### What the engine does with a descriptor (00_scope R6) -/

/-- The engine's answer to a descriptor depends on what it decodes to only (R6, R87). -/
theorem runDescriptor_congr {d d' : Descriptor} (hd : decode d = decode d') (s : State) :
    runDescriptor d s = runDescriptor d' s := by
  rw [runDescriptor, runDescriptor, hd]

/-- Settles O6: `decode_congr` for what is ignored; the encoder writes 0 in every field a command does not use. -/
theorem unusedFieldsAreIgnored : Obligations.UnusedFieldsAreIgnored := by
  refine ⟨fun d d' hop hf => ?_, fun i hw => ⟨fun f hne hf => ?_, ?_⟩⟩
  · have hd := decode_congr hop hf
    exact ⟨hd, runDescriptor_congr hd⟩
  · rw [encode_get hw, Instr.fieldValue_unused hne hf]
  · rw [encode_eq_ofFields]
    exact Descriptor.ofFields_reserved (Instr.fieldValue_lt hw)

/-- A descriptor that names no command is answered and changes the response alone (R90). -/
theorem runDescriptor_of_illegal {d : Descriptor} (hop : d.get .op = 0 ∨ 9 ≤ d.get .op) (s : State) :
    runDescriptor d s = .next { s with resp := { status := .illegalCommand } } := by
  rw [runDescriptor, (decode_eq_error_iff d _).2 ⟨hop, rfl⟩]
  rfl

/-- Settles O7: which descriptors decode (`decode_isOk_iff`), and the step on the others, of which the all-zero
descriptor is one. -/
theorem illegalOpcodeIsAnsweredAndChangesNothing : Obligations.IllegalOpcodeIsAnsweredAndChangesNothing :=
  ⟨decode_isOk_iff,
    fun _ _ _ hhost hop => (step_of_command hhost).trans (runDescriptor_of_illegal hop _),
    fun _ _ hhost => (step_of_command hhost).trans (runDescriptor_of_illegal (.inl (by decide)) _)⟩

/-- Settles O9: the placed word stands first on the command port, and the table's reading of it is the decoder's
(`decodeTableWord_eq`). -/
theorem tableWordIsRunByTheNextStep : Obligations.TableWordIsRunByTheNextStep := by
  intro nbits w i s hd
  calc step (s.withFetchWord nbits w) = runDescriptor (Descriptor.ofNat (w % 2 ^ nbits)) s := step_of_command rfl
    _ = exec i s := runDescriptor_of_decode_ok ((decodeTableWord_eq nbits w i).1 hd) s

/-! ### The response words (30_encoding R91, R92) -/

/-- `STATUS` fits its field (R92). -/
theorem Status.code_lt (k : Status) : k.code < 2 ^ 8 := by
  cases k <;> decide

/-- Where the fields of a response stand in `R0` (R91). -/
theorem Response.r0_bits {r : Response} (hqh : r.qh < 2 ^ 8) :
    wordBits r.r0 0 8 = r.status.code ∧ wordBits r.r0 8 8 = r.qh ∧ wordBits r.r0 16 1 = r.flag.toNat ∧
      wordBits r.r0 17 1 = r.rel.toNat ∧ wordBits r.r0 18 14 = 0 := by
  have hcode := r.status.code_lt
  have hflag := r.flag.toNat_lt
  have hrel := r.rel.toNat_lt
  simp only [wordBits, Response.r0, BitVec.toNat_ofNat]
  omega

/-- Settles O2: the numbers of R92, the fields of `R0` (`Response.r0_bits`), and `R1`, which is `COUNT`. -/
theorem responseFieldsStandInTheirBits : Obligations.ResponseFieldsStandInTheirBits := by
  refine ⟨by decide, fun r ⟨hqh, hcount⟩ => ?_⟩
  obtain ⟨hcode, hq, hflag, hrel, hzero⟩ := Response.r0_bits hqh
  exact ⟨hcode, hq, hflag, hrel, hzero, Nat.mod_eq_of_lt hcount⟩

end Sys2Proof.Machine

end

/-! ## Transfer: the primitive and `COPY_BITS` (40_transfer R113 to R127) -/

section

namespace Sys2Proof.Machine

/-! ### How the primitive ends -/

section
variable {D S : Buf} {dbyte dbit dcap sbyte sbit scap n m : Nat} {k : Status}

/-- On an error of the plan nothing is touched (R113, R116). -/
theorem copyBits_of_err (hplan : copyPlan dbyte dbit dcap sbyte sbit scap n = .err k) (s : State) :
    copyBits D dbyte dbit dcap S sbyte sbit scap n s = (.err k, s) := by
  rw [copyBits, hplan]

/-- The primitive moves the planned bits (R120). -/
theorem copyBits_of_transferred (hplan : copyPlan dbyte dbit dcap sbyte sbit scap n = .transferred m) (s : State) :
    copyBits D dbyte dbit dcap S sbyte sbit scap n s =
      (.transferred m, copyMove D (linear dbyte dbit) S (linear sbyte sbit) m s) := by
  rw [copyBits, hplan]

end

theorem copyMove_zero (D S : Buf) (d p : Nat) (s : State) : copyMove D d S p 0 s = s := rfl

/-- Settles O12: the three results of `copyPlan`, each by the condition that gives it. -/
theorem primitiveOutcomeFollowsItsTests : Obligations.PrimitiveOutcomeFollowsItsTests := by
  intro D dbyte dbit dcap S sbyte sbit scap n s
  refine ⟨fun hbad => copyBits_of_err (copyPlan_invalid.2 hbad) s, fun hgood =>
    ⟨fun hroom => copyBits_of_err (copyPlan_insufficient.2 ⟨hgood, hroom⟩) s, fun hroom => ?_⟩⟩
  have hplan : copyPlan dbyte dbit dcap sbyte sbit scap n =
      .transferred (min n (scap * 8 - linear sbyte sbit)) := by
    rw [copyPlan_transferred, linear]
    omega
  refine ⟨_, _, ?_, copyBits_of_transferred hplan s, fun hnone => ?_⟩
  · rw [linear]
    omega
  · rw [hnone, copyMove_zero]

/-! ### How `COPY_BITS` ends -/

section
variable {daddr dbyte dbit dcap saddr sbyte sbit scap count : Nat}

/-- `COPY_BITS` after all its tests: the bits the source can supply are moved and counted (R117, R127). -/
theorem execCopyBits_moves (hv : ¬ copyInvalid daddr dbyte dbit dcap saddr sbyte sbit scap count)
    (hroom : linear dbyte dbit + count ≤ dcap * 8) (s : State) :
    execCopyBits daddr dbyte dbit dcap saddr sbyte sbit scap count s =
      respond { count := min count (scap * 8 - linear sbyte sbit) }
        (copyMove (.ext daddr) (linear dbyte dbit) (.ext saddr) (linear sbyte sbit)
          (min count (scap * 8 - linear sbyte sbit)) s) := by
  rcases execCopyBits_cases daddr dbyte dbit dcap saddr sbyte sbit scap count s with
    ⟨hi, -⟩ | ⟨-, hfull, -⟩ | ⟨-, -, k⟩
  · exact absurd hi hv
  · rw [linear] at hroom
    omega
  · exact k

/-- `COPY_BITS` between two ranges that lie in their buffers: no bit is clipped (R117). -/
theorem execCopyBits_unclipped (hd : daddr ≠ 0) (hs : saddr ≠ 0) (hcount : 1 ≤ count) (hdbit : dbit ≤ 7)
    (hsbit : sbit ≤ 7) (hdst : linear dbyte dbit + count ≤ dcap * 8) (hsrc : linear sbyte sbit + count ≤ scap * 8)
    (s : State) :
    execCopyBits daddr dbyte dbit dcap saddr sbyte sbit scap count s =
      respond { count := count }
        (copyMove (.ext daddr) (linear dbyte dbit) (.ext saddr) (linear sbyte sbit) count s) := by
  have hv : ¬ copyInvalid daddr dbyte dbit dcap saddr sbyte sbit scap count := by
    simp only [linear, copyInvalid] at *
    omega
  rw [execCopyBits_moves hv hdst s, Nat.min_eq_left (by omega)]

end

/-- Settles O13: the first two ways `COPY_BITS` can end; each excludes the conditions of the others. -/
theorem copyBitsErrorsAndTheirOrder : Obligations.CopyBitsErrorsAndTheirOrder := by
  intro daddr dbyte dbit dcap saddr sbyte sbit scap count s
  rcases execCopyBits_cases daddr dbyte dbit dcap saddr sbyte sbit scap count s with
    ⟨hi, k⟩ | ⟨hv, -, k⟩ | ⟨hv, hroom, -⟩
  · exact ⟨fun _ => k, fun hv => absurd hi hv⟩
  · exact ⟨fun hi => absurd hi hv, fun _ _ => k⟩
  · rw [linear] at hroom
    exact ⟨fun hi => absurd hi hv, fun _ hfull => by omega⟩

@[simp] theorem State.withResp_bitAt (s : State) (r : Response) (B : Buf) (q : Nat) :
    bitAt { s with resp := r } B q = bitAt s B q := by
  rw [bitAt_eq, bitAt_eq, State.locBit, State.withResp_readLoc]

/-- Settles O14: `COPY_BITS` is `copyMove` on the clipped count, whose bits, frame and monotonicity are
`copyRuns_bitAt`, `copyRuns_locBit_ne` and `copyRuns_locBit_mono`. -/
theorem copyBitsMovesTheClippedBits : Obligations.CopyBitsMovesTheClippedBits := by
  intro daddr dbyte dbit dcap saddr sbyte sbit scap count m s hd hs hcount hdbyte hsbyte hdbit hsbit hsrc hroom hcap hm
  have hv : ¬ copyInvalid daddr dbyte dbit dcap saddr sbyte sbit scap count := by
    rw [copyInvalid]
    omega
  have hdst : linear dbyte dbit + count ≤ dcap * 8 := by
    rw [linear]
    omega
  obtain rfl : m = min count (scap * 8 - linear sbyte sbit) := by
    rw [linear]
    omega
  refine ⟨_, execCopyBits_moves hv hdst s, rfl, copyMove_params .., copyMove_ext_queues .., copyMove_host ..,
    fun hno j hj => ?_, fun l b hb => ?_⟩
  · rw [State.withResp_bitAt]
    exact copyRuns_bitAt (Nat.le_refl _) trivial (by simp only [AW, SW] at *; omega) hno j hj
  · simp only [State.locBit, State.withResp_readLoc]
    exact ⟨copyRuns_locBit_mono l b hb, copyRuns_locBit_ne l b hb⟩

/-! ### The copy run by run -/

/-- The first run of a copy is one run of its own (R120). -/
theorem runLength_runLength (d p m : Nat) : runLength d p (runLength d p m) = runLength d p m := by
  simp only [runLength]
  omega

/-- A copy is the copy of its first run's bits, then the copy of the rest (R120, R126). -/
theorem copyMove_first_run (D S : Buf) (d p m : Nat) (s : State) (hm : 0 < m) :
    copyMove D d S p m s =
      copyMove D (d + runLength d p m) S (p + runLength d p m) (m - runLength d p m)
        (copyMove D d S p (runLength d p m) s) := by
  rw [copyMove_split D S d p m s hm, copyMove_split D S d p (runLength d p m) s (runLength_pos d p m hm),
    runLength_runLength, Nat.sub_self, copyMove_zero]

/-- A byte of a buffer does not depend on the response. -/
theorem State.withResp_bufRead (s : State) (r : Response) (B : Buf) (i : Nat) :
    bufRead { s with resp := r } B i = bufRead s B i :=
  State.withResp_readLoc ..

/-- A copy in `M` neither reads nor changes the response. -/
theorem copyMove_withResp (a b d p m : Nat) (s : State) (r : Response) :
    copyMove (.ext a) d (.ext b) p m { s with resp := r } =
      { copyMove (.ext a) d (.ext b) p m s with resp := r } := by
  refine copyMove_bisim (R := fun t t' => t' = { t with resp := r }) rfl ?_ ?_ ?_
  · rintro t _ q rfl - -
    exact (State.withResp_bufRead ..).symm
  · rintro t _ q rfl - -
    exact (State.withResp_bufRead ..).symm
  · rintro t _ q v rfl - -
    rfl

/-- The position `k` bits after `(byte, bit)`, as byte and bit again (R11). -/
theorem linear_add (byte bit k : Nat) :
    linear ((byte * 8 + bit + k) / 8) ((bit + k) % 8) = linear byte bit + k := by
  simp only [linear]
  omega

/-- Settles O16: the three commands are unclipped copies, and `copyMove_first_run` takes the first run off the whole
one; the response of the first command is not read by the second. -/
theorem copyBitsIsSequentialRunByRun : Obligations.CopyBitsIsSequentialRunByRun := by
  intro daddr dbyte dbit dcap saddr sbyte sbit scap count run s hd hs hdbit hsbit hdst hsrc hrun hlt
  obtain rfl : run = runLength (linear dbyte dbit) (linear sbyte sbit) count := by
    simp only [runLength, linear]
    omega
  have hsplit := copyMove_first_run (.ext daddr) (.ext saddr) (linear dbyte dbit) (linear sbyte sbit) count s (by omega)
  have hpos := runLength_pos (linear dbyte dbit) (linear sbyte sbit) count (by omega)
  generalize runLength (linear dbyte dbit) (linear sbyte sbit) count = run at *
  have hdadv := linear_add dbyte dbit run
  have hsadv := linear_add sbyte sbit run
  have hd0 : linear dbyte dbit = dbyte * 8 + dbit := rfl
  have hs0 : linear sbyte sbit = sbyte * 8 + sbit := rfl
  have hrest : execCopyBits daddr ((dbyte * 8 + dbit + run) / 8) ((dbit + run) % 8) dcap
      saddr ((sbyte * 8 + sbit + run) / 8) ((sbit + run) % 8) scap (count - run)
      ((copyMove (.ext daddr) (linear dbyte dbit) (.ext saddr) (linear sbyte sbit) run s).withResp { count := run }) =
      respond { count := count - run }
        (copyMove (.ext daddr) (linear dbyte dbit) (.ext saddr) (linear sbyte sbit) count s) := by
    rw [execCopyBits_unclipped hd hs (by omega) (by omega) (by omega) (by omega) (by omega), hdadv, hsadv,
      State.withResp, copyMove_withResp _ _ _ _ _ (copyMove _ _ _ _ run s), ← hsplit, respond, respond]
  exact ⟨_, _, execCopyBits_unclipped hd hs hpos hdbit hsbit (by omega) (by omega) s, hrest,
    execCopyBits_unclipped hd hs (by omega) hdbit hsbit hdst hsrc s⟩

/-! ### The bounds of the runs -/

/-- The number of runs (R125): each ends at a byte boundary of one of the two sides, or at the end of the copy. -/
theorem copyRuns_length_le (fuel dst src rem : Nat) :
    (copyRuns fuel dst src rem).length ≤ (dst % 8 + rem) / 8 + (src % 8 + rem) / 8 + 1 := by
  induction fuel generalizing dst src rem with
  | zero => exact Nat.zero_le _
  | succ fuel ih =>
    rcases Nat.eq_zero_or_pos rem with rfl | hrem
    · rw [copyRuns_zero]
      exact Nat.zero_le _
    · rw [copyRuns_succ _ _ _ _ hrem, List.length_cons]
      have hrun : runLength dst src rem = min (8 - dst % 8) (min (8 - src % 8) rem) := rfl
      generalize runLength dst src rem = run at *
      rcases Nat.lt_or_ge run rem with hlt | hge
      · have := ih (dst + run) (src + run) (rem - run)
        omega
      · rw [show rem - run = 0 by omega, copyRuns_zero, List.length_nil]
        omega

/-- The runs move every bit of the copy once (R125). -/
theorem copyRuns_sum_len {fuel rem : Nat} (hf : rem ≤ fuel) (dst src : Nat) :
    ((copyRuns fuel dst src rem).map Run.len).sum = rem := by
  induction fuel generalizing dst src rem with
  | zero => simp only [copyRuns, List.map_nil, List.sum_nil]; omega
  | succ fuel ih =>
    rcases Nat.eq_zero_or_pos rem with rfl | hrem
    · rw [copyRuns_zero, List.map_nil, List.sum_nil]
    · have hpos := runLength_pos dst src rem hrem
      have hle := runLength_le dst src rem
      rw [copyRuns_succ _ _ _ _ hrem, List.map_cons, List.sum_cons, ih (by omega)]
      exact Nat.add_sub_cancel' hle

/-- Settles O18: the number of the runs, the sum of their lengths, and the place of each (`mem_copyRuns`) in the ranges
the plan has tested. -/
theorem runsAreBoundedAndInsideTheBuffers : Obligations.RunsAreBoundedAndInsideTheBuffers := by
  intro dbyte dbit dcap sbyte sbit scap count m hplan
  obtain ⟨⟨-, -, -, hdbit, hsbit, -⟩, hdst, hm⟩ := copyPlan_transferred.1 hplan
  rw [linear] at hdst hm
  refine ⟨?_, copyRuns_sum_len (Nat.le_refl m) _ _, fun r hr => ?_⟩
  · have := copyRuns_length_le m (dbyte * 8 + dbit) (sbyte * 8 + sbit) m
    omega
  · obtain ⟨⟨hpos, hdfit, hsfit⟩, hlo, hhi, hsame⟩ := mem_copyRuns hr
    omega

/-! ### A copy inside one buffer of `M` -/

/-- The first `n` bytes of the buffer at `a` in `M`. -/
def State.bytes (s : State) (a n : Nat) : List Byte := (List.range n).map (bufRead s (.ext a))

/-- One run inside one buffer, on the buffer's bytes (R120 lines 12 to 14); `copyRun_bytes` ties it to `copyRun`. -/
def Run.onBytes (l : List Byte) (r : Run) : List Byte :=
  l.set (r.dst / 8) (l.getD (r.dst / 8) 0 |||
    ((l.getD (r.src / 8) 0 >>> (r.src % 8) &&& lowMask r.len) <<< (r.dst % 8)))

section
variable {s : State} {a n : Nat}

theorem State.bytes_getD {i : Nat} (hi : i < n) : (s.bytes a n).getD i 0 = bufRead s (.ext a) i := by
  simp [State.bytes, hi]

/-- A byte of a buffer after a write to one of its bytes (R51). -/
theorem bufRead_bufWrite_ext {i j : Nat} (hi : i < 2 ^ AW) (hj : j < 2 ^ AW) (v : Byte) :
    bufRead (bufWrite s (.ext a) i v) (.ext a) j = if i = j then v else bufRead s (.ext a) j := by
  rw [bufRead, bufWrite, State.readLoc_writeLoc s _ _ _ trivial]
  by_cases hij : i = j
  · rw [if_pos (congrArg _ hij), if_pos hij]
  · rw [if_neg fun hloc => hij (Buf.loc_inj hi hj hloc), if_neg hij, bufRead]

/-- A byte write to a buffer, on the buffer's bytes. -/
theorem bufWrite_bytes {i : Nat} (hn : n ≤ 2 ^ AW) (hi : i < n) (v : Byte) :
    (bufWrite s (.ext a) i v).bytes a n = (s.bytes a n).set i v := by
  refine List.ext_getElem (by simp [State.bytes]) fun j hj _ => ?_
  have hjn : j < n := by simpa [State.bytes] using hj
  simp only [State.bytes, List.getElem_map, List.getElem_range, List.getElem_set]
  exact bufRead_bufWrite_ext (by omega) (by omega) v

/-- One run between positions of one buffer (R120, R126). -/
theorem copyRun_bytes {r : Run} (hn : n ≤ 2 ^ AW) (hdst : r.dst / 8 < n) (hsrc : r.src / 8 < n) :
    (copyRun (.ext a) (.ext a) s r).bytes a n = r.onBytes (s.bytes a n) := by
  rw [copyRun, bufWrite_bytes hn hdst, Run.onBytes, State.bytes_getD hdst, State.bytes_getD hsrc]

/-- A list of runs inside one buffer, overlap or not. -/
theorem foldl_copyRun_bytes {l : List Run} (hn : n ≤ 2 ^ AW) (hl : ∀ r ∈ l, r.dst / 8 < n ∧ r.src / 8 < n) :
    (l.foldl (copyRun (.ext a) (.ext a)) s).bytes a n = l.foldl Run.onBytes (s.bytes a n) := by
  induction l generalizing s with
  | nil => rfl
  | cons r l ih =>
    obtain ⟨⟨hdst, hsrc⟩, htail⟩ := List.forall_mem_cons.1 hl
    rw [List.foldl_cons, List.foldl_cons, ih htail, copyRun_bytes hn hdst hsrc]

/-- What a copy inside one buffer leaves there is computed from the buffer's bytes, overlap or not (R126). -/
theorem copyMove_bytes {d p m : Nat} (hn : n ≤ 2 ^ AW) (hdst : d + m ≤ n * 8) (hsrc : p + m ≤ n * 8) :
    (copyMove (.ext a) d (.ext a) p m s).bytes a n = (copyRuns m d p m).foldl Run.onBytes (s.bytes a n) := by
  refine foldl_copyRun_bytes hn fun r hr => ?_
  obtain ⟨⟨hpos, -, -⟩, -, hhi, hsame⟩ := mem_copyRuns hr
  omega

end

/-- Settles O17: the four runs of 4 bits, on the three bytes of the buffer. -/
theorem overlappingCopyReadsChangedBytes : Obligations.OverlappingCopyReadsChangedBytes := by
  intro s h0 h1 h2
  have hthree : ∀ u : State, u.bytes 0x4040 3 = [u.mem.read 0x4040, u.mem.read 0x4041, u.mem.read 0x4042] :=
    fun _ => rfl
  have hruns : copyRuns 16 4 0 16 = [⟨4, 0, 4⟩, ⟨8, 4, 4⟩, ⟨12, 8, 4⟩, ⟨16, 12, 4⟩] := by decide
  have hbytes : (copyMove (.ext 0x4040) 4 (.ext 0x4040) 0 16 s).bytes 0x4040 3 = [0xFF, 0xFF, 0x0F] := by
    rw [copyMove_bytes (by decide) (by decide) (by decide), hthree s, h0, h1, h2, hruns]
    decide
  have hexec : execCopyBits 0x4040 0 4 3 0x4040 0 0 3 16 s =
      respond { count := 16 } (copyMove (.ext 0x4040) 4 (.ext 0x4040) 0 16 s) :=
    execCopyBits_unclipped (by decide) (by decide) (by decide) (by decide) (by decide) (by decide) (by decide) s
  simp only [hthree, List.cons.injEq, and_true] at hbytes
  exact ⟨_, hexec, rfl, hbytes⟩

end Sys2Proof.Machine

end

/-! ## Construction: the constructors case by case (41_construction R140 to R142) -/

section

namespace Sys2Proof.Machine

section
variable {s : State} {h a n : Nat} {own : Bool}

/-! ### How `CREATE_OWNED` ends -/

/-- `CREATE_OWNED` of a zero size (R141). -/
theorem execCreateOwned_invalid (hz : n = 0) : execCreateOwned n s = raise .invalidArgument s := if_pos hz

/-- `CREATE_OWNED` of a size no RAM can give, or with no context free (R141). -/
theorem execCreateOwned_allocationFailure (h0 : n ≠ 0)
    (hfull : (∀ h, s.qPresent h → (s.ctx h).live = true) ∨ n > s.params.poolBytes) :
    execCreateOwned n s = raise .allocationFailure s := by
  rcases execCreateOwned_cases n s with ⟨hz, -⟩ | ⟨-, -, k⟩ | ⟨-, hf, hn, -⟩
  · exact absurd hz h0
  · exact k
  · rcases hfull with hall | hbig
    · exact absurd (freeHandle_zero hall) hf
    · omega

/-- `CREATE_OWNED` of a size that fits, with `h` the least free context (R140, R141). -/
theorem execCreateOwned_claims (h0 : n ≠ 0) (hn : n ≤ s.params.poolBytes) (hp : s.qPresent h)
    (hfree : s.freeHandle = h) : execCreateOwned n s = respond { qh := h } (createIn h n s) := by
  rcases execCreateOwned_cases n s with ⟨hz, -⟩ | ⟨-, hfail, -⟩ | ⟨-, -, -, k⟩
  · exact absurd hz h0
  · have := hp.1
    omega
  · rwa [hfree] at k

/-! ### How `WRAP_BUFFER` ends -/

/-- `WRAP_BUFFER` of an absent buffer or a zero size (R142). -/
theorem execWrapBuffer_invalid (hz : a = 0 ∨ n = 0) : execWrapBuffer a n own s = raise .invalidArgument s :=
  if_pos hz

/-- `WRAP_BUFFER` with no context free (R142). -/
theorem execWrapBuffer_allocationFailure (ha : a ≠ 0) (h0 : n ≠ 0)
    (hall : ∀ h, s.qPresent h → (s.ctx h).live = true) :
    execWrapBuffer a n own s = raise .allocationFailure s := by
  rcases execWrapBuffer_cases a n own s with ⟨hz, -⟩ | ⟨-, -, k⟩ | ⟨-, hf, -⟩
  · omega
  · exact k
  · exact absurd (freeHandle_zero hall) hf

/-- `WRAP_BUFFER` with `h` the least free context (R140, R142). -/
theorem execWrapBuffer_claims (ha : a ≠ 0) (h0 : n ≠ 0) (hp : s.qPresent h) (hfree : s.freeHandle = h) :
    execWrapBuffer a n own s = respond { qh := h } (wrapIn h a n own s) := by
  rcases execWrapBuffer_cases a n own s with ⟨hz, -⟩ | ⟨-, hnone, -⟩ | ⟨-, -, k⟩
  · omega
  · have := hp.1
    omega
  · rwa [hfree] at k

/-! ### What a new queue answers to the queries (R141, R170, R171) -/

/-- A query of a queue that `CREATE_OWNED` has just made. -/
theorem query_created {answer : Ctx → Bool} (hp : s.qPresent h) (hc : s.ctx h = Ctx.created n) :
    query h answer s = respond { flag := answer (Ctx.created n) } s := by
  rw [query_live hp (by rw [hc, Ctx.created]), hc]

theorem Ctx.created_hasData_one (n : Nat) : (Ctx.created n).hasData 1 = false := rfl

theorem Ctx.created_hasSpace_cap (n : Nat) : (Ctx.created n).hasSpace (n * 8) = true := by
  simp [Ctx.hasSpace, Ctx.cap, Ctx.created]

end

/-- Settles O19: the two errors, then the state `createIn` leaves in the least free context, which is empty and so
answers the two queries. -/
theorem createOwnedClaimsTheLeastFreeContext : Obligations.CreateOwnedClaimsTheLeastFreeContext := by
  refine ⟨fun d => ?_, fun n s => ⟨execCreateOwned_invalid, execCreateOwned_allocationFailure, ?_⟩⟩
  · obtain ⟨-, hcreate, -⟩ := opcodeSelectsTheCommandAndItsOperands d
    exact hcreate
  · intro h h0 hn hp hd hleast
    have hexec := execCreateOwned_claims h0 hn hp (freeHandle_eq hp hd hleast)
    obtain ⟨ht, hc⟩ := execCreateOwned_handle hexec rfl
    have hdata := query_created (answer := fun c => c.hasData 1) ht hc
    have hspace := query_created (answer := fun c => c.hasSpace (n * 8)) ht hc
    rw [Ctx.created_hasData_one] at hdata
    rw [Ctx.created_hasSpace_cap] at hspace
    refine ⟨_, hexec, rfl, hc, fun i => ?_, fun g hg => ?_, createIn_nq, createIn_params, createIn_mem, createIn_host,
      hdata, hspace⟩
    · rw [State.withResp_ram, createIn_ram hp, if_pos rfl, Memory.read_zeroBelow, unlistedByte]
    · rw [State.withResp_queue, createIn_queue_ne g hg.symm]

/-- Settles O20: the two errors, then the state `wrapIn` leaves in the least free context. -/
theorem wrapBufferClaimsTheLeastFreeContext : Obligations.WrapBufferClaimsTheLeastFreeContext := by
  refine fun a n own s => ⟨execWrapBuffer_invalid, execWrapBuffer_allocationFailure, ?_⟩
  intro h ha h0 hp hd hleast
  have hexec := execWrapBuffer_claims (own := own) ha h0 hp (freeHandle_eq hp hd hleast)
  obtain ⟨-, hc⟩ := execWrapBuffer_handle hexec rfl
  obtain ⟨hparams, hnq, hmem, hram⟩ := execWrapBuffer_memories hexec
  refine ⟨_, hexec, rfl, hc, hram, fun g hg => ?_, hnq, hparams, hmem, wrapIn_host⟩
  rw [State.withResp_ctx, wrapIn_ctx hp, if_neg hg.symm]

end Sys2Proof.Machine

end

/-! ## WRITE_BITS and READ_BITS: their checks, frames, invocations and effect (42_write_read R150 to R168) -/

section

namespace Sys2Proof.Machine

/-! ### The checks in their order -/

/-- Settles O22: one check after the other, as `execWriteBits` makes them. -/
theorem writeBitsErrorsAndTheirOrder : Obligations.WriteBitsErrorsAndTheirOrder := by
  intro qh saddr scap count s
  refine ⟨execWriteBits_invalid, fun hv => ⟨execWriteBits_messageTooLarge hv, fun hfit hroom => ?_⟩⟩
  exact execWriteBits_wouldBlock hv hfit (by simp only [Ctx.cap]; omega)

/-- Settles O23: one check after the other, as `execReadBits` makes them. -/
theorem readBitsErrorsAndTheirOrder : Obligations.ReadBitsErrorsAndTheirOrder := by
  intro qh daddr dcap count s
  exact ⟨execReadBits_invalid, fun hv => ⟨execReadBits_messageTooLarge hv, execReadBits_wouldBlock hv⟩⟩

/-! ### What a transfer that ends OK has done -/

section
variable {s t : State} {qh addr size count : Nat}

/-- A transfer that raises one of its errors does not end OK. -/
theorem raise_not_ok {k : Status} (hk : k = .invalidArgument ∨ k = .messageTooLarge ∨ k = .wouldBlock)
    (ht : raise k s = .next t) : t.resp.status ≠ .ok := by
  have hst : t.resp.status = k := by rw [respond_inj ht]
  rw [hst]
  rcases hk with rfl | rfl | rfl <;> decide

/-- From a sound state a `WRITE_BITS` that ends OK is the whole transfer, into a live context with room (R155). -/
theorem State.Inv.execWriteBits_of_ok (hi : s.Inv) (ht : execWriteBits qh addr size count s = .next t)
    (hst : t.resp.status = .ok) :
    (s.ctx qh).live = true ∧ (s.ctx qh).validBits + count ≤ (s.ctx qh).cap ∧
      t = { writeAll qh addr count s with resp := { count := count } } := by
  obtain ⟨k, hk, hr⟩ | ⟨-, hl, -, -, -, hroom, hall⟩ := hi.execWriteBits_cases qh addr size count
  · exact absurd hst (raise_not_ok hk (hr.symm.trans ht))
  · exact ⟨hl, hroom, respond_inj (hall.symm.trans ht)⟩

/-- From a sound state a `READ_BITS` that ends OK is the whole transfer, from a live context with the bits (R163). -/
theorem State.Inv.execReadBits_of_ok (hi : s.Inv) (ht : execReadBits qh addr size count s = .next t)
    (hst : t.resp.status = .ok) :
    (s.ctx qh).live = true ∧ count ≤ (s.ctx qh).validBits ∧
      t = { readAll qh addr count s with resp := { count := count } } := by
  obtain ⟨k, hk, hr⟩ | ⟨-, hl, -, -, -, hdata, hall⟩ := hi.execReadBits_cases qh addr size count
  · exact absurd hst (raise_not_ok hk (hr.symm.trans ht))
  · exact ⟨hl, hdata, respond_inj (hall.symm.trans ht)⟩

end

/-- Settles O41: from a sound state a transfer that ends OK is the whole one. -/
theorem successfulTransferMovesTheWholeCount : Obligations.SuccessfulTransferMovesTheWholeCount := by
  intro qh addr size count s t hi ht hst
  rcases ht with ht | ht
  · obtain ⟨-, -, rfl⟩ := hi.execWriteBits_of_ok ht hst
    rfl
  · obtain ⟨-, -, rfl⟩ := hi.execReadBits_of_ok ht hst
    rfl

/-! ### The bytes each may change, from any state -/

section
variable {s t u : State} {h addr size count : Nat} {l : Loc}

theorem Ctx.WriteAdvanced.bufSize_eq {c c' : Ctx} (hc : c.WriteAdvanced c') : c'.bufSize = c.bufSize := by
  obtain ⟨_, _, _, rfl⟩ := hc
  rfl

/-- `WRITE_BITS` does not move its ring. -/
theorem WriteFrame.qbuf (hf : WriteFrame h s u) : u.qbuf h = s.qbuf h := by
  obtain ⟨_, _, _, hc⟩ := hf.ctx
  exact qbuf_of_ctx h s (by rw [hc]; exact ⟨rfl, rfl⟩)

/-- `WRITE_BITS` changes no byte outside the ring, whatever it answers (R150). -/
theorem execWriteBits_readLoc_ne (ht : execWriteBits h addr size count s = .next t)
    (hne : ∀ i < (s.ctx h).bufSize, l ≠ (s.qbuf h).loc i) : t.readLoc l = s.readLoc l := by
  refine (execWriteBits_induct (P := fun u => WriteFrame h s u ∧ u.readLoc l = s.readLoc l) ht ⟨.refl h s, rfl⟩
    (fun u i v hu hi => ⟨hu.1.bufWrite_qbuf i v, ?_⟩) (fun u k hu => ⟨hu.1.advance k, ?_⟩)
    (fun u r hu => ⟨hu.1.withResp r, ?_⟩)).2
  · rw [hu.1.ctx.bufSize_eq] at hi
    rw [bufWrite, hu.1.qbuf, State.readLoc_writeLoc_ne _ _ _ _ (hne i hi).symm]
    exact hu.2
  · rw [State.modifyCtx_readLoc]
    exact hu.2
  · rw [State.withResp_readLoc]
    exact hu.2

/-- `READ_BITS` changes no byte outside the destination bytes of its positions, whatever it answers (R160). -/
theorem execReadBits_readLoc_ne (ht : execReadBits h addr size count s = .next t)
    (hne : ∀ j < count, l ≠ (Buf.ext addr).loc (j / 8)) : t.readLoc l = s.readLoc l := by
  refine execReadBits_induct (P := fun u => u.readLoc l = s.readLoc l) ht rfl (fun u i v hu hi => ?_)
    (fun u k hu => ?_) (fun u r hu => ?_)
  · have hi8 := hne (i * 8) hi
    rw [Nat.mul_div_cancel i (by decide)] at hi8
    rw [bufWrite, State.readLoc_writeLoc_ne _ _ _ _ hi8.symm]
    exact hu
  · rw [State.modifyCtx_readLoc]
    exact hu
  · rw [State.withResp_readLoc]
    exact hu

end

/-- Settles O27: `WriteFrame`, and the bytes outside the ring. -/
theorem writeBitsFrame : Obligations.WriteBitsFrame := by
  intro qh saddr scap count s t ht
  have hf := execWriteBits_frame ht
  exact ⟨hf.params, hf.nq, hf.host, hf.queue_ne, hf.ctx.eq, fun _ hne => execWriteBits_readLoc_ne ht hne⟩

/-- Settles O28: `ReadFrame`, and the bytes of `M` outside the destination. -/
theorem readBitsFrame : Obligations.ReadBitsFrame := by
  intro qh daddr dcap count s t ht
  have hf := execReadBits_frame ht
  exact ⟨hf.params, hf.nq, hf.host, hf.queue_ne, hf.ram, hf.ctx.eq,
    fun a hne => execReadBits_readLoc_ne (l := .mem a) ht hne⟩

/-! ### A sound live context by its parts, and its ring positions -/

section
variable {c : Ctx} {pool : Nat}

theorem Ctx.liveOk.cursors (hok : c.liveOk pool) : c.cursorsInRing := by
  obtain ⟨-, -, -, hcur, -, -⟩ := hok
  exact hcur

theorem Ctx.liveOk.bufSize_le (hok : c.liveOk pool) : c.bufSize ≤ 2 ^ AW := by
  obtain ⟨-, hsize, -, -, -, -⟩ := hok
  exact hsize.le

/-- A sound ring has no more bits than `M`. -/
theorem Ctx.liveOk.cap_le (hok : c.liveOk pool) : c.cap ≤ 8 * 2 ^ AW := by
  have hsize := hok.bufSize_le
  simp only [Ctx.cap]
  omega

theorem Ctx.liveOk.validBits_le (hok : c.liveOk pool) : c.validBits ≤ c.cap := by
  obtain ⟨-, -, -, -, ⟨hv, -⟩, -⟩ := hok
  exact hv

/-- The write cursor stands `VALID_BITS` positions after the read cursor, around the ring (R29). -/
theorem Ctx.liveOk.wrPos_add_mod (hok : c.liveOk pool) (j : Nat) :
    (c.wrPos + j) % c.cap = (c.rdPos + (c.validBits + j)) % c.cap := by
  have hcur := hok.cursors
  obtain ⟨-, -, -, -, hdist, -⟩ := hok
  obtain ⟨-, heq | hlap⟩ := (Ctx.countIsDistance_iff hcur).1 hdist
  · rw [← Nat.add_assoc, heq]
  · rw [← Nat.add_assoc, hlap, Nat.add_right_comm, Nat.add_mod_right]

theorem Ctx.hasSpace_iff {count : Nat} : c.hasSpace count = true ↔ c.validBits + count ≤ c.cap := by
  rw [Ctx.hasSpace, decide_eq_true_iff]
  omega

theorem Ctx.hasData_iff {count : Nat} : c.hasData count = true ↔ count ≤ c.validBits := decide_eq_true_iff

end

/-- Offsets below the capacity from one position name different ring positions. -/
theorem ringPos_inj {r C i j : Nat} (hi : i < C) (hj : j < C) (heq : (r + i) % C = (r + j) % C) : i = j :=
  (Nat.ModEq.add_left_cancel' r heq).eq_of_lt_of_lt hi hj

/-! ### One or two invocations (R157, R164) -/

section
variable {s : State} {h a cap count : Nat}

/-- R157 (a): an invocation of `WRITE_BITS` moves its whole chunk; with the cursor advanced it is `writeOnce`. -/
theorem writeInvocation_writeOnce {moved k : Nat} (hc : (s.ctx h).cursorsInRing) (hm : moved < count)
    (hcap : count ≤ cap * 8) (hk : min (count - moved) ((s.ctx h).cap - (s.ctx h).wrPos) = k) :
    ∃ t, writeInvocation h a cap count moved s = (.transferred k, t) ∧
      t.modifyCtx h (Ctx.advanceWrite k) = writeOnce h a moved k s := by
  subst hk
  exact ⟨_, writeInvocation_eq hc hm hcap, rfl⟩

/-- R164 (a): an invocation of `READ_BITS` moves what the ring holds up to its end or the rest; with the cursor advanced
it is `readOnce`. -/
theorem readInvocation_readOnce {moved k : Nat} (hc : (s.ctx h).cursorsInRing) (hm : moved < count)
    (hcap : count ≤ cap * 8) (hfit : count ≤ (s.ctx h).cap)
    (hk : min (count - moved) ((s.ctx h).cap - (s.ctx h).rdPos) = k) :
    ∃ t, readInvocation h a cap count moved s = (.transferred k, t) ∧
      t.modifyCtx h (Ctx.advanceRead k) = readOnce h a moved k s := by
  subst hk
  exact ⟨_, readInvocation_eq hc hm hcap hfit, rfl⟩

theorem writeOnce_cursors {moved k : Nat} (hp : s.qPresent h) (hc : (s.ctx h).cursorsInRing)
    (hk : (s.ctx h).wrPos + k ≤ (s.ctx h).cap) : ((writeOnce h a moved k s).ctx h).cursorsInRing := by
  rw [writeOnce_ctx _ _ _ _ _ hp]
  exact Ctx.advanceWrite_cursors hc hk

theorem readOnce_cursors {moved k : Nat} (hp : s.qPresent h) (hc : (s.ctx h).cursorsInRing)
    (hk : (s.ctx h).rdPos + k ≤ (s.ctx h).cap) : ((readOnce h a moved k s).ctx h).cursorsInRing := by
  rw [readOnce_ctx _ _ _ _ _ hp]
  exact Ctx.advanceRead_cursors hc hk

/-- A write that ends at or before the end of the ring. -/
theorem writeAll_of_fits (hfits : (s.ctx h).wrPos + count ≤ (s.ctx h).cap) :
    writeAll h a count s = writeOnce h a 0 count s := if_pos hfits

/-- A write that passes the end of the ring, `room` bits away. -/
theorem writeAll_of_wraps {room : Nat} (hroom : (s.ctx h).wrPos + room = (s.ctx h).cap) (hwraps : room < count) :
    writeAll h a count s = writeOnce h a room (count - room) (writeOnce h a 0 room s) := by
  obtain rfl : (s.ctx h).cap - (s.ctx h).wrPos = room := by omega
  exact if_neg (by omega)

/-- A read that ends at or before the end of the ring. -/
theorem readAll_of_fits (hfits : (s.ctx h).rdPos + count ≤ (s.ctx h).cap) :
    readAll h a count s = readOnce h a 0 count s := if_pos hfits

/-- A read that passes the end of the ring, `room` bits away. -/
theorem readAll_of_wraps {room : Nat} (hroom : (s.ctx h).rdPos + room = (s.ctx h).cap) (hwraps : room < count) :
    readAll h a count s = readOnce h a room (count - room) (readOnce h a 0 room s) := by
  obtain rfl : (s.ctx h).cap - (s.ctx h).rdPos = room := by omega
  exact if_neg (by omega)

end

/-- Settles O48: (a) is `writeInvocation_writeOnce`; (b) and (c) put its invocations together to `writeAll`, the second
of them from the cursor that `writeOnce_rest` leaves. -/
theorem writeBitsMakesAtMostTwoInvocations : Obligations.WriteBitsMakesAtMostTwoInvocations := by
  constructor
  · intro qh saddr scap count moved s hp hcur hm hcap
    have hlt := Ctx.wrPos_lt_cap hcur
    obtain ⟨k, hk⟩ : ∃ k, min (count - moved) ((s.ctx qh).cap - (s.ctx qh).wrPos) = k := ⟨_, rfl⟩
    obtain ⟨t, ht, hadv⟩ := writeInvocation_writeOnce (a := saddr) hcur hm hcap hk
    refine ⟨k, t, by omega, ?_, ht, ?_⟩
    · simp only [Ctx.cap, Ctx.wrPos, linear] at hk hlt
      omega
    · rw [hadv]
      exact writeOnce_cursors hp hcur (by omega)
  · rintro qh saddr scap count room s ⟨⟨hp, ha⟩, h1, hcap, hl, hfit, hspace, hok⟩ hroom
    have hexec := execWriteBits_ok hp hl hok ha h1 hcap (Ctx.hasSpace_iff.1 hspace)
    obtain ⟨t, ht, hadv⟩ :=
      writeInvocation_writeOnce (a := saddr) (k := min count room) hok.cursors h1 hcap (by omega)
    refine ⟨t, ht, fun hone => ?_, fun htwo => ?_⟩
    · rw [Nat.min_eq_left hone] at hadv
      rw [writeAll_of_fits (by omega), ← hadv] at hexec
      exact hexec
    · rw [Nat.min_eq_right htwo.le] at hadv
      rw [writeAll_of_wraps hroom htwo] at hexec
      obtain ⟨hpos, hcp⟩ := writeOnce_rest (a := saddr) hp hok.cursors 0
      have hcur := writeOnce_cursors (a := saddr) (moved := 0) hp hok.cursors hroom.le
      rw [show (s.ctx qh).cap - (s.ctx qh).wrPos = room by omega] at hpos hcp
      obtain ⟨u, hu, hadv'⟩ := writeInvocation_writeOnce (a := saddr) (k := count - room) hcur htwo hcap (by omega)
      have hzero := hpos
      simp only [Ctx.wrPos, linear] at hzero
      rw [hadv]
      exact ⟨by omega, by omega, u, hu, by rw [hadv']; exact hexec⟩

/-- Settles O49: (a) is `readInvocation_readOnce`; (b) and (c) put its invocations together to `readAll`, the second of
them from the cursor that `readOnce_rest` leaves. -/
theorem readBitsMakesAtMostTwoInvocations : Obligations.ReadBitsMakesAtMostTwoInvocations := by
  constructor
  · intro qh daddr dcap count moved s hp hcur hm hcap hfit
    have hlt := Ctx.rdPos_lt_cap hcur
    obtain ⟨k, hk⟩ : ∃ k, min (count - moved) ((s.ctx qh).cap - (s.ctx qh).rdPos) = k := ⟨_, rfl⟩
    obtain ⟨t, ht, hadv⟩ := readInvocation_readOnce (a := daddr) hcur hm hcap hfit hk
    refine ⟨k, t, by omega, ?_, ht, ?_⟩
    · simp only [Ctx.cap, Ctx.rdPos, linear] at hk hlt
      omega
    · rw [hadv]
      exact readOnce_cursors hp hcur (by omega)
  · rintro qh daddr dcap count room s ⟨⟨hp, ha⟩, h1, hcap, hl, hfit, hdata, hok⟩ hroom
    have hexec := execReadBits_ok hp hl hok ha h1 hcap (Ctx.hasData_iff.1 hdata)
    obtain ⟨t, ht, hadv⟩ :=
      readInvocation_readOnce (a := daddr) (k := min count room) hok.cursors h1 hcap hfit (by omega)
    refine ⟨t, ht, fun hone => ?_, fun htwo => ?_⟩
    · rw [Nat.min_eq_left hone] at hadv
      rw [readAll_of_fits (by omega), ← hadv] at hexec
      exact hexec
    · rw [Nat.min_eq_right htwo.le] at hadv
      rw [readAll_of_wraps hroom htwo] at hexec
      obtain ⟨hpos, hcp⟩ := readOnce_rest (a := daddr) hp hok.cursors 0
      have hcur := readOnce_cursors (a := daddr) (moved := 0) hp hok.cursors hroom.le
      rw [show (s.ctx qh).cap - (s.ctx qh).rdPos = room by omega] at hpos hcp
      obtain ⟨u, hu, hadv'⟩ :=
        readInvocation_readOnce (a := daddr) (k := count - room) hcur htwo hcap (by omega) (by omega)
      have hzero := hpos
      simp only [Ctx.rdPos, linear] at hzero
      rw [hadv]
      exact ⟨by omega, by omega, u, hu, by rw [hadv']; exact hexec⟩

/-! ### The whole effect from a sound context (R158, R165) -/

/-- Settles O25: the command is `writeAll`, whose context, bits and frame are `writeAll_ctx`, `writeAll_bitAt` and
`writeAll_locBit_ne`. -/
theorem writeBitsAppendsTheSourceBits : Obligations.WriteBitsAppendsTheSourceBits := by
  rintro qh saddr scap count s _ hp rfl hl hok ha h1 hcap hroom
  have hfit : count ≤ (s.ctx qh).cap := by omega
  refine ⟨_, execWriteBits_ok hp hl hok ha h1 hcap hroom, rfl, ?_, fun g hg => ?_, writeAll_nq, writeAll_params,
    writeAll_host, fun hno j hj => ?_, fun l b hb hne => ?_⟩
  · rw [State.withResp_ctx]
    exact writeAll_ctx hp hok.cursors hfit
  · rw [State.withResp_queue]
    exact writeAll_queue_ne g hg.symm
  · rw [State.withResp_bitAt]
    exact writeAll_bitAt hp hok.cursors hfit hok.bufSize_le hno j hj
  · rw [State.locBit, State.withResp_readLoc]
    exact writeAll_locBit_ne hp hok.cursors hfit l b hb hne

/-- Settles O26: the command is `readAll`, whose context, bits and frame are `readAll_ctx`, `readAll_bitAt` and
`readAll_locBit_ne`. -/
theorem readBitsDeliversTheOldestBits : Obligations.ReadBitsDeliversTheOldestBits := by
  rintro qh daddr dcap count s _ hp rfl hl hok ha h1 hcap hdata
  have hfit : count ≤ (s.ctx qh).cap := hdata.trans hok.validBits_le
  refine ⟨_, execReadBits_ok hp hl hok ha h1 hcap hdata, rfl, ?_, fun g => ?_, fun g hg => ?_, readAll_nq,
    readAll_params, readAll_host, fun hno j hj => ?_, fun l b hb hne => ?_⟩
  · rw [State.withResp_ctx]
    exact readAll_ctx hp hok.cursors hfit
  · rw [State.withResp_ram]
    exact readAll_ram g
  · rw [State.withResp_ctx]
    exact congrArg Queue.ctx (readAll_queue_ne g hg.symm)
  · rw [State.withResp_bitAt, State.withResp_bitAt]
    exact readAll_bitAt hp hok.cursors hfit (hfit.trans hok.cap_le) hno j hj
  · rw [State.locBit, State.withResp_readLoc]
    exact readAll_locBit_ne hok.cursors l b hb hne

/-! ### The queue as a list of bits (R168) -/

section
variable {s : State} {h a count : Nat}

@[simp] theorem State.withResp_qbuf (s : State) (r : Response) (h : Nat) :
    ({ s with resp := r } : State).qbuf h = s.qbuf h := by
  simp [State.qbuf]

@[simp] theorem State.withResp_unread (s : State) (r : Response) (h : Nat) :
    ({ s with resp := r } : State).unread h = s.unread h := by
  simp [State.unread]

@[simp] theorem State.withResp_bits (s : State) (r : Response) (B : Buf) (n : Nat) :
    ({ s with resp := r } : State).bits B n = s.bits B n := by
  simp [State.bits]

/-- Bits of a ring at different positions are different bits. -/
theorem ringBit_ne {B : Buf} {p q : Nat} (hp : p < 8 * 2 ^ AW) (hq : q < 8 * 2 ^ AW) (hne : p ≠ q) :
    ¬ (B.loc (p / 8) = B.loc (q / 8) ∧ p % 8 = q % 8) := by
  rintro ⟨hloc, hbit⟩
  have := Buf.loc_inj (B := B) (by omega) (by omega) hloc
  omega

/-- A write leaves the bits that were unread (R158). -/
theorem writeAll_unread_bitAt (hp : s.qPresent h) (hok : (s.ctx h).liveOk s.params.poolBytes)
    (hroom : (s.ctx h).validBits + count ≤ (s.ctx h).cap) {j : Nat} (hj : j < (s.ctx h).validBits) :
    bitAt (writeAll h a count s) (s.qbuf h) (((s.ctx h).rdPos + j) % (s.ctx h).cap) =
      bitAt s (s.qbuf h) (((s.ctx h).rdPos + j) % (s.ctx h).cap) := by
  have hlt : ∀ p, p % (s.ctx h).cap < 8 * 2 ^ AW := fun p =>
    (Nat.mod_lt p (by omega)).trans_le hok.cap_le
  rw [bitAt_eq, bitAt_eq]
  refine writeAll_locBit_ne hp hok.cursors (by omega) _ _ (Nat.mod_lt _ (by decide)) fun i hi => ?_
  rw [hok.wrPos_add_mod]
  refine ringBit_ne (hlt _) (hlt _) fun heq => ?_
  have := ringPos_inj (by omega) (by omega) heq
  omega

/-- A write with the pre-clear appends the source bits to the unread bits (R158, R168). -/
theorem writeAll_unread (hp : s.qPresent h) (hok : (s.ctx h).liveOk s.params.poolBytes)
    (hroom : (s.ctx h).validBits + count ≤ (s.ctx h).cap) (hpre : s.params.preclearOnWrite = true)
    (hno : ∀ i < (s.ctx h).bufSize, ∀ j < count, (s.qbuf h).loc i ≠ (Buf.ext a).loc (j / 8)) :
    (writeAll h a count s).unread h = s.unread h ++ s.bits (.ext a) count := by
  have hfit : count ≤ (s.ctx h).cap := by omega
  have hctx := writeAll_ctx (a := a) hp hok.cursors hfit
  have hq : (writeAll h a count s).qbuf h = s.qbuf h := qbuf_of_ctx h s (by rw [hctx]; exact ⟨rfl, rfl⟩)
  calc (writeAll h a count s).unread h
      = (List.range ((s.ctx h).validBits + count)).map fun j =>
          bitAt (writeAll h a count s) (s.qbuf h) (((s.ctx h).rdPos + j) % (s.ctx h).cap) := by
        rw [State.unread, hctx, hq]; rfl
    _ = s.unread h ++ s.bits (.ext a) count := by
        rw [List.range_add, List.map_append, List.map_map]
        refine congrArg₂ (· ++ ·) (List.map_congr_left fun j hj => ?_) (List.map_congr_left fun j hj => ?_)
        · exact writeAll_unread_bitAt hp hok hroom (List.mem_range.1 hj)
        · have hbit := writeAll_bitAt hp hok.cursors hfit hok.bufSize_le hno j (List.mem_range.1 hj)
          rw [hok.wrPos_add_mod, hpre, Bool.not_true, Bool.false_and, Bool.false_or] at hbit
          exact hbit

/-- A read leaves the ring, which shares no byte with its destination (R165). -/
theorem readAll_ring_bitAt (hc : (s.ctx h).cursorsInRing)
    (hno : ∀ i < (s.ctx h).bufSize, ∀ j < count, (s.qbuf h).loc i ≠ (Buf.ext a).loc (j / 8)) {p : Nat}
    (hp : p < (s.ctx h).cap) : bitAt (readAll h a count s) (s.qbuf h) p = bitAt s (s.qbuf h) p := by
  rw [bitAt_eq, bitAt_eq]
  refine readAll_locBit_ne hc _ _ (Nat.mod_lt _ (by decide)) fun j hj hat => ?_
  exact hno (p / 8) (by simp only [Ctx.cap] at hp; omega) j hj hat.1

/-- A read into a clear destination takes the bits it delivers from the front of the unread bits (R165, R168). -/
theorem readAll_unread (hp : s.qPresent h) (hok : (s.ctx h).liveOk s.params.poolBytes)
    (hdata : count ≤ (s.ctx h).validBits) (hclear : ∀ j < count, bitAt s (.ext a) j = false)
    (hno : ∀ i < (s.ctx h).bufSize, ∀ j < count, (s.qbuf h).loc i ≠ (Buf.ext a).loc (j / 8)) :
    s.unread h = (readAll h a count s).bits (.ext a) count ++ (readAll h a count s).unread h := by
  have hfit : count ≤ (s.ctx h).cap := hdata.trans hok.validBits_le
  have hpos : 0 < (s.ctx h).cap := (Nat.zero_le _).trans_lt (Ctx.rdPos_lt_cap hok.cursors)
  have hctx := readAll_ctx (a := a) hp hok.cursors hfit
  have hq : (readAll h a count s).qbuf h = s.qbuf h := qbuf_of_ctx h s (by rw [hctx]; exact ⟨rfl, rfl⟩)
  have hrd : ((readAll h a count s).ctx h).rdPos = ((s.ctx h).rdPos + count) % (s.ctx h).cap := by
    rw [hctx]
    exact linear_div_mod _
  have hcap : ((readAll h a count s).ctx h).cap = (s.ctx h).cap := by rw [hctx]; rfl
  have hrest : (readAll h a count s).unread h =
      (List.range ((s.ctx h).validBits - count)).map fun j =>
        bitAt s (s.qbuf h) (((s.ctx h).rdPos + (count + j)) % (s.ctx h).cap) := by
    rw [State.unread, hrd, hcap, hq, hctx]
    refine List.map_congr_left fun j _ => ?_
    rw [readAll_ring_bitAt hok.cursors hno (Nat.mod_lt _ hpos), Nat.mod_add_mod, Nat.add_assoc]
  have hfront : (readAll h a count s).bits (.ext a) count =
      (List.range count).map fun j => bitAt s (s.qbuf h) (((s.ctx h).rdPos + j) % (s.ctx h).cap) := by
    refine List.map_congr_left fun j hj => ?_
    have hj := List.mem_range.1 hj
    rw [readAll_bitAt hp hok.cursors hfit (hfit.trans hok.cap_le) hno j hj, hclear j hj, Bool.false_or]
  rw [hfront, hrest, State.unread]
  conv_lhs => rw [← Nat.add_sub_cancel' hdata, List.range_add, List.map_append, List.map_map]
  rfl

end

/-- Settles O29: from a sound state a transfer that ends OK is `writeAll` or `readAll`. -/
theorem queueIsFirstInFirstOut : Obligations.QueueIsFirstInFirstOut := by
  intro qh addr size count s t hi hp hno
  constructor
  · intro hpre ht hst
    obtain ⟨hl, hroom, rfl⟩ := hi.execWriteBits_of_ok ht hst
    rw [State.withResp_unread]
    exact writeAll_unread hp (hi.live_ok hp hl) hroom hpre hno
  · intro ht hst hclear
    obtain ⟨hl, hdata, rfl⟩ := hi.execReadBits_of_ok ht hst
    rw [State.withResp_unread, State.withResp_bits]
    exact readAll_unread hp (hi.live_ok hp hl) hdata hclear hno

end Sys2Proof.Machine

end

/-! ## The capacity queries, and what they tell of a transfer (43_capacity R170 to R172) -/

section

namespace Sys2Proof.Machine

/-- The test of `HAS_SPACE` as R170 writes it, on the bytes of the buffer. -/
theorem Ctx.hasSpace_eq_decide (c : Ctx) (count : Nat) :
    c.hasSpace count = decide ((c.bufSize * 8 : Int) - c.validBits ≥ count) := by
  rw [Ctx.hasSpace, Ctx.cap, Int.natCast_mul]
  rfl

theorem exec_hasSpace (qh count : Nat) (s : State) :
    exec (.hasSpace qh count) s = query qh (fun c => c.hasSpace count) s := rfl

theorem exec_hasData (qh count : Nat) (s : State) :
    exec (.hasData qh count) s = query qh (fun c => c.hasData count) s := rfl

/-- Settles O30: the two ways a query can end, with the test of R170. -/
theorem hasSpaceAnswers : Obligations.HasSpaceAnswers := by
  refine ⟨fun d => ?_, fun qh count s => ?_⟩
  · obtain ⟨-, -, -, -, -, hspace, -⟩ := opcodeSelectsTheCommandAndItsOperands d
    exact hspace
  · rw [exec_hasSpace, ← Ctx.hasSpace_eq_decide]
    exact ⟨query_invalid, query_live⟩

/-- Settles O31: the two ways a query can end, with the test of R171. -/
theorem hasDataAnswers : Obligations.HasDataAnswers := by
  refine ⟨fun d => ?_, fun qh count s => ?_⟩
  · obtain ⟨-, -, -, -, -, -, hdata, -⟩ := opcodeSelectsTheCommandAndItsOperands d
    exact hdata
  · rw [exec_hasData, ← Ctx.hasData]
    exact ⟨query_invalid, query_live⟩

/-! ### Line 6 of a transfer is the query's own test (R172) -/

section
variable {s : State} {h addr size count : Nat}
variable (hp : s.qPresent h) (hl : (s.ctx h).live = true) (hok : (s.ctx h).liveOk s.params.poolBytes) (ha : addr ≠ 0)
  (h1 : 1 ≤ count) (hsize : count ≤ size * 8) (hfit : count ≤ (s.ctx h).cap)
include hp hl hok ha h1 hsize hfit

/-- From a sound live context, lines 1 to 5 passed: with room the whole write is made, without it none. -/
theorem execWriteBits_status :
    ∃ t, execWriteBits h addr size count s = .next t ∧
      t.resp.status = if (s.ctx h).hasSpace count then .ok else .wouldBlock := by
  by_cases hspace : (s.ctx h).hasSpace count = true
  · rw [if_pos hspace]
    exact ⟨_, execWriteBits_ok hp hl hok ha h1 hsize (Ctx.hasSpace_iff.1 hspace), rfl⟩
  · rw [if_neg hspace]
    rw [Ctx.hasSpace_iff, not_le] at hspace
    exact ⟨_, execWriteBits_wouldBlock (not_transferInvalid hp ha h1 hsize hl) hfit hspace, rfl⟩

/-- From a sound live context, lines 1 to 5 passed: with the bits there the whole read is made, without them none. -/
theorem execReadBits_status :
    ∃ t, execReadBits h addr size count s = .next t ∧
      t.resp.status = if (s.ctx h).hasData count then .ok else .wouldBlock := by
  by_cases hdata : (s.ctx h).hasData count = true
  · rw [if_pos hdata]
    exact ⟨_, execReadBits_ok hp hl hok ha h1 hsize (Ctx.hasData_iff.1 hdata), rfl⟩
  · rw [if_neg hdata]
    rw [Ctx.hasData_iff, not_le] at hdata
    exact ⟨_, execReadBits_wouldBlock (not_transferInvalid hp ha h1 hsize hl) hfit hdata, rfl⟩

end

/-- Settles O32: the query's `FLAG` is the test by which the transfer ends (`execWriteBits_status`,
`execReadBits_status`). -/
theorem queriesPredictTransfers : Obligations.QueriesPredictTransfers := by
  intro qh addr size count s hi hp hl ha h1 hsize hfit
  have hok := hi.live_ok hp hl
  obtain ⟨w, hw, hwst⟩ := execWriteBits_status hp hl hok ha h1 hsize hfit
  obtain ⟨r, hr, hrst⟩ := execReadBits_status hp hl hok ha h1 hsize hfit
  exact ⟨⟨_, w, (exec_hasSpace ..).trans (query_live hp hl), hw, hwst⟩,
    _, r, (exec_hasData ..).trans (query_live hp hl), hr, hrst⟩

end Sys2Proof.Machine

end

/-! ## Destruction: `DESTROY`, and commands on a dead context (44_destruction R175 to R178) -/

section

namespace Sys2Proof.Machine

section
variable {s t : State} {h : Nat}

/-- `DESTROY` of a live context takes that context to its reset value and leaves every other one (R175). -/
theorem execDestroy_live_ctx (hp : s.qPresent h) (hl : (s.ctx h).live = true) (ht : execDestroy h s = .next t)
    (g : Nat) : t.ctx g = if h = g then Ctx.reset else s.ctx g := by
  rw [respond_inj ((execDestroy_live hp hl).symm.trans ht)]
  exact (State.withResp_ctx ..).trans (State.modifyCtx_ctx _ _ _ _ hp)

/-- Whatever `DESTROY` answers, no live context stands under its handle afterwards (R175, R177). -/
theorem execDestroy_dead (ht : execDestroy h s = .next t) : ¬ t.qPresent h ∨ (t.ctx h).live = false := by
  rcases execDestroy_cases h s with ⟨hd, k⟩ | ⟨hp, hl, -⟩
  · rw [respond_inj (k.symm.trans ht), State.withResp_ctx]
    exact hd
  · right
    rw [execDestroy_live_ctx hp hl ht, if_pos rfl, Ctx.reset]

/-- `DESTROY` of a live context answers whether its buffer goes back to the host, and leaves the memories (R176). -/
theorem execDestroy_releases (hp : s.qPresent h) (hl : (s.ctx h).live = true) :
    ∃ u, execDestroy h s = .next u ∧ u.resp = { rel := (s.ctx h).release } ∧ u.mem = s.mem ∧ u.ram h = s.ram h := by
  have hexec := execDestroy_live hp hl
  have hkept := execDestroy_memories hexec
  exact ⟨_, hexec, rfl, hkept.mem, hkept.ram h⟩

/-- A buffer the queue made itself does not go back to the host (R176 (a)). -/
theorem Ctx.created_release (n : Nat) : (Ctx.created n).release = false := rfl

/-- A wrapped buffer goes back exactly when its ownership was given away (R176 (b), (c)). -/
theorem Ctx.wrapped_release (a n : Nat) (own : Bool) : (Ctx.wrapped a n own).release = own := Bool.and_true own

end

/-- Settles O33: `DESTROY` without a live context is refused; with one, the context alone goes to its reset value. -/
theorem destroyFreesTheContext : Obligations.DestroyFreesTheContext := by
  refine ⟨fun d => ?_, fun qh s => ⟨execDestroy_invalid, fun hp hl => ?_⟩⟩
  · obtain ⟨-, -, -, -, -, -, -, hdestroy, -⟩ := opcodeSelectsTheCommandAndItsOperands d
    exact hdestroy
  · have hexec := execDestroy_live hp hl
    obtain ⟨hparams, hnq, hmem, hram⟩ := execDestroy_memories hexec
    have hctx := execDestroy_live_ctx hp hl hexec
    exact ⟨_, hexec, rfl, (hctx qh).trans (if_pos rfl), fun g hg => (hctx g).trans (if_neg hg.symm), hram, hmem, hnq,
      hparams, State.modifyCtx_host ..⟩

/-- Settles O34: a dead context is refused, and every `DESTROY` leaves one (`execDestroy_dead`). -/
theorem secondDestroyIsInvalid : Obligations.SecondDestroyIsInvalid :=
  ⟨fun _ _ hd => execDestroy_invalid (Or.inr hd), fun _ _ _ ht => execDestroy_invalid (execDestroy_dead ht)⟩

/-- Settles O35: the context each constructor has made, destroyed (`execDestroy_releases`). -/
theorem releaseFollowsOwnership : Obligations.ReleaseFollowsOwnership := by
  constructor
  · intro n h s t ht hr
    obtain ⟨hp, hc⟩ := execCreateOwned_handle ht hr
    have hrel := execDestroy_releases hp (by rw [hc, Ctx.created])
    rwa [hc, Ctx.created_release] at hrel
  · intro a n h own s t ht hr
    obtain ⟨hp, hc⟩ := execWrapBuffer_handle ht hr
    have hrel := execDestroy_releases hp (by rw [hc, Ctx.wrapped])
    rwa [hc, Ctx.wrapped_release] at hrel

/-- Settles O36, command by command: each tests `LIVE` before it does anything. -/
theorem deadContextAnswersInvalidArgument : Obligations.DeadContextAnswersInvalidArgument := by
  intro qh addr size count s i hd hi
  have hv : transferInvalid s qh addr size count := Or.inr (Or.inr (Or.inr (Or.inr hd)))
  simp only [List.mem_cons, List.not_mem_nil, or_false] at hi
  rcases hi with rfl | rfl | rfl | rfl | rfl
  · exact execWriteBits_invalid hv
  · exact execReadBits_invalid hv
  · exact (exec_hasSpace ..).trans (query_invalid (Or.inr hd))
  · exact (exec_hasData ..).trans (query_invalid (Or.inr hd))
  · exact execDestroy_invalid (Or.inr hd)

end Sys2Proof.Machine

end

/-! ## Exceptions: the errors a command answers, and the response none reads (60_exceptions R182 to R196) -/

section

namespace Sys2Proof.Machine

/-! ### How a command ends from a sound state -/

/-- The error kinds a command can answer from a sound state (R181 to R185): `exec_ends` says there is no other. -/
@[simp] def errorKinds : Instr → List Status
  | .copyBits .. => [.invalidArgument, .insufficientSpace]
  | .createOwned .. | .wrapBuffer .. => [.invalidArgument, .allocationFailure]
  | .writeBits .. | .readBits .. => [.invalidArgument, .messageTooLarge, .wouldBlock]
  | .hasSpace .. | .hasData .. | .destroy .. => [.invalidArgument]

section
variable {s t : State} {i : Instr} {k : Status}

/-- From a sound state a command raises one of its error kinds, in the state it was given, or answers `OK`. -/
theorem State.Inv.exec_ends (hi : s.Inv) (i : Instr) :
    (∃ k ∈ errorKinds i, exec i s = raise k s) ∨ ∃ r u, r.status = .ok ∧ exec i s = respond r u := by
  cases i with
  | copyBits daddr dbyte dbit dcap saddr sbyte sbit scap count =>
    rcases execCopyBits_cases daddr dbyte dbit dcap saddr sbyte sbit scap count s with ⟨-, k⟩ | ⟨-, -, k⟩ | ⟨-, -, k⟩
    · exact .inl ⟨_, by simp, k⟩
    · exact .inl ⟨_, by simp, k⟩
    · exact .inr ⟨_, _, rfl, k⟩
  | createOwned dcap =>
    rcases execCreateOwned_cases dcap s with ⟨-, k⟩ | ⟨-, -, k⟩ | ⟨-, -, -, k⟩
    · exact .inl ⟨_, by simp, k⟩
    · exact .inl ⟨_, by simp, k⟩
    · exact .inr ⟨_, _, rfl, k⟩
  | wrapBuffer daddr dcap own =>
    rcases execWrapBuffer_cases daddr dcap own s with ⟨-, k⟩ | ⟨-, -, k⟩ | ⟨-, -, k⟩
    · exact .inl ⟨_, by simp, k⟩
    · exact .inl ⟨_, by simp, k⟩
    · exact .inr ⟨_, _, rfl, k⟩
  | writeBits qh saddr scap count =>
    rcases hi.execWriteBits_cases qh saddr scap count with ⟨_, hk, k⟩ | ⟨-, -, -, -, -, -, k⟩
    · exact .inl ⟨_, by simpa using hk, k⟩
    · exact .inr ⟨_, _, rfl, k⟩
  | readBits qh daddr dcap count =>
    rcases hi.execReadBits_cases qh daddr dcap count with ⟨_, hk, k⟩ | ⟨-, -, -, -, -, -, k⟩
    · exact .inl ⟨_, by simpa using hk, k⟩
    · exact .inr ⟨_, _, rfl, k⟩
  | hasSpace qh count =>
    rcases query_cases qh (fun c => c.hasSpace count) s with ⟨-, k⟩ | ⟨-, -, k⟩
    · exact .inl ⟨_, by simp, k⟩
    · exact .inr ⟨_, _, rfl, k⟩
  | hasData qh count =>
    rcases query_cases qh (fun c => c.hasData count) s with ⟨-, k⟩ | ⟨-, -, k⟩
    · exact .inl ⟨_, by simp, k⟩
    · exact .inr ⟨_, _, rfl, k⟩
  | destroy qh =>
    rcases execDestroy_cases qh s with ⟨-, k⟩ | ⟨-, -, k⟩
    · exact .inl ⟨_, by simp, k⟩
    · exact .inr ⟨_, _, rfl, k⟩

/-- From a sound state a command that does not answer `OK` answers one of its error kinds, and changes the response
alone (R190). -/
theorem State.Inv.exec_error (hi : s.Inv) (ht : exec i s = .next t) (hst : t.resp.status ≠ .ok) :
    ∃ k ∈ errorKinds i, t = { s with resp := { status := k } } := by
  rcases hi.exec_ends i with ⟨k, hmem, hk⟩ | ⟨r, u, hr, hk⟩
  · exact ⟨k, hmem, respond_inj (hk.symm.trans ht)⟩
  · rw [respond_inj (hk.symm.trans ht)] at hst
    exact absurd hr hst

/-- From a sound state the command that answered an error has changed nothing but the response, which holds its STATUS
alone (R190). -/
theorem State.Inv.exec_eq_of_error (hi : s.Inv) (ht : exec i s = .next t) (hst : t.resp.status ≠ .ok) :
    t = { s with resp := { status := t.resp.status } } := by
  obtain ⟨k, -, rfl⟩ := hi.exec_error ht hst
  rfl

/-- The error a command answers from a sound state is one of its kinds. -/
theorem State.Inv.mem_errorKinds (hi : s.Inv) (ht : exec i s = .next t) (hk : k ≠ .ok) (hst : t.resp.status = k) :
    k ∈ errorKinds i := by
  obtain ⟨_, hmem, rfl⟩ := hi.exec_error ht (hst ▸ hk)
  exact hst ▸ hmem

/-! ### Which commands have an error kind -/

/-- `MessageTooLarge` and `WouldBlock` are the transfers' (R182, R183). -/
theorem transfer_of_mem_errorKinds (hk : .messageTooLarge ∈ errorKinds i ∨ .wouldBlock ∈ errorKinds i) :
    (∃ q a n k, i = .writeBits q a n k) ∨ ∃ q a n k, i = .readBits q a n k := by
  cases i <;> simp at hk ⊢

/-- `AllocationFailure` is the constructors' (R184). -/
theorem constructor_of_mem_errorKinds (hk : .allocationFailure ∈ errorKinds i) :
    (∃ n, i = .createOwned n) ∨ ∃ a n o, i = .wrapBuffer a n o := by
  cases i <;> simp at hk ⊢

/-- `InsufficientSpace` is for `COPY_BITS` alone, since no transfer meets it inside its loop (R156, R185). -/
theorem copyBits_of_mem_errorKinds (hk : .insufficientSpace ∈ errorKinds i) :
    ∃ a y b n a' y' b' n' k, i = .copyBits a y b n a' y' b' n' k := by
  cases i <;> simp at hk ⊢

/-- `IllegalCommand` is no command's: it answers a descriptor that names none (R186). -/
theorem illegalCommand_not_mem_errorKinds (i : Instr) : .illegalCommand ∉ errorKinds i := by
  cases i <;> simp

end

/-- Settles O40: a command by `exec_eq_of_error`, a descriptor that names none by its only answer (R90). -/
theorem errorsLeaveTheStateUnchanged : Obligations.ErrorsLeaveTheStateUnchanged := by
  refine ⟨fun i s t hi ht hst => hi.exec_eq_of_error ht hst, fun d s t hi ht hst => ?_⟩
  cases hd : decode d with
  | ok i => exact hi.exec_eq_of_error ((runDescriptor_of_decode_ok hd s).symm.trans ht) hst
  | error e =>
    obtain ⟨hop, -⟩ := (decode_eq_error_iff d e).1 hd
    cases (runDescriptor_of_illegal hop s).symm.trans ht
    rfl

/-- Settles O42: the error is one of the command's kinds (`mem_errorKinds`), and each kind tells the command. -/
theorem errorKindsByCommand : Obligations.ErrorKindsByCommand := by
  intro i s t hi ht
  refine ⟨fun hst => transfer_of_mem_errorKinds ?_, fun hst => constructor_of_mem_errorKinds ?_,
    fun hst => copyBits_of_mem_errorKinds ?_, fun hst => illegalCommand_not_mem_errorKinds i ?_⟩
  · exact hst.imp (hi.mem_errorKinds ht (by decide)) (hi.mem_errorKinds ht (by decide))
  · exact hi.mem_errorKinds ht (by decide) hst
  · exact hi.mem_errorKinds ht (by decide) hst
  · exact hi.mem_errorKinds ht (by decide) hst

/-! ### No operation reads the response (R36, R196) -/

section
variable (s : State) (r r' : Response) (h : Nat)

/-- A response replaces the one before it. -/
theorem respond_withResp : respond r { s with resp := r' } = respond r s := rfl

theorem raise_withResp (k : Status) : raise k { s with resp := r } = raise k s := rfl

theorem State.withResp_freeHandle : ({ s with resp := r } : State).freeHandle = s.freeHandle := rfl

theorem State.modifyQueue_withResp (f : Queue → Queue) :
    ({ s with resp := r } : State).modifyQueue h f = { s.modifyQueue h f with resp := r } := by
  cases h <;> rfl

theorem State.modifyCtx_withResp (f : Ctx → Ctx) :
    ({ s with resp := r } : State).modifyCtx h f = { s.modifyCtx h f with resp := r } :=
  State.modifyQueue_withResp ..

theorem State.modifyRam_withResp (f : Memory → Memory) :
    ({ s with resp := r } : State).modifyRam h f = { s.modifyRam h f with resp := r } :=
  State.modifyQueue_withResp ..

theorem bufWrite_withResp (B : Buf) (j : Nat) (v : Byte) :
    bufWrite { s with resp := r } B j v = { bufWrite s B j v with resp := r } := by
  cases B with
  | ext a => rfl
  | int h => exact State.modifyRam_withResp s r h fun m => m.write j v

end

/-- Two states that differ in the response at most. -/
def SameButResponse (s s' : State) : Prop := ∃ r, s' = { s with resp := r }

theorem SameButResponse.of_withResp (s : State) (r : Response) : SameButResponse s { s with resp := r } := ⟨r, rfl⟩

/-- States that differ in the response at most and have the same response are the same. -/
theorem SameButResponse.eq {s s' : State} (hs : SameButResponse s s') (hr : s.resp = s'.resp) : s = s' := by
  obtain ⟨r, rfl⟩ := hs
  obtain rfl : s.resp = r := hr
  rfl

/-- No transfer can tell two such states apart. -/
theorem SameButResponse.bisim (h : Nat) : Bisim h SameButResponse where
  params := by rintro t _ ⟨r, rfl⟩; rfl
  nq := by rintro t _ ⟨r, rfl⟩; rfl
  ctx := by rintro t _ ⟨r, rfl⟩; exact (State.withResp_ctx ..).symm
  ring := by rintro t _ i ⟨r, rfl⟩ -; exact (State.withResp_bufRead ..).symm
  ext := by rintro t _ a i ⟨r, rfl⟩; exact (State.withResp_bufRead ..).symm
  writeRing := by rintro t _ i v ⟨r, rfl⟩ -; exact ⟨r, bufWrite_withResp ..⟩
  writeExt := by rintro t _ a i v ⟨r, rfl⟩; exact ⟨r, bufWrite_withResp ..⟩
  advanceWrite := by rintro t _ k ⟨r, rfl⟩; exact ⟨r, State.modifyCtx_withResp ..⟩
  advanceRead := by rintro t _ k ⟨r, rfl⟩; exact ⟨r, State.modifyCtx_withResp ..⟩
  respond := by rintro t _ r' ⟨r, rfl⟩; exact ⟨r', rfl⟩

/-! ### No command reads the response -/

section
variable (s : State) (r : Response) (h addr size count : Nat)

theorem writeLoop_withResp (fuel moved : Nat) :
    writeLoop h addr size count fuel moved { s with resp := r } = writeLoop h addr size count fuel moved s := by
  obtain ⟨t, t', ht, ht', hresp, hR⟩ := (SameButResponse.bisim h).writeLoop_alike (a := addr) (cap := size)
    (count := count) (fuel := fuel) (moved := moved) (.of_withResp s r)
  rw [ht, ht', hR.eq hresp]

theorem readLoop_withResp (fuel moved : Nat) :
    readLoop h addr size count fuel moved { s with resp := r } = readLoop h addr size count fuel moved s := by
  obtain ⟨t, t', ht, ht', hresp, hR⟩ := (SameButResponse.bisim h).readLoop_alike (a := addr) (cap := size)
    (count := count) (fuel := fuel) (moved := moved) (.of_withResp s r)
  rw [ht, ht', hR.eq hresp]

theorem execWriteBits_withResp :
    execWriteBits h addr size count { s with resp := r } = execWriteBits h addr size count s := by
  simp only [execWriteBits, State.qPresent, State.ringOutsideRam, State.withResp_nq, State.withResp_ctx, raise_withResp,
    writeLoop_withResp]

theorem execReadBits_withResp :
    execReadBits h addr size count { s with resp := r } = execReadBits h addr size count s := by
  simp only [execReadBits, State.qPresent, State.ringOutsideRam, State.withResp_nq, State.withResp_ctx, raise_withResp,
    readLoop_withResp]

theorem execCopyBits_withResp (daddr dbyte dbit dcap saddr sbyte sbit scap : Nat) :
    execCopyBits daddr dbyte dbit dcap saddr sbyte sbit scap count { s with resp := r } =
      execCopyBits daddr dbyte dbit dcap saddr sbyte sbit scap count s := by
  cases hplan : copyPlan dbyte dbit dcap sbyte sbit scap count with
  | err k => simp only [execCopyBits, copyBits_of_err hplan, raise_withResp]
  | transferred m =>
    simp only [execCopyBits, copyBits_of_transferred hplan, copyMove_withResp, raise_withResp, respond_withResp]

theorem execCreateOwned_withResp (n : Nat) :
    execCreateOwned n { s with resp := r } = execCreateOwned n s := by
  simp only [execCreateOwned, State.withResp_freeHandle, State.modifyRam_withResp, State.modifyCtx_withResp,
    raise_withResp, respond_withResp]

theorem execWrapBuffer_withResp (n : Nat) (own : Bool) :
    execWrapBuffer addr n own { s with resp := r } = execWrapBuffer addr n own s := by
  simp only [execWrapBuffer, State.withResp_freeHandle, State.modifyCtx_withResp, raise_withResp, respond_withResp]

theorem query_withResp (answer : Ctx → Bool) : query h answer { s with resp := r } = query h answer s := by
  simp only [query, State.qPresent, State.withResp_nq, State.withResp_ctx, raise_withResp, respond_withResp]

theorem execDestroy_withResp : execDestroy h { s with resp := r } = execDestroy h s := by
  simp only [execDestroy, State.qPresent, State.withResp_nq, State.withResp_ctx, State.modifyCtx_withResp,
    raise_withResp, respond_withResp]

end

/-- Settles O45, command by command: none of its tests, operations and answers reads the response. -/
theorem noCommandReadsTheResponse : Obligations.NoCommandReadsTheResponse := by
  intro i s r
  cases i with
  | copyBits => exact execCopyBits_withResp ..
  | createOwned => exact execCreateOwned_withResp ..
  | wrapBuffer => exact execWrapBuffer_withResp ..
  | writeBits => exact execWriteBits_withResp ..
  | readBits => exact execReadBits_withResp ..
  | hasSpace qh count => exact query_withResp s r qh fun c => c.hasSpace count
  | hasData qh count => exact query_withResp s r qh fun c => c.hasData count
  | destroy => exact execDestroy_withResp ..

end Sys2Proof.Machine

end

/-! ## Reset, and what a RAM holds outside a live ring (70_reset R211 to R213, U8) -/

section

namespace Sys2Proof.Machine

/-! ### The state after reset -/

/-- The reset event leaves every context and RAM at its reset value (R211, R212). -/
@[simp] theorem resetBlock_queue (s : State) (h : Nat) : (resetBlock s).queue h = Queue.reset := by
  cases h with
  | zero => rfl
  | succ k => exact List.getD_map (l := s.queues) (d := Queue.reset) fun _ => Queue.reset

@[simp] theorem resetBlock_nq (s : State) : (resetBlock s).nq = s.nq := List.length_map ..

/-- Every entry of `State.reset.queues` has its reset value. -/
theorem eq_reset_of_mem_reset_queues {q : Queue} (hq : q ∈ State.reset.queues) : q = Queue.reset :=
  List.eq_of_mem_replicate hq

/-- Settles O11: the queues `resetBlock` and `State.reset` hold are all `Queue.reset`. -/
theorem resetClearsContextsAndKeepsMemory : Obligations.ResetClearsContextsAndKeepsMemory := by
  constructor
  · intro rest s hhost
    exact ⟨_, step_of_reset hhost, rfl, rfl, rfl, resetBlock_nq _, fun h _ =>
      congrArg Queue.ctx (resetBlock_queue _ h)⟩
  · intro h hp
    exact congrArg Queue.ctx (eq_reset_of_mem_reset_queues (State.reset.queue_mem h hp))

/-- Settles O38: the default parameters are in range, every queue is `Queue.reset`, and nothing is listed in `M`. -/
theorem resetIsSound : Obligations.ResetIsSound := by
  refine ⟨by decide, by decide, fun q hq => ?_, ⟨.nil, List.forall_mem_nil _⟩, List.forall_mem_nil _, by decide⟩
  rw [eq_reset_of_mem_reset_queues hq]
  exact Queue.reset_ok _

/-! ### States that differ in unused RAM only -/

/-- Two queues with the same context, and the same bytes in its ring if the context is live and the ring internal: what
`SameButUnusedRam` says of each handle. -/
def Queue.SameButUnusedRam (q q' : Queue) : Prop :=
  q.ctx = q'.ctx ∧
    (q.ctx.live = true → q.ctx.bufInt = true → ∀ i < q.ctx.bufSize, q.ram.read i = q'.ram.read i)

section
variable {q q' : Queue}

theorem Queue.SameButUnusedRam.refl (q : Queue) : q.SameButUnusedRam q := ⟨rfl, fun _ _ _ _ => rfl⟩

/-- The RAM of a context that is dead, or whose ring is in `M`, is all unused. -/
theorem Queue.SameButUnusedRam.withCtx_of_unused {c : Ctx} (hc : c.live = true → c.bufInt = false) :
    ({ q with ctx := c } : Queue).SameButUnusedRam { q' with ctx := c } :=
  ⟨rfl, fun hl hb => absurd hb (by simp [hc hl])⟩

/-- A ring that `CREATE_OWNED` has zeroed reads the same whatever the RAM held before (R141). -/
theorem Queue.SameButUnusedRam.created (m m' : Memory) (n : Nat) :
    (⟨Ctx.created n, m.zeroBelow n⟩ : Queue).SameButUnusedRam ⟨Ctx.created n, m'.zeroBelow n⟩ :=
  ⟨rfl, fun _ _ i hi => by
    replace hi : i < n := hi
    rw [Memory.read_zeroBelow, Memory.read_zeroBelow, if_pos hi, if_pos hi]⟩

/-- The same byte written to both RAMs. -/
theorem Queue.SameButUnusedRam.write (hq : q.SameButUnusedRam q') (i : Nat) (v : Byte) :
    ({ q with ram := q.ram.write i v } : Queue).SameButUnusedRam { q' with ram := q'.ram.write i v } := by
  obtain ⟨hctx, hring⟩ := hq
  refine ⟨hctx, fun hl hb j hj => ?_⟩
  rw [Memory.read_write, Memory.read_write, hring hl hb j hj]

/-- The same change of both contexts, when it leaves the ring where it is. -/
theorem Queue.SameButUnusedRam.modifyCtx (hq : q.SameButUnusedRam q') {f : Ctx → Ctx}
    (hf : ∀ c, (f c).live = c.live ∧ (f c).bufInt = c.bufInt ∧ (f c).bufSize = c.bufSize) :
    ({ q with ctx := f q.ctx } : Queue).SameButUnusedRam { q' with ctx := f q'.ctx } := by
  obtain ⟨hctx, hring⟩ := hq
  obtain ⟨hlive, hint, hsize⟩ := hf q.ctx
  refine ⟨congrArg f hctx, fun hl hb i hi => hring (hlive.symm.trans hl) (hint.symm.trans hb) i ?_⟩
  rwa [← hsize]

end

section
variable {s s' t : State} {h : Nat}

/-- The relation handle by handle. -/
theorem SameButUnusedRam.of_queues (hparams : s.params = s'.params) (hnq : s.nq = s'.nq) (hmem : s.mem = s'.mem)
    (hresp : s.resp = s'.resp) (hhost : s.host = s'.host)
    (hq : ∀ h, (s.queue h).SameButUnusedRam (s'.queue h)) : SameButUnusedRam s s' :=
  ⟨hparams, hnq, hmem, hresp, hhost, hq⟩

theorem SameButUnusedRam.params (hs : SameButUnusedRam s s') : s.params = s'.params := by
  obtain ⟨hparams, -⟩ := hs
  exact hparams

theorem SameButUnusedRam.nq (hs : SameButUnusedRam s s') : s.nq = s'.nq := by
  obtain ⟨-, hnq, -⟩ := hs
  exact hnq

theorem SameButUnusedRam.mem (hs : SameButUnusedRam s s') : s.mem = s'.mem := by
  obtain ⟨-, -, hmem, -⟩ := hs
  exact hmem

theorem SameButUnusedRam.resp (hs : SameButUnusedRam s s') : s.resp = s'.resp := by
  obtain ⟨-, -, -, hresp, -⟩ := hs
  exact hresp

theorem SameButUnusedRam.host (hs : SameButUnusedRam s s') : s.host = s'.host := by
  obtain ⟨-, -, -, -, hhost, -⟩ := hs
  exact hhost

theorem SameButUnusedRam.queue (hs : SameButUnusedRam s s') (h : Nat) :
    (s.queue h).SameButUnusedRam (s'.queue h) := by
  obtain ⟨-, -, -, -, -, hq⟩ := hs
  exact hq h

theorem SameButUnusedRam.ctx (hs : SameButUnusedRam s s') (h : Nat) : s.ctx h = s'.ctx h := by
  obtain ⟨hctx, -⟩ := hs.queue h
  exact hctx

theorem SameButUnusedRam.qPresent_iff (hs : SameButUnusedRam s s') : s.qPresent h ↔ s'.qPresent h := by
  rw [State.qPresent, State.qPresent, hs.nq]

/-- There is no free handle just when every context is live (R140). -/
theorem freeHandle_eq_zero_iff : s.freeHandle = 0 ↔ ∀ h, s.qPresent h → (s.ctx h).live = true := by
  refine ⟨fun hzero => ?_, freeHandle_zero⟩
  rcases freeHandle_cases s with ⟨-, hall⟩ | ⟨hp, -⟩
  · exact hall
  · have := hp.1
    omega

/-- `FreeHandle()` reads the contexts only (R140). -/
theorem SameButUnusedRam.freeHandle (hs : SameButUnusedRam s s') : s.freeHandle = s'.freeHandle := by
  rcases freeHandle_cases s' with ⟨hzero, hall⟩ | ⟨hp, hdead, hleast⟩
  · rw [hzero, freeHandle_eq_zero_iff]
    intro h hp
    rw [hs.ctx]
    exact hall h (hs.qPresent_iff.1 hp)
  · refine freeHandle_eq (hs.qPresent_iff.2 hp) (by rwa [hs.ctx]) fun g h1 h2 => ?_
    rw [hs.ctx]
    exact hleast g h1 h2

/-! ### The operations keep them so -/

theorem SameButUnusedRam.withResp (hs : SameButUnusedRam s s') (r : Response) :
    SameButUnusedRam { s with resp := r } { s' with resp := r } :=
  .of_queues hs.params hs.nq hs.mem rfl hs.host fun g => by simpa using hs.queue g

theorem SameButUnusedRam.withHost (hs : SameButUnusedRam s s') (es : List HostEvent) :
    SameButUnusedRam { s with host := es } { s' with host := es } :=
  .of_queues hs.params hs.nq hs.mem hs.resp rfl fun g => by simpa using hs.queue g

/-- A change of queue `h` that leaves the two queues `h` the same but for unused RAM. -/
theorem SameButUnusedRam.modifyQueue (hs : SameButUnusedRam s s') {f : Queue → Queue}
    (hf : (f (s.queue h)).SameButUnusedRam (f (s'.queue h))) :
    SameButUnusedRam (s.modifyQueue h f) (s'.modifyQueue h f) := by
  by_cases hp : s.qPresent h
  · refine .of_queues (by simpa using hs.params) (by simpa using hs.nq) (by simpa using hs.mem)
      (by simpa using hs.resp) (by simpa using hs.host) fun g => ?_
    rw [State.modifyQueue_queue _ _ _ _ hp, State.modifyQueue_queue _ _ _ _ (hs.qPresent_iff.1 hp)]
    split
    · exact hf
    · exact hs.queue g
  · rwa [State.modifyQueue_absent _ _ _ hp, State.modifyQueue_absent _ _ _ (mt hs.qPresent_iff.2 hp)]

/-- The same byte written anywhere, to `M` or to a RAM. -/
theorem SameButUnusedRam.writeLoc (hs : SameButUnusedRam s s') (l : Loc) (v : Byte) :
    SameButUnusedRam (s.writeLoc l v) (s'.writeLoc l v) := by
  cases l with
  | mem a =>
    refine .of_queues hs.params hs.nq (congrArg (Memory.write · a v) hs.mem) hs.resp hs.host fun g => ?_
    rw [State.writeLoc_queue_ne _ _ _ _ (by simp), State.writeLoc_queue_ne _ _ _ _ (by simp)]
    exact hs.queue g
  | ram g i => exact hs.modifyQueue ((hs.queue g).write i v)

theorem SameButUnusedRam.bufWrite (hs : SameButUnusedRam s s') (B : Buf) (i : Nat) (v : Byte) :
    SameButUnusedRam (bufWrite s B i v) (bufWrite s' B i v) :=
  hs.writeLoc ..

/-- A byte of `M` reads the same. -/
theorem SameButUnusedRam.bufRead_ext (hs : SameButUnusedRam s s') (a i : Nat) :
    bufRead s (.ext a) i = bufRead s' (.ext a) i :=
  congrArg (Memory.read · _) hs.mem

/-- A byte of a live ring reads the same, wherever the ring is. -/
theorem SameButUnusedRam.bufRead_qbuf (hs : SameButUnusedRam s s') (hl : (s.ctx h).live = true) {i : Nat}
    (hi : i < (s.ctx h).bufSize) : bufRead s (s.qbuf h) i = bufRead s' (s.qbuf h) i := by
  obtain ⟨-, hring⟩ := hs.queue h
  cases hb : (s.ctx h).bufInt with
  | true =>
    rw [State.qbuf_of_internal hb]
    exact hring hl hb i hi
  | false =>
    rw [State.qbuf_of_external hb]
    exact hs.bufRead_ext _ i

/-- A copy in `M`. -/
theorem SameButUnusedRam.copyMove_ext (hs : SameButUnusedRam s s') (a b d p m : Nat) :
    SameButUnusedRam (copyMove (.ext a) d (.ext b) p m s) (copyMove (.ext a) d (.ext b) p m s') :=
  copyMove_bisim hs (fun _ _ _ ht _ _ => ht.bufRead_ext _ _) (fun _ _ _ ht _ _ => ht.bufRead_ext _ _)
    (fun _ _ _ v ht _ _ => ht.bufWrite _ _ v)

/-- The reset event leaves the two queues with nothing to tell them apart (R211, R212). -/
theorem SameButUnusedRam.resetBlock (hs : SameButUnusedRam s s') : SameButUnusedRam (resetBlock s) (resetBlock s') := by
  refine .of_queues hs.params (by simpa using hs.nq) hs.mem rfl hs.host fun g => ?_
  rw [resetBlock_queue, resetBlock_queue]
  exact .refl _

/-! ### The transfers -/

/-- States that differ in unused RAM at most, queue `h` being live. -/
def SameWithLive (h : Nat) (s s' : State) : Prop := SameButUnusedRam s s' ∧ (s.ctx h).live = true

/-- The same move of a cursor of queue `h`, which stays live. -/
theorem SameWithLive.modifyCtx (hs : SameWithLive h s s') {f : Ctx → Ctx}
    (hf : ∀ c, (f c).live = c.live ∧ (f c).bufInt = c.bufInt ∧ (f c).bufSize = c.bufSize) :
    SameWithLive h (s.modifyCtx h f) (s'.modifyCtx h f) := by
  obtain ⟨hsame, hl⟩ := hs
  exact ⟨hsame.modifyQueue ((hsame.queue h).modifyCtx hf),
    State.modifyCtx_ctx_of (p := fun c => c.live = true) (fun c hc => by rwa [(hf c).1]) hl⟩

theorem SameWithLive.bufWrite (hs : SameWithLive h s s') (B : Buf) (i : Nat) (v : Byte) :
    SameWithLive h (bufWrite s B i v) (bufWrite s' B i v) := by
  obtain ⟨hsame, hl⟩ := hs
  exact ⟨hsame.bufWrite B i v, by rwa [bufWrite_ctx]⟩

/-- No transfer on a live queue can tell two such states apart: it reads `M` and its own ring. -/
theorem SameWithLive.bisim (h : Nat) : Bisim h (SameWithLive h) where
  params := fun _ _ ⟨hs, _⟩ => hs.params
  nq := fun _ _ ⟨hs, _⟩ => hs.nq
  ctx := fun _ _ ⟨hs, _⟩ => hs.ctx h
  ring := fun _ _ _ ⟨hs, hl⟩ hi => hs.bufRead_qbuf hl hi
  ext := fun _ _ a i ⟨hs, _⟩ => hs.bufRead_ext a i
  writeRing := fun _ _ i v hs _ => hs.bufWrite _ i v
  writeExt := fun _ _ _ i v hs => hs.bufWrite _ i v
  advanceWrite := fun _ _ _ hs => hs.modifyCtx fun _ => ⟨rfl, rfl, rfl⟩
  advanceRead := fun _ _ _ hs => hs.modifyCtx fun _ => ⟨rfl, rfl, rfl⟩
  respond := fun _ _ r ⟨hs, hl⟩ => ⟨hs.withResp r, by rwa [State.withResp_ctx]⟩

theorem AnswersAlike.imp {R R' : State → State → Prop} {answer : Result} (ha : AnswersAlike R t answer)
    (hR : ∀ u u', R u u' → R' u u') : AnswersAlike R' t answer := by
  obtain ⟨t', ht', hresp, hr⟩ := ha
  exact ⟨t', ht', hresp, hR t t' hr⟩

/-- A live context has a handle: an absent one reads as after reset. -/
theorem State.qPresent_of_live (hl : (s.ctx h).live = true) : s.qPresent h := by
  by_contra hp
  have hreset : s.queue h = Queue.reset := by
    cases h with
    | zero => rfl
    | succ k => exact List.getD_eq_default _ _ (by simp only [State.qPresent, State.nq] at hp; omega)
  rw [State.ctx, hreset] at hl
  cases hl

/-- The zeroing of the RAM and the new context as one change of the queue (R141). -/
theorem createIn_eq_modifyQueue (h n : Nat) (s : State) :
    createIn h n s = s.modifyQueue h fun q => ⟨Ctx.created n, q.ram.zeroBelow n⟩ := by
  cases h with
  | zero => rfl
  | succ k => exact congrArg (fun qs => { s with queues := qs }) (List.modify_modify_eq ..)

/-! ### Each command answers alike -/

section
variable (hs : SameButUnusedRam s s')
include hs

/-- On a dead context no command that names a queue gets past its checks (R178). -/
theorem SameButUnusedRam.dead_alike {addr size count : Nat} {i : Instr} (hd : (s.ctx h).live = false)
    (hi : i ∈ [.writeBits h addr size count, .readBits h addr size count, .hasSpace h count, .hasData h count,
      .destroy h]) (ht : exec i s = .next t) : AnswersAlike SameButUnusedRam t (exec i s') :=
  .of_respond (deadContextAnswersInvalidArgument h addr size count s i hd hi)
    (deadContextAnswersInvalidArgument h addr size count s' i (hs.ctx h ▸ hd) hi) (hs.withResp _) ht

theorem SameButUnusedRam.execCopyBits_alike {daddr dbyte dbit dcap saddr sbyte sbit scap count : Nat}
    (ht : execCopyBits daddr dbyte dbit dcap saddr sbyte sbit scap count s = .next t) :
    AnswersAlike SameButUnusedRam t (execCopyBits daddr dbyte dbit dcap saddr sbyte sbit scap count s') := by
  obtain ⟨hinvalid, hinsufficient⟩ :=
    copyBitsErrorsAndTheirOrder daddr dbyte dbit dcap saddr sbyte sbit scap count s'
  rcases execCopyBits_cases daddr dbyte dbit dcap saddr sbyte sbit scap count s with
    ⟨hv, k⟩ | ⟨hv, hfull, k⟩ | ⟨hv, hroom, k⟩
  · exact .of_respond k (hinvalid hv) (hs.withResp _) ht
  · exact .of_respond k (hinsufficient hv hfull) (hs.withResp _) ht
  · exact .of_respond k (execCopyBits_moves hv hroom s') ((hs.copyMove_ext ..).withResp _) ht

/-- A queue that `CREATE_OWNED` claims has a ring of zeros in both, whatever its RAM held (R141, R212). -/
theorem SameButUnusedRam.createIn_alike (h n : Nat) : SameButUnusedRam (createIn h n s) (createIn h n s') := by
  rw [createIn_eq_modifyQueue, createIn_eq_modifyQueue]
  exact hs.modifyQueue (.created ..)

theorem SameButUnusedRam.execCreateOwned_alike {n : Nat} (ht : execCreateOwned n s = .next t) :
    AnswersAlike SameButUnusedRam t (execCreateOwned n s') := by
  rcases execCreateOwned_cases n s with ⟨hz, k⟩ | ⟨h0, hfail, k⟩ | ⟨h0, hf, hn, k⟩
  · exact .of_respond k (execCreateOwned_invalid hz) (hs.withResp _) ht
  · rw [hs.freeHandle, hs.params, freeHandle_eq_zero_iff] at hfail
    exact .of_respond k (execCreateOwned_allocationFailure h0 hfail) (hs.withResp _) ht
  · rw [hs.freeHandle] at hf k
    rw [hs.params] at hn
    exact .of_respond k (execCreateOwned_claims h0 hn (freeHandle_present hf) rfl)
      ((hs.createIn_alike ..).withResp _) ht

theorem SameButUnusedRam.execWrapBuffer_alike {a n : Nat} {own : Bool} (ht : execWrapBuffer a n own s = .next t) :
    AnswersAlike SameButUnusedRam t (execWrapBuffer a n own s') := by
  rcases execWrapBuffer_cases a n own s with ⟨hz, k⟩ | ⟨h0, hfull, k⟩ | ⟨h0, hf, k⟩
  · exact .of_respond k (execWrapBuffer_invalid hz) (hs.withResp _) ht
  · rw [hs.freeHandle, freeHandle_eq_zero_iff] at hfull
    obtain ⟨ha, hn⟩ := not_or.1 h0
    exact .of_respond k (execWrapBuffer_allocationFailure ha hn hfull) (hs.withResp _) ht
  · obtain ⟨ha, hn⟩ := not_or.1 h0
    rw [hs.freeHandle] at hf k
    exact .of_respond k (execWrapBuffer_claims ha hn (freeHandle_present hf) rfl)
      ((hs.modifyQueue (.withCtx_of_unused fun _ => rfl)).withResp _) ht

theorem SameButUnusedRam.query_alike {answer : Ctx → Bool} (hl : (s.ctx h).live = true)
    (ht : query h answer s = .next t) : AnswersAlike SameButUnusedRam t (query h answer s') := by
  have hp := State.qPresent_of_live hl
  have k := query_live (answer := answer) hp hl
  rw [hs.ctx] at hl k
  exact .of_respond k (query_live (hs.qPresent_iff.1 hp) hl) (hs.withResp _) ht

theorem SameButUnusedRam.execDestroy_alike (hl : (s.ctx h).live = true) (ht : execDestroy h s = .next t) :
    AnswersAlike SameButUnusedRam t (execDestroy h s') := by
  have hp := State.qPresent_of_live hl
  have k := execDestroy_live hp hl
  rw [hs.ctx] at hl k
  exact .of_respond k (execDestroy_live (hs.qPresent_iff.1 hp) hl)
    ((hs.modifyQueue (.withCtx_of_unused fun _ => rfl)).withResp _) ht

theorem SameButUnusedRam.execWriteBits_alike {addr size count : Nat} (hl : (s.ctx h).live = true)
    (ht : execWriteBits h addr size count s = .next t) :
    AnswersAlike SameButUnusedRam t (execWriteBits h addr size count s') :=
  ((SameWithLive.bisim h).execWriteBits_alike ⟨hs, hl⟩ ht).imp fun _ _ => And.left

theorem SameButUnusedRam.execReadBits_alike {addr size count : Nat} (hl : (s.ctx h).live = true)
    (ht : execReadBits h addr size count s = .next t) :
    AnswersAlike SameButUnusedRam t (execReadBits h addr size count s') :=
  ((SameWithLive.bisim h).execReadBits_alike ⟨hs, hl⟩ ht).imp fun _ _ => And.left

/-- A command that names a queue: on a dead one none gets past its checks, on a live one each is answered alike. -/
theorem SameButUnusedRam.queueCommand_alike (h addr size count : Nat) {i : Instr}
    (hi : i ∈ [.writeBits h addr size count, .readBits h addr size count, .hasSpace h count, .hasData h count,
      .destroy h]) (ht : exec i s = .next t) : AnswersAlike SameButUnusedRam t (exec i s') := by
  cases hl : (s.ctx h).live with
  | false => exact hs.dead_alike hl hi ht
  | true =>
    simp only [List.mem_cons, List.not_mem_nil, or_false] at hi
    rcases hi with rfl | rfl | rfl | rfl | rfl
    · exact hs.execWriteBits_alike hl ht
    · exact hs.execReadBits_alike hl ht
    · exact hs.query_alike (answer := fun c => c.hasSpace count) hl ht
    · exact hs.query_alike (answer := fun c => c.hasData count) hl ht
    · exact hs.execDestroy_alike hl ht

/-- Every command is answered alike. (An operand a queue command does not have is 0 here.) -/
theorem SameButUnusedRam.exec_alike {i : Instr} (ht : exec i s = .next t) :
    AnswersAlike SameButUnusedRam t (exec i s') := by
  cases i with
  | copyBits => exact hs.execCopyBits_alike ht
  | createOwned => exact hs.execCreateOwned_alike ht
  | wrapBuffer => exact hs.execWrapBuffer_alike ht
  | writeBits qh saddr scap count => exact hs.queueCommand_alike qh saddr scap count (by simp) ht
  | readBits qh daddr dcap count => exact hs.queueCommand_alike qh daddr dcap count (by simp) ht
  | hasSpace qh count => exact hs.queueCommand_alike qh 0 0 count (by simp) ht
  | hasData qh count => exact hs.queueCommand_alike qh 0 0 count (by simp) ht
  | destroy qh => exact hs.queueCommand_alike qh 0 0 0 (by simp) ht

/-- A descriptor, legal or not, is answered alike. -/
theorem SameButUnusedRam.runDescriptor_alike {d : Descriptor} (ht : runDescriptor d s = .next t) :
    AnswersAlike SameButUnusedRam t (runDescriptor d s') := by
  cases hd : decode d with
  | ok i =>
    rw [runDescriptor_of_decode_ok hd] at ht ⊢
    exact hs.exec_alike ht
  | error e =>
    obtain ⟨hop, -⟩ := (decode_eq_error_iff d e).1 hd
    exact .of_respond (runDescriptor_of_illegal hop s) (runDescriptor_of_illegal hop s') (hs.withResp _) ht

end

end

/-- Settles O47, by the kinds of the host's next action: a descriptor (`runDescriptor_alike`, command by command), a
byte written to `M`, the reset event. -/
theorem unusedRamContentIsNeverObserved : Obligations.UnusedRamContentIsNeverObserved := by
  intro s s' t hs ht
  cases hhost : s.host with
  | nil =>
    cases (step_of_nil hhost).symm.trans ht
    exact ⟨s', step_of_nil (hs.host ▸ hhost), hs⟩
  | cons e rest =>
    have hhost' : s'.host = e :: rest := hs.host ▸ hhost
    have hrest := hs.withHost rest
    cases e with
    | command d =>
      rw [step_of_command hhost] at ht
      rw [step_of_command hhost']
      obtain ⟨t', ht', -, hsame⟩ := hrest.runDescriptor_alike ht
      exact ⟨t', ht', hsame⟩
    | memWrite a v =>
      cases (step_of_memWrite hhost).symm.trans ht
      exact ⟨_, step_of_memWrite hhost', hrest.writeLoc _ v⟩
    | reset =>
      cases (step_of_reset hhost).symm.trans ht
      exact ⟨_, step_of_reset hhost', hrest.resetBlock⟩

end Sys2Proof.Machine

end
